-- ==== Sys2Proof/Word.lean ====
section
/-! DEFINITION. Words of the block: bytes, the 16-bit registers, and pixel coordinates (00_scope.md R14, R15). -/

namespace Sys2Proof

/-- A byte, 8 bits, bit 0 least significant (R14). -/
abbrev Byte := BitVec 8

/-- A control and status register as the host reads it, 16 bits (R30). -/
abbrev Half := BitVec 16

/-- A pixel coordinate pair `(x, y)`: mathematical integers of any size and sign (R15, R142). -/
abbrev Point := Int × Int

end Sys2Proof
end

