-- ==== Sys2Proof/Config.lean ====
section
/-! DEFINITION. What one instance of the block fixes (00_scope.md R8 to R12), and the values the spec leaves open, each a
constant with no body, so that nothing can be proved of it. -/

namespace Sys2Proof.Config

/-- `W`, the width in pixels (R8). -/
abbrev width : Nat := 128

/-- `H`, the height in pixels (R8). -/
abbrev height : Nat := 64

/-- `P = H / 8`, the number of pages (R8). -/
abbrev pages : Nat := 8

/-- `FB_SIZE = W × P` (R8). -/
abbrev fbSize : Nat := 1024

/-- The size of the image buffer in bytes (20_memory.md R60). -/
abbrev imgSize : Nat := 32768

/-- The size of the font table in bytes, 96 glyphs of 5 (R9, R60). -/
abbrev fontSize : Nat := 480

/-- `GLYPH_COLS` (R9). -/
abbrev glyphCols : Nat := 5

/-- `GLYPH_ROWS` (R9). -/
abbrev glyphRows : Nat := 7

/-- `ADVANCE_X`, the cursor advance per character (R9). -/
abbrev advanceX : Int := 6

/-- `ADVANCE_Y`, the cursor advance per newline (R9). -/
abbrev advanceY : Int := 8

/-- `FIRST_CHAR` (R9). -/
abbrev firstChar : Nat := 32

/-- `LAST_CHAR` (R9). -/
abbrev lastChar : Nat := 127

/-- `CHUNK_DEFAULT`, the reset value of the chunk limit (R11). -/
abbrev chunkDefault : Half := 16

/-- `CMD_CTRL`, the control byte of a command transaction (R11, R120). -/
abbrev cmdCtrl : Byte := 0x00

/-- `DATA_CTRL`, the control byte of a data transaction (R11, R121). -/
abbrev dataCtrl : Byte := 0x40

/-- `FONT`, byte `g × 5 + c` (R10, R63): an open parameter, no source gives its contents (D18, U11; log 8). -/
opaque font (addr : Nat) : Byte

/-- `INIT_CONTRAST`, entry 9 of `INIT_SEQ` (R12, R212): an open parameter (D19, U12; log 8). -/
opaque initContrast : Byte

/-- `ADDR_DEFAULT`, what the assembler supplies for OPEN with no operand (R12, R108): an open parameter (D24, U13; log 4). -/
opaque addrDefault : BitVec 7

/-- `CSR.ADDR` after the `n`-th reset: unspecified, any value (R44, U2; log 6). -/
opaque resetAddr (n : Nat) : BitVec 7

/-- `CSR.IMG_W` after the `n`-th reset: unspecified, any value (R44, U2; log 6). -/
opaque resetImgW (n : Nat) : Half

/-- `CSR.IMG_H` after the `n`-th reset: unspecified, any value (R44, U2; log 6). -/
opaque resetImgH (n : Nat) : Half

/-- `CSR.IMG_FMT` bit 0 after the `n`-th reset: unspecified, any value (R44, U2; log 6). -/
opaque resetImgFmt (n : Nat) : BitVec 1

/-- The byte at `addr` of `FB` that nothing has written since the `n`-th reset (R44, U1; log 7). -/
opaque powerOnFb (n addr : Nat) : Byte

/-- The byte at `addr` of `IMG` that nothing has written since the `n`-th reset (R44, U2; log 7). -/
opaque powerOnImg (n addr : Nat) : Byte

/-- The `k`-th bus answer that the environment's queue does not fix, `true` for ok (20_memory.md R72; log 10). -/
opaque busAnswer (k : Nat) : Bool

/-- The device's memory byte at `addr` under its `k`-th unknown contents (R73, R232, U3; log 12). -/
opaque devByte (k addr : Nat) : Byte

/-- The device's page register under its `k`-th unknown draw (R73, R232, U3, U7; log 12). -/
opaque devPage (k : Nat) : BitVec 3

/-- The device's column register under its `k`-th unknown draw (R73, R232, U3, U7; log 12). -/
opaque devCol (k : Nat) : BitVec 7

end Sys2Proof.Config
end

