-- ==== Sys2Proof/Machine/Tables.lean ====
section
/-! DEFINITION. The default contents of the block's read-only tables (10_state.md R28, R29), which State.reset holds. -/

namespace Sys2Proof.Machine

/-- The default threshold matrix, cell `r × 4 + c` (41_ditherer.md R183). PRESUMED: the spec takes it from general knowledge
(D17, G1); a claim that does not name it may use only what R183 allows (log 8). -/
def defaultBayer : Vector (BitVec 4) 16 :=
  #v[0, 8, 2, 10,
     12, 4, 14, 6,
     3, 11, 1, 9,
     15, 7, 13, 5]

/-- The default initialization list (42_transport.md R212). Entries 3, 5, 6, 13, 16, 18, 20, 22, 24 and 26 are the source's;
entry 9 is open; the other seventeen are PRESUMED, the spec's general-knowledge defaults (D19, G3; log 8). -/
def defaultInitSeq : Vector Byte 28 :=
  #v[0xAE, 0x20, 0x00, 0xB0, 0xC8, 0x00, 0x10,
     0x40, 0x81, Config.initContrast, 0xA1, 0xA6, 0xA8, 0x3F,
     0xA4, 0xD3, 0x00, 0xD5, 0x80, 0xD9, 0xF1,
     0xDA, 0x12, 0xDB, 0x40, 0x8D, 0x14, 0xAF]

end Sys2Proof.Machine
end

