-- ==== Sys2Proof/Machine/Operands.lean ====
section
/-! DEFINITION. Operand forms of a command word (30_encoding.md R102, R104): how the bytes of an s16, a u16 and a u8 operand
are assembled, and how an operand value is laid out in bytes. -/

namespace Sys2Proof.Machine

/-- The raw 16-bit value of the operand bytes `lo`, `hi`, low byte first: `raw = lo + 256 × hi` (R104). -/
def raw16 (lo hi : Byte) : Half := hi ++ lo

/-- An `s16` operand: `sext_16(raw)` as a mathematical integer (R104). -/
def s16 (lo hi : Byte) : Int := (raw16 lo hi).toInt

/-- A `u16` operand: the raw value (R104). -/
def u16 (lo hi : Byte) : Half := raw16 lo hi

/-- A value is an `s16`: it lies in −32768 to 32767 (R102). -/
def fitsS16 (v : Int) : Bool := decide (-32768 ≤ v) && decide (v ≤ 32767)

/-- The low byte of a 16-bit pattern. -/
def lowByte (v : Half) : Byte := v.extractLsb' 0 8

/-- The high byte of a 16-bit pattern. -/
def highByte (v : Half) : Byte := v.extractLsb' 8 8

/-- A `u16` operand laid out in the command word, low byte first (R104). -/
def u16Bytes (v : Half) : List Byte := [lowByte v, highByte v]

/-- An `s16` operand laid out in the command word, two's complement, low byte first (R104). -/
def s16Bytes (v : Int) : List Byte := u16Bytes (BitVec.ofInt 16 v)

/-- The bits `[6:0]` of an OPEN operand, the 7-bit device address (R103 FA, R125). -/
def addr7 (a : Byte) : BitVec 7 := a.extractLsb' 0 7

/-- Bit 7 of an OPEN operand, which must be 0 (R103 FA, R106 b). -/
def addrBit7 (a : Byte) : Bool := a.getLsbD 7

end Sys2Proof.Machine
end

