-- ==== Sys2Proof/Syntax.lean ====
section
/-! DEFINITION. The instructions: one constructor per row of spec/opcode_table.json. The twelve host commands (30_encoding.md
R101) with their operands as mathematical integers (R104), the four assembler pseudo forms (R108), the bus transactions
(R120, R121), the per-page device command bytes (R123) and the entries of the initialization list (42_transport.md R212). -/

namespace Sys2Proof

/-- One constructor per row of the opcode table. Signed 16-bit operands stand as integers, characters and bytes as bytes. -/
inductive Instr where
  /-- CLEAR, opcode 0x01 (R141). -/
  | clear
  /-- SETPIXEL x, y, opcode 0x02 (R145). -/
  | setPixel (x y : Int)
  /-- LINE x0, y0, x1, y1, opcode 0x03 (R150). -/
  | line (x0 y0 x1 y1 : Int)
  /-- RECT x, y, w, h, opcode 0x04 (R155). -/
  | rect (x y w h : Int)
  /-- GLYPH x, y, ch, opcode 0x05 (R160). -/
  | glyph (x y : Int) (ch : Byte)
  /-- TEXT x, y, s, opcode 0x06; the operand `n` is the string's length (R165). -/
  | text (x y : Int) (str : List Byte)
  /-- DITHER, opcode 0x10 (R181). -/
  | dither
  /-- OPEN addr, opcode 0x20; bit 7 of `addr` must be 0 (R205). -/
  | openBus (addr : Byte)
  /-- INIT, opcode 0x21 (R210). -/
  | init
  /-- BLIT, opcode 0x22 (R220). -/
  | blit
  /-- CLOSE, opcode 0x23 (R235). -/
  | close
  /-- SETCHUNK n, opcode 0x24; `n` must not be 0 (R240). -/
  | setChunk (n : Half)
  /-- OPEN with no operand, a pseudo form (R108 a). -/
  | openDefault
  /-- FRAME, a pseudo form of CLEAR (R108 b). -/
  | frame
  /-- DRAWGLYPH, a synonym of GLYPH (R108 c). -/
  | drawGlyph (x y : Int) (ch : Byte)
  /-- DRAWTEXT, a synonym of TEXT (R108 c). -/
  | drawText (x y : Int) (str : List Byte)
  /-- BUS.CMD, the command transaction `[0x00, c]` (R120). -/
  | busCmd (c : Byte)
  /-- BUS.DATA, the data transaction `[0x40] ++ payload` (R121). -/
  | busData (payload : List Byte)
  /-- DEV.PAGEADDR, the page-address command byte `0xB0 + p` (R123). -/
  | devPageAddr (p : BitVec 3)
  /-- DEV.COLLOW0, the column-address-low command byte 0x00 (R123). -/
  | devColLow0
  /-- DEV.COLHIGH0, the column-address-high command byte 0x10 (R123). -/
  | devColHigh0
  /-- INIT_SEQ[0], display-off, 0xAE by default (R212). -/
  | initSeq0
  /-- INIT_SEQ[1], set addressing mode, 0x20 by default (R212). -/
  | initSeq1
  /-- INIT_SEQ[2], its parameter, horizontal, 0x00 by default (R212). -/
  | initSeq2
  /-- INIT_SEQ[3], page-start address, 0xB0 by default (R212). -/
  | initSeq3
  /-- INIT_SEQ[4], COM-scan direction, 0xC8 by default (R212). -/
  | initSeq4
  /-- INIT_SEQ[5], column low nibble, 0x00 by default (R212). -/
  | initSeq5
  /-- INIT_SEQ[6], column high nibble, 0x10 by default (R212). -/
  | initSeq6
  /-- INIT_SEQ[7], display start line, 0x40 by default (R212). -/
  | initSeq7
  /-- INIT_SEQ[8], contrast control, 0x81 by default (R212). -/
  | initSeq8
  /-- INIT_SEQ[9], its value, INIT_CONTRAST (R212). -/
  | initSeq9
  /-- INIT_SEQ[10], segment remap, 0xA1 by default (R212). -/
  | initSeq10
  /-- INIT_SEQ[11], normal display, 0xA6 by default (R212). -/
  | initSeq11
  /-- INIT_SEQ[12], multiplex ratio, 0xA8 by default (R212). -/
  | initSeq12
  /-- INIT_SEQ[13], its value, 63, 0x3F by default (R212). -/
  | initSeq13
  /-- INIT_SEQ[14], display-from-RAM, 0xA4 by default (R212). -/
  | initSeq14
  /-- INIT_SEQ[15], display offset, 0xD3 by default (R212). -/
  | initSeq15
  /-- INIT_SEQ[16], its value, 0, 0x00 by default (R212). -/
  | initSeq16
  /-- INIT_SEQ[17], display clock, 0xD5 by default (R212). -/
  | initSeq17
  /-- INIT_SEQ[18], its value, 0x80 by default (R212). -/
  | initSeq18
  /-- INIT_SEQ[19], pre-charge period, 0xD9 by default (R212). -/
  | initSeq19
  /-- INIT_SEQ[20], its value, 0xF1 by default (R212). -/
  | initSeq20
  /-- INIT_SEQ[21], COM pins config, 0xDA by default (R212). -/
  | initSeq21
  /-- INIT_SEQ[22], its value, 0x12 by default (R212). -/
  | initSeq22
  /-- INIT_SEQ[23], VCOMH level, 0xDB by default (R212). -/
  | initSeq23
  /-- INIT_SEQ[24], its value, 0x40 by default (R212). -/
  | initSeq24
  /-- INIT_SEQ[25], charge-pump enable, 0x8D by default (R212). -/
  | initSeq25
  /-- INIT_SEQ[26], its value, 0x14 by default (R212). -/
  | initSeq26
  /-- INIT_SEQ[27], display-on, 0xAF by default (R212). -/
  | initSeq27
  deriving DecidableEq, Repr

end Sys2Proof
end

