-- ==== Sys2Proof/WellFormed.lean ====
section
/-! DEFINITION. Which instructions a word can carry: operands that fit their field (30_encoding.md R102, R103, R121) and the
two operand constraints of R106. -/

namespace Sys2Proof

open Sys2Proof.Machine

/-- Every operand fits the field its format gives it: coordinates and sizes are s16 (R102), a string has at most 65535 bytes
(R103 FT), a data payload has 1 to 128 bytes (R121). What fails this cannot be written at all (U16). -/
def Instr.operandsFit : Instr → Bool
  | .setPixel x y => fitsS16 x && fitsS16 y
  | .line x0 y0 x1 y1 => fitsS16 x0 && fitsS16 y0 && fitsS16 x1 && fitsS16 y1
  | .rect x y w h => fitsS16 x && fitsS16 y && fitsS16 w && fitsS16 h
  | .glyph x y _ => fitsS16 x && fitsS16 y
  | .text x y str => fitsS16 x && fitsS16 y && decide (str.length ≤ 65535)
  | .drawGlyph x y _ => fitsS16 x && fitsS16 y
  | .drawText x y str => fitsS16 x && fitsS16 y && decide (str.length ≤ 65535)
  | .busData payload => decide (1 ≤ payload.length) && decide (payload.length ≤ 128)
  | .clear => true
  | .dither => true
  | .openBus _ => true
  | .init => true
  | .blit => true
  | .close => true
  | .setChunk _ => true
  | .openDefault => true
  | .frame => true
  | .busCmd _ => true
  | .devPageAddr _ => true
  | .devColLow0 => true
  | .devColHigh0 => true
  | .initSeq0 => true
  | .initSeq1 => true
  | .initSeq2 => true
  | .initSeq3 => true
  | .initSeq4 => true
  | .initSeq5 => true
  | .initSeq6 => true
  | .initSeq7 => true
  | .initSeq8 => true
  | .initSeq9 => true
  | .initSeq10 => true
  | .initSeq11 => true
  | .initSeq12 => true
  | .initSeq13 => true
  | .initSeq14 => true
  | .initSeq15 => true
  | .initSeq16 => true
  | .initSeq17 => true
  | .initSeq18 => true
  | .initSeq19 => true
  | .initSeq20 => true
  | .initSeq21 => true
  | .initSeq22 => true
  | .initSeq23 => true
  | .initSeq24 => true
  | .initSeq25 => true
  | .initSeq26 => true
  | .initSeq27 => true

/-- The operand constraints whose breach is the result IllegalCommand: OPEN with bit 7 of the address set, SETCHUNK 0
(R106 b, c). -/
def Instr.operandsLegal : Instr → Bool
  | .openBus a => !addrBit7 a
  | .setChunk n => !decide (n = 0)
  | .clear => true
  | .setPixel _ _ => true
  | .line _ _ _ _ => true
  | .rect _ _ _ _ => true
  | .glyph _ _ _ => true
  | .text _ _ _ => true
  | .dither => true
  | .init => true
  | .blit => true
  | .close => true
  | .openDefault => true
  | .frame => true
  | .drawGlyph _ _ _ => true
  | .drawText _ _ _ => true
  | .busCmd _ => true
  | .busData _ => true
  | .devPageAddr _ => true
  | .devColLow0 => true
  | .devColHigh0 => true
  | .initSeq0 => true
  | .initSeq1 => true
  | .initSeq2 => true
  | .initSeq3 => true
  | .initSeq4 => true
  | .initSeq5 => true
  | .initSeq6 => true
  | .initSeq7 => true
  | .initSeq8 => true
  | .initSeq9 => true
  | .initSeq10 => true
  | .initSeq11 => true
  | .initSeq12 => true
  | .initSeq13 => true
  | .initSeq14 => true
  | .initSeq15 => true
  | .initSeq16 => true
  | .initSeq17 => true
  | .initSeq18 => true
  | .initSeq19 => true
  | .initSeq20 => true
  | .initSeq21 => true
  | .initSeq22 => true
  | .initSeq23 => true
  | .initSeq24 => true
  | .initSeq25 => true
  | .initSeq26 => true
  | .initSeq27 => true

/-- A well-formed instruction: its operands fit and are legal. -/
def Instr.wellFormed (i : Instr) : Bool := i.operandsFit && i.operandsLegal

end Sys2Proof
end

