-- ==== Sys2Proof/Decode.lean ====
section
/-! DEFINITION. The two encodings of the spec (30_encoding.md): host command words (R101 to R106) and, on the bus side,
transactions and the device command bytes they carry (R120 to R124). The decoder of a command word is total and rejects by
name; the encoder is written from the same tables. -/

namespace Sys2Proof

open Sys2Proof.Machine

/-- The four assembler pseudo forms (R108). -/
def Instr.isPseudo : Instr → Bool
  | .clear => false
  | .setPixel _ _ => false
  | .line _ _ _ _ => false
  | .rect _ _ _ _ => false
  | .glyph _ _ _ => false
  | .text _ _ _ => false
  | .dither => false
  | .openBus _ => false
  | .init => false
  | .blit => false
  | .close => false
  | .setChunk _ => false
  | .openDefault => true
  | .frame => true
  | .drawGlyph _ _ _ => true
  | .drawText _ _ _ => true
  | .busCmd _ => false
  | .busData _ => false
  | .devPageAddr _ => false
  | .devColLow0 => false
  | .devColHigh0 => false
  | .initSeq0 => false
  | .initSeq1 => false
  | .initSeq2 => false
  | .initSeq3 => false
  | .initSeq4 => false
  | .initSeq5 => false
  | .initSeq6 => false
  | .initSeq7 => false
  | .initSeq8 => false
  | .initSeq9 => false
  | .initSeq10 => false
  | .initSeq11 => false
  | .initSeq12 => false
  | .initSeq13 => false
  | .initSeq14 => false
  | .initSeq15 => false
  | .initSeq16 => false
  | .initSeq17 => false
  | .initSeq18 => false
  | .initSeq19 => false
  | .initSeq20 => false
  | .initSeq21 => false
  | .initSeq22 => false
  | .initSeq23 => false
  | .initSeq24 => false
  | .initSeq25 => false
  | .initSeq26 => false
  | .initSeq27 => false

/-- The rows of the bus side: transactions, device command bytes and entries of the initialization list. -/
def Instr.isBusSide : Instr → Bool
  | .clear => false
  | .setPixel _ _ => false
  | .line _ _ _ _ => false
  | .rect _ _ _ _ => false
  | .glyph _ _ _ => false
  | .text _ _ _ => false
  | .dither => false
  | .openBus _ => false
  | .init => false
  | .blit => false
  | .close => false
  | .setChunk _ => false
  | .openDefault => false
  | .frame => false
  | .drawGlyph _ _ _ => false
  | .drawText _ _ _ => false
  | .busCmd _ => true
  | .busData _ => true
  | .devPageAddr _ => true
  | .devColLow0 => true
  | .devColHigh0 => true
  | .initSeq0 => true
  | .initSeq1 => true
  | .initSeq2 => true
  | .initSeq3 => true
  | .initSeq4 => true
  | .initSeq5 => true
  | .initSeq6 => true
  | .initSeq7 => true
  | .initSeq8 => true
  | .initSeq9 => true
  | .initSeq10 => true
  | .initSeq11 => true
  | .initSeq12 => true
  | .initSeq13 => true
  | .initSeq14 => true
  | .initSeq15 => true
  | .initSeq16 => true
  | .initSeq17 => true
  | .initSeq18 => true
  | .initSeq19 => true
  | .initSeq20 => true
  | .initSeq21 => true
  | .initSeq22 => true
  | .initSeq23 => true
  | .initSeq24 => true
  | .initSeq25 => true
  | .initSeq26 => true
  | .initSeq27 => true

/-- The twelve host commands of R101. -/
def Instr.isCommand (i : Instr) : Bool := !i.isPseudo && !i.isBusSide

/-- What the assembler makes of an instruction: a pseudo form becomes its command (R108), everything else stays. -/
def Instr.expand : Instr → Instr
  | .clear => .clear
  | .setPixel x y => .setPixel x y
  | .line x0 y0 x1 y1 => .line x0 y0 x1 y1
  | .rect x y w h => .rect x y w h
  | .glyph x y ch => .glyph x y ch
  | .text x y str => .text x y str
  | .dither => .dither
  | .openBus addr => .openBus addr
  | .init => .init
  | .blit => .blit
  | .close => .close
  | .setChunk n => .setChunk n
  | .openDefault => .openBus (Config.addrDefault.setWidth 8)
  | .frame => .clear
  | .drawGlyph x y ch => .glyph x y ch
  | .drawText x y str => .text x y str
  | .busCmd c => .busCmd c
  | .busData payload => .busData payload
  | .devPageAddr p => .devPageAddr p
  | .devColLow0 => .devColLow0
  | .devColHigh0 => .devColHigh0
  | .initSeq0 => .initSeq0
  | .initSeq1 => .initSeq1
  | .initSeq2 => .initSeq2
  | .initSeq3 => .initSeq3
  | .initSeq4 => .initSeq4
  | .initSeq5 => .initSeq5
  | .initSeq6 => .initSeq6
  | .initSeq7 => .initSeq7
  | .initSeq8 => .initSeq8
  | .initSeq9 => .initSeq9
  | .initSeq10 => .initSeq10
  | .initSeq11 => .initSeq11
  | .initSeq12 => .initSeq12
  | .initSeq13 => .initSeq13
  | .initSeq14 => .initSeq14
  | .initSeq15 => .initSeq15
  | .initSeq16 => .initSeq16
  | .initSeq17 => .initSeq17
  | .initSeq18 => .initSeq18
  | .initSeq19 => .initSeq19
  | .initSeq20 => .initSeq20
  | .initSeq21 => .initSeq21
  | .initSeq22 => .initSeq22
  | .initSeq23 => .initSeq23
  | .initSeq24 => .initSeq24
  | .initSeq25 => .initSeq25
  | .initSeq26 => .initSeq26
  | .initSeq27 => .initSeq27

/-- The rows of the initialization list in order (R212). -/
def initEntries : Vector Instr 28 :=
  #v[.initSeq0, .initSeq1, .initSeq2, .initSeq3, .initSeq4, .initSeq5, .initSeq6,
     .initSeq7, .initSeq8, .initSeq9, .initSeq10, .initSeq11, .initSeq12, .initSeq13,
     .initSeq14, .initSeq15, .initSeq16, .initSeq17, .initSeq18, .initSeq19, .initSeq20,
     .initSeq21, .initSeq22, .initSeq23, .initSeq24, .initSeq25, .initSeq26, .initSeq27]

/-- The instruction of entry `k` of the initialization list (R212). -/
def Instr.initEntry (k : Fin 28) : Instr := initEntries[k]

/-- The page-address command byte: `1011 0ppp` (R123). -/
def pageAddrByte (p : BitVec 3) : Byte := (0b10110 : BitVec 5) ++ p

/-- The length in bytes of an instruction's word: the table of R101 for a command, R120 and R121 for a transaction. -/
def Instr.length : Instr → Nat
  | .clear => 1
  | .setPixel _ _ => 5
  | .line _ _ _ _ => 9
  | .rect _ _ _ _ => 9
  | .glyph _ _ _ => 6
  | .text _ _ str => 7 + str.length
  | .dither => 1
  | .openBus _ => 2
  | .init => 1
  | .blit => 1
  | .close => 1
  | .setChunk _ => 3
  | .openDefault => 2
  | .frame => 1
  | .drawGlyph _ _ _ => 6
  | .drawText _ _ str => 7 + str.length
  | .busCmd _ => 2
  | .busData payload => 1 + payload.length
  | .devPageAddr _ => 2
  | .devColLow0 => 2
  | .devColHigh0 => 2
  | .initSeq0 => 2
  | .initSeq1 => 2
  | .initSeq2 => 2
  | .initSeq3 => 2
  | .initSeq4 => 2
  | .initSeq5 => 2
  | .initSeq6 => 2
  | .initSeq7 => 2
  | .initSeq8 => 2
  | .initSeq9 => 2
  | .initSeq10 => 2
  | .initSeq11 => 2
  | .initSeq12 => 2
  | .initSeq13 => 2
  | .initSeq14 => 2
  | .initSeq15 => 2
  | .initSeq16 => 2
  | .initSeq17 => 2
  | .initSeq18 => 2
  | .initSeq19 => 2
  | .initSeq20 => 2
  | .initSeq21 => 2
  | .initSeq22 => 2
  | .initSeq23 => 2
  | .initSeq24 => 2
  | .initSeq25 => 2
  | .initSeq26 => 2
  | .initSeq27 => 2

/-- The bytes of an instruction: the command word (R101, R103, R104), or the bus transaction that carries it (R120, R121,
R123, R212 with the default list). -/
def Instr.encode : Instr → List Byte
  | .clear => [0x01]
  | .setPixel x y => 0x02 :: (s16Bytes x ++ s16Bytes y)
  | .line x0 y0 x1 y1 => 0x03 :: (s16Bytes x0 ++ s16Bytes y0 ++ s16Bytes x1 ++ s16Bytes y1)
  | .rect x y w h => 0x04 :: (s16Bytes x ++ s16Bytes y ++ s16Bytes w ++ s16Bytes h)
  | .glyph x y ch => 0x05 :: (s16Bytes x ++ s16Bytes y ++ [ch])
  | .text x y str => 0x06 :: (s16Bytes x ++ s16Bytes y ++ u16Bytes (BitVec.ofNat 16 str.length) ++ str)
  | .dither => [0x10]
  | .openBus addr => [0x20, addr]
  | .init => [0x21]
  | .blit => [0x22]
  | .close => [0x23]
  | .setChunk n => 0x24 :: u16Bytes n
  | .openDefault => [0x20, Config.addrDefault.setWidth 8]
  | .frame => [0x01]
  | .drawGlyph x y ch => 0x05 :: (s16Bytes x ++ s16Bytes y ++ [ch])
  | .drawText x y str => 0x06 :: (s16Bytes x ++ s16Bytes y ++ u16Bytes (BitVec.ofNat 16 str.length) ++ str)
  | .busCmd c => [0x00, c]
  | .busData payload => 0x40 :: payload
  | .devPageAddr p => [0x00, pageAddrByte p]
  | .devColLow0 => [0x00, 0x00]
  | .devColHigh0 => [0x00, 0x10]
  | .initSeq0 => [0x00, defaultInitSeq[0]]
  | .initSeq1 => [0x00, defaultInitSeq[1]]
  | .initSeq2 => [0x00, defaultInitSeq[2]]
  | .initSeq3 => [0x00, defaultInitSeq[3]]
  | .initSeq4 => [0x00, defaultInitSeq[4]]
  | .initSeq5 => [0x00, defaultInitSeq[5]]
  | .initSeq6 => [0x00, defaultInitSeq[6]]
  | .initSeq7 => [0x00, defaultInitSeq[7]]
  | .initSeq8 => [0x00, defaultInitSeq[8]]
  | .initSeq9 => [0x00, defaultInitSeq[9]]
  | .initSeq10 => [0x00, defaultInitSeq[10]]
  | .initSeq11 => [0x00, defaultInitSeq[11]]
  | .initSeq12 => [0x00, defaultInitSeq[12]]
  | .initSeq13 => [0x00, defaultInitSeq[13]]
  | .initSeq14 => [0x00, defaultInitSeq[14]]
  | .initSeq15 => [0x00, defaultInitSeq[15]]
  | .initSeq16 => [0x00, defaultInitSeq[16]]
  | .initSeq17 => [0x00, defaultInitSeq[17]]
  | .initSeq18 => [0x00, defaultInitSeq[18]]
  | .initSeq19 => [0x00, defaultInitSeq[19]]
  | .initSeq20 => [0x00, defaultInitSeq[20]]
  | .initSeq21 => [0x00, defaultInitSeq[21]]
  | .initSeq22 => [0x00, defaultInitSeq[22]]
  | .initSeq23 => [0x00, defaultInitSeq[23]]
  | .initSeq24 => [0x00, defaultInitSeq[24]]
  | .initSeq25 => [0x00, defaultInitSeq[25]]
  | .initSeq26 => [0x00, defaultInitSeq[26]]
  | .initSeq27 => [0x00, defaultInitSeq[27]]

/-- Why a command word is illegal (R106). -/
inductive DecodeError where
  /-- No operation has this opcode byte (R106 a). -/
  | unassignedOpcode (op : Byte)
  /-- OPEN with bit 7 of the address set (R106 b). -/
  | addressBit7
  /-- SETCHUNK with n = 0 (R106 c). -/
  | chunkZero
  /-- The word is shorter than its format requires, the empty word included (R106 d). -/
  | truncated
  /-- The word is longer than its encoding (R101, R255; log 5). -/
  | overlong
  deriving DecidableEq, Repr

/-- What reading a word gives: an instruction and the bytes after it, or the reason it is illegal. -/
abbrev Decoded := Except DecodeError (Instr × List Byte)

/-- Format F2: two s16 operands (R103). -/
def decodeF2 (mk : Int → Int → Instr) : List Byte → Decoded
  | x0 :: x1 :: y0 :: y1 :: r => .ok (mk (s16 x0 x1) (s16 y0 y1), r)
  | _ => .error .truncated

/-- Format F4: four s16 operands (R103). -/
def decodeF4 (mk : Int → Int → Int → Int → Instr) : List Byte → Decoded
  | a0 :: a1 :: b0 :: b1 :: c0 :: c1 :: d0 :: d1 :: r => .ok (mk (s16 a0 a1) (s16 b0 b1) (s16 c0 c1) (s16 d0 d1), r)
  | _ => .error .truncated

/-- Format FG: two s16 operands and a character code (R103). -/
def decodeFG (mk : Int → Int → Byte → Instr) : List Byte → Decoded
  | x0 :: x1 :: y0 :: y1 :: ch :: r => .ok (mk (s16 x0 x1) (s16 y0 y1) ch, r)
  | _ => .error .truncated

/-- Format FT: two s16 operands, a length `n`, and `n` character codes (R103, R105). -/
def decodeFT (mk : Int → Int → List Byte → Instr) : List Byte → Decoded
  | x0 :: x1 :: y0 :: y1 :: n0 :: n1 :: r =>
    if r.length < (u16 n0 n1).toNat then .error .truncated
    else .ok (mk (s16 x0 x1) (s16 y0 y1) (r.take (u16 n0 n1).toNat), r.drop (u16 n0 n1).toNat)
  | _ => .error .truncated

/-- Format FA: an address byte whose bit 7 must be 0 (R103, R106 b). -/
def decodeFA (mk : Byte → Instr) : List Byte → Decoded
  | a :: r => if addrBit7 a then .error .addressBit7 else .ok (mk a, r)
  | _ => .error .truncated

/-- Format FN: a u16 operand that must not be 0 (R103, R106 c). -/
def decodeFN (mk : Half → Instr) : List Byte → Decoded
  | n0 :: n1 :: r => if u16 n0 n1 = 0 then .error .chunkZero else .ok (mk (u16 n0 n1), r)
  | _ => .error .truncated

/-- Read one command from the front of a byte string: the opcode byte, then the operands of its format (R101, R105). -/
def decodeFront : List Byte → Decoded
  | [] => .error .truncated
  | op :: r =>
    if op = 0x01 then .ok (.clear, r)
    else if op = 0x02 then decodeF2 .setPixel r
    else if op = 0x03 then decodeF4 .line r
    else if op = 0x04 then decodeF4 .rect r
    else if op = 0x05 then decodeFG .glyph r
    else if op = 0x06 then decodeFT .text r
    else if op = 0x10 then .ok (.dither, r)
    else if op = 0x20 then decodeFA .openBus r
    else if op = 0x21 then .ok (.init, r)
    else if op = 0x22 then .ok (.blit, r)
    else if op = 0x23 then .ok (.close, r)
    else if op = 0x24 then decodeFN .setChunk r
    else .error (.unassignedOpcode op)

/-- Decode a command word: one command and nothing after it (R101, R106; log 5). -/
def decode (word : List Byte) : Except DecodeError Instr :=
  match decodeFront word with
  | .error e => .error e
  | .ok (i, []) => .ok i
  | .ok (_, _ :: _) => .error .overlong

/-- Decode a bus transaction as a device-side decoder does: the first byte tells a command from pixel data (R122), the
formats are those of R120 and R121. -/
def decodeBus : List Byte → Option Instr
  | [] => none
  | ctrl :: r =>
    if ctrl = Config.cmdCtrl then
      match r with
      | [c] => some (.busCmd c)
      | _ => none
    else if ctrl = Config.dataCtrl then
      if 1 ≤ r.length ∧ r.length ≤ 128 then some (.busData r) else none
    else none

/-- The position in the default initialization list of the first entry equal to `c`, entry 9 left out. INIT_CONTRAST is open (R124,
R212), so a byte equal to it can not be told: DESIGN CHOICE (log 3), no byte is read back as entry 9. -/
def defaultInitIndex (c : Byte) : Option (Fin 28) :=
  (List.finRange 28).find? fun k => decide (k ≠ 9) && decide (defaultInitSeq[k] = c)

/-- The name the table gives to a device command byte: a per-page select byte (R123), else an entry of the default
initialization list (R212). -/
def decodeDeviceByte (c : Byte) : Option Instr :=
  if 0xB0 ≤ c.toNat ∧ c.toNat ≤ 0xB7 then some (.devPageAddr (c.extractLsb' 0 3))
  else if c = 0x00 then some .devColLow0
  else if c = 0x10 then some .devColHigh0
  else (defaultInitIndex c).map Instr.initEntry

/-- The bytes of a table word: byte 0 from bits 7..0, byte 1 from bits 15..8, and so on, `nbits` bits in all. -/
def tableBytes (nbits w : Nat) : List Byte :=
  (List.range ((nbits + 7) / 8)).map fun k => BitVec.ofNat 8 ((w % 2 ^ nbits) / 2 ^ (8 * k))

/-- How many bytes a command word has that begins with these bytes, missing ones read as 0 (R101, R105). -/
def wordLength (b : List Byte) : Nat :=
  let op := b.getD 0 0
  if op = 0x02 then 5
  else if op = 0x03 then 9
  else if op = 0x04 then 9
  else if op = 0x05 then 6
  else if op = 0x06 then 7 + (u16 (b.getD 5 0) (b.getD 6 0)).toNat
  else if op = 0x20 then 2
  else if op = 0x24 then 3
  else 1

/-- The command word of a table word: its bytes, then bytes of zeros up to the length its opcode gives it. -/
def tableCommandWord (nbits w : Nat) : List Byte :=
  let b := tableBytes nbits w
  b ++ List.replicate (wordLength b - b.length) 0

/-- A table word of the bus side: a device command byte where the row has one byte, a transaction where it has more; the
control byte of a data transaction alone takes one payload byte of zero. -/
def decodeTableBusSide (nbits w : Nat) : Option Instr :=
  match tableBytes nbits w with
  | [c] => if c = Config.dataCtrl then decodeBus [c, 0x00] else decodeDeviceByte c
  | b => decodeBus b

/-- The instruction this decoder reads from a word of spec/opcode_table.json. The table has rows of two encodings that do not
share a space: a word is read as a host command word first, and one that is illegal there on the bus side (log 3). -/
def decodeTableWord (nbits w : Nat) : Option Instr :=
  match decode (tableCommandWord nbits w) with
  | .ok i => some i
  | .error _ => decodeTableBusSide nbits w

end Sys2Proof
end

