-- ==== Sys2Proof/Machine/State.lean ====
section
/-! DEFINITION. The state of the block as plain data (10_state.md), with the queues through which the host and the bus reach
it and the reference device behind the bus; the reasons a step can stop; the state after reset. -/

namespace Sys2Proof.Machine

/-- `CSR.TS`, the transport state (R31). -/
inductive TransportState where
  /-- 0: no bus handle is bound. -/
  | closed
  /-- 1: a handle is bound, the display has not been initialized through it. -/
  | uninitialized
  /-- 2: a handle is bound and the whole initialization list has been acknowledged. -/
  | initialized
  /-- 3: a BLIT is in progress. -/
  | streaming
  deriving DecidableEq, Repr

/-- How a command ends (60_exceptions.md R250). -/
inductive Result where
  | ok
  | deviceUnavailable
  | initFailed
  | transferFailed
  | dimensionMismatch
  | invalidState
  | illegalCommand
  deriving DecidableEq, Repr

/-- The BLIT phase `ph` (R41): which transaction of a page is next. -/
inductive Phase where
  /-- 0: the page-address command. -/
  | pageAddress
  /-- 1: the column-address-low command. -/
  | columnLow
  /-- 2: the column-address-high command. -/
  | columnHigh
  /-- 3: a data transaction. -/
  | data
  deriving DecidableEq, Repr

/-- The hidden sequencer positions (R41). -/
structure SeqPos where
  /-- The number of initialization transactions already acknowledged, 0 to 28. -/
  ip : Nat
  /-- The page of the BLIT, 0 to 7. -/
  bp : Nat
  /-- The phase of the BLIT. -/
  ph : Phase
  /-- The column offset of the next data byte of the page. -/
  off : Nat
  deriving DecidableEq, Repr

/-- The positions where a command starts, and outside every command (R41). -/
def SeqPos.start : SeqPos := { ip := 0, bp := 0, ph := .pageAddress, off := 0 }

/-- A memory of bytes: the bytes written, with strictly rising addresses. An address that is not listed has not been written
since its contents last became unknown (log 7). -/
abbrev Memory := List Host.Cell

/-- The answer of the bus layer to a `BusOpen` or a `BusWrite` (20_memory.md R72). -/
inductive BusAnswer where
  | ok
  | fail
  deriving DecidableEq, Repr

/-- One thing that happened at the bus port, in order, with its answer (00_scope.md R17, R18). -/
inductive BusEvent where
  /-- `BusOpen(addr)`. -/
  | opened (addr : BitVec 7) (answer : BusAnswer)
  /-- A transaction carrying exactly these bytes. -/
  | wrote (bytes : List Byte) (answer : BusAnswer)
  /-- `BusClose()`. -/
  | closed
  deriving DecidableEq, Repr

/-- The reference device behind the bus (42_transport.md R232); not part of the block (R42). -/
structure Device where
  /-- `DEV[8][128]`, byte `p × 128 + x`. -/
  mem : Memory
  /-- Which draw of unknown contents an unlisted byte of `mem` belongs to (log 12). -/
  memDraw : Nat
  /-- `dpage`. -/
  page : BitVec 3
  /-- `dcol`. -/
  col : BitVec 7
  /-- The model's own counter of unknown draws (log 12). -/
  draws : Nat
  deriving DecidableEq, Repr

/-- The six spaces of the block, each selected by name (20_memory.md R60). -/
inductive Space where
  | fb
  | img
  | font
  | bayer
  | initSeq
  | csr
  deriving DecidableEq, Repr

/-- One move from outside, at the boundary between two commands (R21, R38, R45). -/
inductive HostInput where
  /-- The host presents a command word (R23, R100). -/
  | command (word : List Byte)
  /-- An instruction given by name and operand values: an abstract command (R100), a pseudo form (R108), or an acknowledged
  transaction of the bus side (log 3). -/
  | abstract (i : Instr)
  /-- The host writes a register (R38). -/
  | writeCsr (n : BitVec 3) (v : Half)
  /-- The host writes a byte of the image buffer (R38). -/
  | writeImg (a : BitVec 15) (v : Byte)
  /-- Reset (R45, R290). -/
  | reset
  deriving DecidableEq, Repr

/-- The sample of one pixel: red, green, blue, alpha (20_memory.md R62). -/
structure Sample where
  r : Byte
  g : Byte
  b : Byte
  a : Byte
  deriving DecidableEq, Repr

/-- Everything the spec gives the machine, and the queues of its environment. -/
structure State where
  /-- `CSR.TS` (R31). -/
  ts : TransportState
  /-- `CSR.ADDR` (R32). -/
  addr : BitVec 7
  /-- `CSR.CHUNK_LIMIT` (R33). -/
  chunkLimit : Half
  /-- `CSR.LASTERR` (R34). -/
  lastErr : Result
  /-- `CSR.ERRLOG` (R35), bits 6:1; the others read as 0. -/
  errLog : Half
  /-- `CSR.IMG_W` (R36). -/
  imgW : Half
  /-- `CSR.IMG_H` (R36). -/
  imgH : Half
  /-- `CSR.IMG_FMT` bit 0 (R37). -/
  imgFmt : BitVec 1
  /-- The framebuffer `FB`, byte `p × 128 + x` (R24, R61). -/
  fb : Memory
  /-- The image buffer `IMG` (R62). -/
  img : Memory
  /-- The read-only table `FONT`, byte `g × 5 + c` (R27, R63). -/
  font : Memory
  /-- The read-only table `BAYER`, cell `r × 4 + c` (R28, R63). -/
  bayer : Vector (BitVec 4) 16
  /-- The read-only table `INIT_SEQ` (R29, R63). -/
  initSeq : Vector Byte 28
  /-- The hidden positions of INIT and BLIT (R41). -/
  seq : SeqPos
  /-- What happened at the bus port so far, oldest first (R18). -/
  busLog : List BusEvent
  /-- The reference device (R232). -/
  dev : Device
  /-- The moves of the host that are pending, next first (R21). -/
  inputs : List HostInput
  /-- The answers of the bus that the environment has fixed, next first; `none` is a call that is never answered (R72, U9). -/
  replies : List (Option BusAnswer)
  /-- The model's own counter of free bus answers drawn after `replies` (log 10). -/
  replyDraws : Nat
  /-- The model's own count of reset events, which names the free power-on values (log 6). -/
  resets : Nat
  deriving DecidableEq, Repr

/-- Why the machine stops. -/
inductive Fault where
  /-- OPEN, INIT or BLIT made a bus call that the environment never answers: the command never ends and no later command is
  accepted (U9 `stuck`, R305; log 13). SAFE: the machine has no further step. -/
  | busNeverAnswers
  /-- BLIT with a chunk limit of 0: "a data transaction with no payload could never finish a page" (R106 c). SETCHUNK can not
  store 0 (R33), so only a state that no run reaches raises it (log 14). SAFE. -/
  | chunkLimitZero
  deriving DecidableEq, Repr

/-- Why the model gives no meaning. -/
inductive Refusal where
  /-- An instruction that has no meaning in this model yet. SAFE. No arm of exec raises it. -/
  | notModelled (mnemonic : String)
  /-- What the host asks for can not be expressed: an instruction whose operands no word can carry (U16 `refuse`; R102, R103,
  R121), raised in fetching the input; or a read at an index outside a space, or of a table (R38, R68 "a model refuses it"),
  raised by hostRead (log 16). SAFE: no access or instruction of the machine is meant. Never raised by exec. -/
  | notExpressible
  deriving DecidableEq, Repr

/-- What one step has to do, as `fetch` finds it in the host's queue. -/
inductive Fetched where
  /-- Nothing is presented: the block is idle (R275). -/
  | idle
  /-- Run this instruction, in this state. -/
  | run (i : Instr) (s : State)
  /-- The move is complete, with this state. -/
  | done (s : State)
  /-- The move has no meaning. -/
  | refuse (r : Refusal)
  deriving DecidableEq, Repr

/-- The state right after reset (R44). What R44 leaves unspecified is a free value of Config or an unlisted byte. -/
def State.reset : State where
  ts := .closed
  addr := Config.resetAddr 0
  chunkLimit := Config.chunkDefault
  lastErr := .ok
  errLog := 0
  imgW := Config.resetImgW 0
  imgH := Config.resetImgH 0
  imgFmt := Config.resetImgFmt 0
  fb := []
  img := []
  font := []
  bayer := defaultBayer
  initSeq := defaultInitSeq
  seq := .start
  busLog := []
  dev := { mem := [], memDraw := 0, page := Config.devPage 0, col := Config.devCol 0, draws := 1 }
  inputs := []
  replies := []
  replyDraws := 0
  resets := 0

end Sys2Proof.Machine
end

