-- ==== Sys2Proof/Machine/Flags.lean ====
section
/-! DEFINITION. The status a command leaves, and the registers as the host reads them. The block has no condition codes
(10_state.md R39): its whole status is the result code in LASTERR and the sticky bit in ERRLOG. -/

namespace Sys2Proof.Machine

/-- The number of a result (R250). -/
def Result.code : Result → Nat
  | .ok => 0
  | .deviceUnavailable => 1
  | .initFailed => 2
  | .transferFailed => 3
  | .dimensionMismatch => 4
  | .invalidState => 5
  | .illegalCommand => 6

/-- The number of a transport state (R31). -/
def TransportState.code : TransportState → Nat
  | .closed => 0
  | .uninitialized => 1
  | .initialized => 2
  | .streaming => 3

/-- The number of a BLIT phase (R41). -/
def Phase.code : Phase → Nat
  | .pageAddress => 0
  | .columnLow => 1
  | .columnHigh => 2
  | .data => 3

/-- The error record with the bit of this result set (R35, R262). -/
def stickyBit (log : Half) (r : Result) : Half := log ||| BitVec.twoPow 16 r.code

/-- The bits of ERRLOG that are in use, [6:1] (R30). -/
def errLogMask : Half := 0x007E

/-- The host's read of register `n` (R30, R38): 16 bits, unused bits 0. No read has a side effect (R69). -/
def csrRead (s : State) (n : BitVec 3) : Half :=
  if n = 0 then BitVec.ofNat 16 s.ts.code
  else if n = 1 then s.addr.setWidth 16
  else if n = 2 then s.chunkLimit
  else if n = 3 then BitVec.ofNat 16 s.lastErr.code
  else if n = 4 then s.errLog
  else if n = 5 then s.imgW
  else if n = 6 then s.imgH
  else s.imgFmt.setWidth 16

/-- The host's write of register `n` (R30, R38): only the three image registers take a value, and of IMG_FMT only bit 0; a
write to a read-only register or a reserved bit has no effect. -/
def csrWrite (s : State) (n : BitVec 3) (v : Half) : State :=
  if n = 5 then { s with imgW := v }
  else if n = 6 then { s with imgH := v }
  else if n = 7 then { s with imgFmt := v.setWidth 1 }
  else s

end Sys2Proof.Machine
end

