-- ==== Sys2Proof/Machine/Ops.lean ====
section
/-! DEFINITION. The shared operations of the machine: reading and writing memories, the primitive plot, ending a command with
Ok or with an error, the bus port, the reference device, and the moves of the host. -/

namespace Sys2Proof.Machine

/-! ### Memories (20_memory.md R60, R66): byte arrays read and written one byte at a time. -/

/-- The byte written at `a`, if one is listed. -/
def Memory.lookup : Memory → Nat → Option Byte
  | [], _ => none
  | (b, v) :: m, a => if a = b then some v else Memory.lookup m a

/-- Write the byte `v` at `a`, keeping addresses strictly rising. -/
def Memory.write : Memory → Nat → Byte → Memory
  | [], a, v => [(a, v)]
  | (b, w) :: m, a, v =>
    if a < b then (a, v) :: (b, w) :: m
    else if a = b then (a, v) :: m
    else (b, w) :: Memory.write m a v

/-- Strictly rising addresses, each at least `lo` and below `size`. -/
def Memory.wfFrom (size : Nat) : Nat → Memory → Bool
  | _, [] => true
  | lo, (a, _) :: m => decide (lo ≤ a) && decide (a < size) && Memory.wfFrom size (a + 1) m

/-- The canonical form of a memory of `size` bytes (log 7). -/
def Memory.wf (size : Nat) (m : Memory) : Bool := Memory.wfFrom size 0 m

/-- A memory whose first `n` bytes all hold `v`. -/
def Memory.filled (n : Nat) (v : Byte) : Memory := (List.range n).map fun a => (a, v)

/-- Read a byte of a memory over the contents `base` of what nothing has written. -/
def Memory.read (base : Nat → Byte) (m : Memory) (a : Nat) : Byte := (m.lookup a).getD (base a)

/-- The framebuffer byte at linear address `a` (R61). No command forms an address of 1024 or more (R68); the host reads through
hostRead, which refuses one. -/
def State.fbByte (s : State) (a : Nat) : Byte := s.fb.read (Config.powerOnFb s.resets) a

/-- The image buffer byte at address `a` (R62). DITHER forms no address of 32768 or more (R68); the host reads through hostRead,
which refuses one. -/
def State.imgByte (s : State) (a : Nat) : Byte := s.img.read (Config.powerOnImg s.resets) a

/-- `FONT[g][c]` (R63). -/
def State.fontByte (s : State) (g c : Nat) : Byte := s.font.read Config.font (g * 5 + c)

/-- `BAYER[r][c]`, its indices reduced mod 4 (R28, R68). -/
def State.bayerCell (s : State) (r c : Nat) : Nat :=
  (s.bayer[(r % 4) * 4 + c % 4]'(by omega)).toNat

/-- `INIT_SEQ[i]` (R63). -/
def State.initByte (s : State) (i : Nat) : Byte := s.initSeq.toList.getD i 0

/-- `DEV[p][x]` of the reference device, at address `p × 128 + x` (R232). -/
def Device.byte (d : Device) (a : Nat) : Byte := d.mem.read (Config.devByte d.memDraw) a

/-! ### Pixels (R24, R25, R142). -/

/-- The pixel `(x, y)` is on the display: `0 ≤ x < W` and `0 ≤ y < H` (R15). -/
def onDisplay (q : Point) : Bool :=
  decide (0 ≤ q.1) && decide (q.1 < Config.width) && decide (0 ≤ q.2) && decide (q.2 < Config.height)

/-- The framebuffer address of the byte that holds a pixel on the display: page `y / 8`, column `x` (R24, R61, R110). -/
def pixelAddr (q : Point) : Nat := q.2.toNat / 8 * Config.width + q.1.toNat

/-- The bit of that byte: `y mod 8` (R24). -/
def pixelBit (q : Point) : Nat := q.2.toNat % 8

/-- The primitive plot: set the pixel's bit and no other; off the display, nothing (R142). -/
def Memory.plot (base : Nat → Byte) (m : Memory) (q : Point) : Memory :=
  if onDisplay q then
    m.write (pixelAddr q) (m.read base (pixelAddr q) ||| BitVec.twoPow 8 (pixelBit q))
  else m

/-- Plot the points of a list, first to last. -/
def Memory.plotAll (base : Nat → Byte) (m : Memory) (ps : List Point) : Memory := ps.foldl (Memory.plot base) m

/-- Plot the points of a list on the framebuffer. -/
def State.drawn (s : State) (ps : List Point) : State :=
  { s with fb := s.fb.plotAll (Config.powerOnFb s.resets) ps }

/-- `getPixel(FB, x, y)` for a pixel on the display (R25). Off the display R25 does not define it. DESIGN CHOICE (log 19): the
function is total, and off the display it answers the bit that the same address arithmetic gives, a negative coordinate
counting as 0; no claim reads a pixel off the display. -/
def State.getPixel (s : State) (q : Point) : Bool := (s.fbByte (pixelAddr q)).getLsbD (pixelBit q)

/-! ### How a command ends (60_exceptions.md R262, R264). -/

/-- `return Ok`: LASTERR takes code 0 and ERRLOG keeps its history (R34, R39, R264). -/
def endOk (s : State) : State := { s with lastErr := .ok }

/-- `raise <Kind>`: the command stops here, LASTERR takes the kind's code and its bit of ERRLOG is set; what the command has
already changed stays (R262). -/
def raise (r : Result) (s : State) : State := { s with lastErr := r, errLog := stickyBit s.errLog r }

/-! ### The reference device (42_transport.md R232). -/

/-- The device when its whole state has become unknown (R73, U3): a fresh draw. -/
def Device.lost (d : Device) : Device :=
  { mem := [], memDraw := d.draws, page := Config.devPage d.draws, col := Config.devCol d.draws, draws := d.draws + 1 }

/-- An acknowledged command byte (R232). -/
def Device.command (d : Device) (c : Byte) : Device :=
  if 0xB0 ≤ c.toNat ∧ c.toNat ≤ 0xB7 then { d with page := BitVec.ofNat 3 (c.toNat - 0xB0) }
  else if c = 0x00 then { d with col := d.col &&& 0b1110000 }
  else if c = 0x10 then { d with col := d.col &&& 0b0001111 }
  else d

/-- One acknowledged data byte: `DEV[dpage][dcol] <- v`, then the column moves on by one (R232). Where the pointers stand after
column 127 is not stated: free values (U7, N21; log 12). -/
def Device.putByte (d : Device) (v : Byte) : Device :=
  let written := d.mem.write (d.page.toNat * Config.width + d.col.toNat) v
  if d.col = 127 then
    { d with mem := written, page := Config.devPage d.draws, col := Config.devCol d.draws, draws := d.draws + 1 }
  else { d with mem := written, col := d.col + 1 }

/-- An acknowledged transaction: the first byte tells a command from pixel data (R122, R232). The block sends no other form. -/
def Device.receive (d : Device) : List Byte → Device
  | [] => d
  | ctrl :: body =>
    if ctrl = Config.cmdCtrl then
      match body with
      | [c] => d.command c
      | _ => d
    else if ctrl = Config.dataCtrl then body.foldl Device.putByte d
    else d

/-! ### The bus port (00_scope.md R17, 20_memory.md R72, R73, R76). -/

/-- The free answer number `k` of the bus, after those the environment has fixed. -/
def freeAnswer (k : Nat) : BusAnswer := if Config.busAnswer k then .ok else .fail

/-- The answer to the `k`-th bus call from now on, `none` if it is never answered (R72, U9; log 10). -/
def State.answerAt (s : State) (k : Nat) : Option BusAnswer :=
  match s.replies[k]? with
  | some r => r
  | none => some (freeAnswer (s.replyDraws + (k - s.replies.length)))

/-- The state with the next bus answer taken. -/
def State.answerTaken (s : State) : State :=
  { s with
    replies := s.replies.tail
    replyDraws := if s.replies.isEmpty then s.replyDraws + 1 else s.replyDraws }

/-- `BusOpen(a)` answered: the event is recorded (R17). -/
def busOpened (a : BitVec 7) (ans : BusAnswer) (s : State) : State :=
  { s.answerTaken with busLog := s.busLog ++ [.opened a ans] }

/-- `BusWrite(bytes)` answered: the transaction is recorded; the device received exactly these bytes when the answer is ok, and
its state is unknown when the answer is fail (R17, R73, R232). -/
def busWritten (bytes : List Byte) (ans : BusAnswer) (s : State) : State :=
  { s.answerTaken with
    busLog := s.busLog ++ [.wrote bytes ans]
    dev := match ans with
      | .ok => s.dev.receive bytes
      | .fail => s.dev.lost }

/-- `BusClose()`: the handle is released, nothing is sent (R17, R235). -/
def busClosed (s : State) : State := { s with busLog := s.busLog ++ [.closed] }

/-- An acknowledged transaction on the bus, as the bus side sees it: recorded, and received by the device (R73, R232). -/
def busDelivered (bytes : List Byte) (s : State) : State :=
  { s with busLog := s.busLog ++ [.wrote bytes .ok], dev := s.dev.receive bytes }

/-- `emit_cmd(c)`: the command transaction `[0x00, c]` (R17, R120). -/
def cmdTransaction (c : Byte) : List Byte := [Config.cmdCtrl, c]

/-- `emit_data(s)`: the data transaction `[0x40] ++ s` (R17, R121). -/
def dataTransaction (payload : List Byte) : List Byte := Config.dataCtrl :: payload

/-! ### The moves of the host (10_state.md R21, R38, R45). -/

/-- The host's read of index `i` of a space (R38): a byte of FB or IMG, or a register; no read has a side effect (R69). An index
outside the space is not expressible, and the tables are not readable: refused (R38, R68; log 16). -/
def hostRead (s : State) (sp : Space) (i : Nat) : Except Refusal Half :=
  match sp with
  | .fb => if i < Config.fbSize then .ok ((s.fbByte i).setWidth 16) else .error .notExpressible
  | .img => if i < Config.imgSize then .ok ((s.imgByte i).setWidth 16) else .error .notExpressible
  | .csr => if i < 8 then .ok (csrRead s (BitVec.ofNat 3 i)) else .error .notExpressible
  | .font => .error .notExpressible
  | .bayer => .error .notExpressible
  | .initSeq => .error .notExpressible

/-- The reset event: the block's state is that of R44, every unspecified part a fresh draw; a bound handle is released without
a transaction (R45). The tables, the device and the queues are not the block's to reset (R44; log 15). -/
def resetEvent (s : State) : State :=
  { s with
    ts := .closed
    addr := Config.resetAddr (s.resets + 1)
    chunkLimit := Config.chunkDefault
    lastErr := .ok
    errLog := 0
    imgW := Config.resetImgW (s.resets + 1)
    imgH := Config.resetImgH (s.resets + 1)
    imgFmt := Config.resetImgFmt (s.resets + 1)
    fb := []
    img := []
    seq := .start
    busLog := if s.ts = .closed then s.busLog else s.busLog ++ [.closed]
    resets := s.resets + 1 }

/-- The host writes one byte of the image buffer (R38). -/
def imgWrite (s : State) (a : BitVec 15) (v : Byte) : State := { s with img := s.img.write a.toNat v }

end Sys2Proof.Machine
end

