-- ==== Sys2Proof/Machine/Framebuffer.lean ====
section
/-! DEFINITION. The six commands of the Framebuffer unit (40_framebuffer.md) and their pseudo forms (30_encoding.md R108).
Each drawing command is the list of points it plots; they cannot fail and do no I/O (R140). -/

namespace Sys2Proof.Machine

/-- What an instruction answers: a next state, a fault or a refusal. -/
abbrev Answer := Host.Outcome State Fault Refusal

/-- A drawing command: plot the points, end with Ok (R140). -/
def drawOk (ps : List Point) (s : State) : State := endOk (s.drawn ps)

/-! ### CLEAR (R141) -/

/-- Zero all bytes of the framebuffer and end with Ok (R141). -/
def cleared (s : State) : State := endOk { s with fb := Memory.filled Config.fbSize 0 }

/-- CLEAR (R141). -/
def execClear (s : State) : Answer := .next (cleared s)

/-- FRAME expands to CLEAR (R108 b). -/
def execFrame (s : State) : Answer := .next (cleared s)

/-! ### SETPIXEL (R145) -/

/-- SETPIXEL x, y (R145). -/
def execSetPixel (x y : Int) (s : State) : Answer := .next (drawOk [(x, y)] s)

/-! ### LINE (R150) -/

/-- The loop of R150, at the point `(x, y)` with error term `err`, for at most `n` points. -/
def linePointsFrom (dx dy sx sy x1 y1 : Int) : Nat → Int → Int → Int → List Point
  | 0, _, _, _ => []
  | n + 1, x, y, err =>
    (x, y) ::
      if x = x1 ∧ y = y1 then []
      else
        let e2 := 2 * err
        let errX := if e2 ≥ dy then err + dy else err
        let x' := if e2 ≥ dy then x + sx else x
        let errY := if e2 ≤ dx then errX + dx else errX
        let y' := if e2 ≤ dx then y + sy else y
        linePointsFrom dx dy sx sy x1 y1 n x' y' errY

/-- The points of LINE x0, y0, x1, y1 in the order plotted (R150); at most 65536 (R311). -/
def linePoints (x0 y0 x1 y1 : Int) : List Point :=
  let dx : Int := (x1 - x0).natAbs
  let dy : Int := -((y1 - y0).natAbs : Int)
  let sx : Int := if x0 < x1 then 1 else -1
  let sy : Int := if y0 < y1 then 1 else -1
  linePointsFrom dx dy sx sy x1 y1 65536 x0 y0 (dx + dy)

/-- LINE x0, y0, x1, y1 (R150). -/
def execLine (x0 y0 x1 y1 : Int) (s : State) : Answer := .next (drawOk (linePoints x0 y0 x1 y1) s)

/-! ### RECT (R155) -/

/-- The horizontal span of `n` points from `(x, y)` to the right. -/
def rowSpan (x y : Int) (n : Nat) : List Point := (List.range n).map fun (i : Nat) => (x + (i : Int), y)

/-- The vertical span of `n` points from `(x, y)` down. -/
def colSpan (x y : Int) (n : Nat) : List Point := (List.range n).map fun (j : Nat) => (x, y + (j : Int))

/-- The points of RECT x, y, w, h: top, bottom, left and right edge, each in full; none when `w ≤ 0` or `h ≤ 0` (R155). -/
def rectPoints (x y w h : Int) : List Point :=
  if w ≤ 0 ∨ h ≤ 0 then []
  else rowSpan x y w.toNat ++ rowSpan x (y + h - 1) w.toNat ++ colSpan x y h.toNat ++ colSpan (x + w - 1) y h.toNat

/-- RECT x, y, w, h (R155). -/
def execRect (x y w h : Int) (s : State) : Answer := .next (drawOk (rectPoints x y w h) s)

/-! ### GLYPH (R160) -/

/-- `FONT[ch − 32][c][r] = 1` (R126, R160). -/
def State.glyphBit (s : State) (ch : Byte) (c r : Nat) : Bool :=
  (s.fontByte (ch.toNat - Config.firstChar) c).getLsbD r

/-- The points of blitGlyph(x, y, ch): the on bits of the glyph, none for a code outside 32 to 127 (R160). -/
def glyphPoints (s : State) (x y : Int) (ch : Byte) : List Point :=
  if Config.firstChar ≤ ch.toNat ∧ ch.toNat ≤ Config.lastChar then
    (List.range Config.glyphCols).flatMap fun (c : Nat) =>
      (List.range Config.glyphRows).filterMap fun (r : Nat) =>
        if s.glyphBit ch c r then some (x + (c : Int), y + (r : Int)) else none
  else []

/-- GLYPH x, y, ch (R160). -/
def execGlyph (x y : Int) (ch : Byte) (s : State) : Answer := .next (drawOk (glyphPoints s x y ch) s)

/-- DRAWGLYPH is GLYPH (R108 c). -/
def execDrawGlyph (x y : Int) (ch : Byte) (s : State) : Answer := .next (drawOk (glyphPoints s x y ch) s)

/-! ### TEXT (R165) -/

/-- The newline code (R165). -/
def newline : Byte := 10

/-- The points of a string drawn at the cursor `(cx, cy)`, newlines going back to the column `x` (R165). -/
def textPoints (s : State) (x : Int) : Int → Int → List Byte → List Point
  | _, _, [] => []
  | cx, cy, ch :: str =>
    if ch = newline then textPoints s x x (cy + Config.advanceY) str
    else glyphPoints s cx cy ch ++ textPoints s x (cx + Config.advanceX) cy str

/-- TEXT x, y, s (R165). -/
def execText (x y : Int) (str : List Byte) (s : State) : Answer := .next (drawOk (textPoints s x x y str) s)

/-- DRAWTEXT is TEXT (R108 c). -/
def execDrawText (x y : Int) (str : List Byte) (s : State) : Answer := .next (drawOk (textPoints s x x y str) s)

end Sys2Proof.Machine
end

