-- ==== Sys2Proof/Machine/Bus.lean ====
section
/-! DEFINITION. The rows of the opcode table that stand on the bus side (30_encoding.md R120 to R124, 42_transport.md R212): each
is one acknowledged transaction on the bus. It is recorded at the bus port and the reference device receives it (R232); the
registers and memories of the block are untouched (log 3). -/

namespace Sys2Proof.Machine

/-- BUS.CMD: the command transaction `[0x00, c]` (R120). -/
def execBusCmd (c : Byte) (s : State) : Answer := .next (busDelivered (cmdTransaction c) s)

/-- BUS.DATA: the data transaction `[0x40] ++ payload` (R121). -/
def execBusData (payload : List Byte) (s : State) : Answer := .next (busDelivered (dataTransaction payload) s)

/-- DEV.PAGEADDR: the command byte `0xB0 + p` selects page `p` (R123, R232). -/
def execDevPageAddr (p : BitVec 3) (s : State) : Answer := .next (busDelivered (cmdTransaction (pageAddrByte p)) s)

/-- DEV.COLLOW0: the command byte 0x00 clears the low four bits of the column (R123, R232). -/
def execDevColLow0 (s : State) : Answer := .next (busDelivered (cmdTransaction 0x00) s)

/-- DEV.COLHIGH0: the command byte 0x10 clears the high bits of the column (R123, R232). -/
def execDevColHigh0 (s : State) : Answer := .next (busDelivered (cmdTransaction 0x10) s)

/-- The transaction that carries entry `k` of the initialization list (R210, R212). -/
def initEntryDelivered (k : Nat) (s : State) : State := busDelivered (cmdTransaction (s.initByte k)) s

/-- INIT_SEQ[0] (R212). -/
def execInitSeq0 (s : State) : Answer := .next (initEntryDelivered 0 s)

/-- INIT_SEQ[1] (R212). -/
def execInitSeq1 (s : State) : Answer := .next (initEntryDelivered 1 s)

/-- INIT_SEQ[2] (R212). -/
def execInitSeq2 (s : State) : Answer := .next (initEntryDelivered 2 s)

/-- INIT_SEQ[3] (R212). -/
def execInitSeq3 (s : State) : Answer := .next (initEntryDelivered 3 s)

/-- INIT_SEQ[4] (R212). -/
def execInitSeq4 (s : State) : Answer := .next (initEntryDelivered 4 s)

/-- INIT_SEQ[5] (R212). -/
def execInitSeq5 (s : State) : Answer := .next (initEntryDelivered 5 s)

/-- INIT_SEQ[6] (R212). -/
def execInitSeq6 (s : State) : Answer := .next (initEntryDelivered 6 s)

/-- INIT_SEQ[7] (R212). -/
def execInitSeq7 (s : State) : Answer := .next (initEntryDelivered 7 s)

/-- INIT_SEQ[8] (R212). -/
def execInitSeq8 (s : State) : Answer := .next (initEntryDelivered 8 s)

/-- INIT_SEQ[9] (R212). -/
def execInitSeq9 (s : State) : Answer := .next (initEntryDelivered 9 s)

/-- INIT_SEQ[10] (R212). -/
def execInitSeq10 (s : State) : Answer := .next (initEntryDelivered 10 s)

/-- INIT_SEQ[11] (R212). -/
def execInitSeq11 (s : State) : Answer := .next (initEntryDelivered 11 s)

/-- INIT_SEQ[12] (R212). -/
def execInitSeq12 (s : State) : Answer := .next (initEntryDelivered 12 s)

/-- INIT_SEQ[13] (R212). -/
def execInitSeq13 (s : State) : Answer := .next (initEntryDelivered 13 s)

/-- INIT_SEQ[14] (R212). -/
def execInitSeq14 (s : State) : Answer := .next (initEntryDelivered 14 s)

/-- INIT_SEQ[15] (R212). -/
def execInitSeq15 (s : State) : Answer := .next (initEntryDelivered 15 s)

/-- INIT_SEQ[16] (R212). -/
def execInitSeq16 (s : State) : Answer := .next (initEntryDelivered 16 s)

/-- INIT_SEQ[17] (R212). -/
def execInitSeq17 (s : State) : Answer := .next (initEntryDelivered 17 s)

/-- INIT_SEQ[18] (R212). -/
def execInitSeq18 (s : State) : Answer := .next (initEntryDelivered 18 s)

/-- INIT_SEQ[19] (R212). -/
def execInitSeq19 (s : State) : Answer := .next (initEntryDelivered 19 s)

/-- INIT_SEQ[20] (R212). -/
def execInitSeq20 (s : State) : Answer := .next (initEntryDelivered 20 s)

/-- INIT_SEQ[21] (R212). -/
def execInitSeq21 (s : State) : Answer := .next (initEntryDelivered 21 s)

/-- INIT_SEQ[22] (R212). -/
def execInitSeq22 (s : State) : Answer := .next (initEntryDelivered 22 s)

/-- INIT_SEQ[23] (R212). -/
def execInitSeq23 (s : State) : Answer := .next (initEntryDelivered 23 s)

/-- INIT_SEQ[24] (R212). -/
def execInitSeq24 (s : State) : Answer := .next (initEntryDelivered 24 s)

/-- INIT_SEQ[25] (R212). -/
def execInitSeq25 (s : State) : Answer := .next (initEntryDelivered 25 s)

/-- INIT_SEQ[26] (R212). -/
def execInitSeq26 (s : State) : Answer := .next (initEntryDelivered 26 s)

/-- INIT_SEQ[27] (R212). -/
def execInitSeq27 (s : State) : Answer := .next (initEntryDelivered 27 s)

end Sys2Proof.Machine
end

