-- ==== Sys2Proof/Machine/Ditherer.lean ====
section
/-! DEFINITION. The command of the Ditherer unit (41_ditherer.md): exact integer arithmetic, no state kept between commands. -/

namespace Sys2Proof.Machine

/-- The luma `L = floor((299 R + 587 G + 114 B) / 1000)` (R184). -/
def luma (p : Sample) : Nat := (299 * p.r.toNat + 587 * p.g.toNat + 114 * p.b.toNat) / 1000

/-- Luma with alpha applied: `L' = floor(L × A / 255)` (R185). -/
def shade (p : Sample) : Nat := luma p * p.a.toNat / 255

/-- The threshold test at a cell of the matrix: `L' > cell × 16` (R186). -/
def ditherOn (cell : Nat) (p : Sample) : Bool := decide (shade p > cell * 16)

/-- The sample of pixel `(x, y)`: four bytes per pixel, or three with alpha 255 (R37, R62). -/
def State.sample (s : State) (x y : Nat) : Sample :=
  if s.imgFmt = 0 then
    let at4 := (y * Config.width + x) * 4
    { r := s.imgByte at4, g := s.imgByte (at4 + 1), b := s.imgByte (at4 + 2), a := s.imgByte (at4 + 3) }
  else
    let at3 := (y * Config.width + x) * 3
    { r := s.imgByte at3, g := s.imgByte (at3 + 1), b := s.imgByte (at3 + 2), a := 255 }

/-- Whether DITHER turns pixel `(x, y)` on (R181, R186). -/
def State.dithersOn (s : State) (x y : Nat) : Bool := ditherOn (s.bayerCell y x) (s.sample x y)

/-- The points DITHER plots, row by row (R181). -/
def ditherPoints (s : State) : List Point :=
  (List.range Config.height).flatMap fun y =>
    (List.range Config.width).filterMap fun x => if s.dithersOn x y then some ((x : Int), (y : Int)) else none

/-- The declared image size is not exactly 128 by 64 (R181, R182, R254). -/
def State.sizeMismatch (s : State) : Bool := !(decide (s.imgW.toNat = Config.width) && decide (s.imgH.toNat = Config.height))

/-- DITHER (R181). -/
def execDither (s : State) : Answer :=
  .next (if s.sizeMismatch then raise .dimensionMismatch s else drawOk (ditherPoints s) s)

end Sys2Proof.Machine
end

