-- ==== Sys2Proof/Machine/Transport.lean ====
section
/-! DEFINITION. The five commands of the Display Transport unit (42_transport.md): OPEN, INIT, BLIT, CLOSE, SETCHUNK, and the
pseudo form OPEN with no operand (30_encoding.md R108). INIT and BLIT run the micro-steps of R210 and R224 inside one step
(D25; log 1). -/

namespace Sys2Proof.Machine

/-! ### OPEN (R205) -/

/-- The one `BusOpen` of OPEN answered: the handle is bound and the address kept, or nothing is bound (R205, R262). -/
def openAnswered (a : BitVec 7) (ans : BusAnswer) (s : State) : State :=
  match ans with
  | .ok => endOk { busOpened a .ok s with addr := a, ts := .uninitialized }
  | .fail => raise .deviceUnavailable (busOpened a .fail s)

/-- OPEN after decoding: refused unless Closed, else one `BusOpen` (R201, R202, R205, R260). -/
def openAddr (a : BitVec 7) (s : State) : Answer :=
  if s.ts ≠ .closed then .next (raise .invalidState s)
  else
    match s.answerAt 0 with
    | none => .fault .busNeverAnswers
    | some ans => .next (openAnswered a ans s)

/-- OPEN addr; an address with bit 7 set is an illegal command (R106 b, R205, R260; log 18). -/
def execOpen (addr : Byte) (s : State) : Answer :=
  if addrBit7 addr then .next (raise .illegalCommand s) else openAddr (addr7 addr) s

/-- OPEN with no operand is OPEN ADDR_DEFAULT (R108 a). -/
def execOpenDefault (s : State) : Answer := openAddr Config.addrDefault s

/-! ### INIT (R210, R212) -/

/-- The transaction at the INIT position: `[0x00, INIT_SEQ[ip]]` (R210). -/
def State.initTransaction (s : State) : List Byte := cmdTransaction (s.initByte s.seq.ip)

/-- One transaction of INIT with its answer: on fail the handle is released and the command ends with InitFailed; on ok the
position moves on, and after the 28th the command ends with Ok (R210, R41 a). -/
def initMicroStep (ans : BusAnswer) (s : State) : State :=
  let w := busWritten s.initTransaction ans s
  match ans with
  | .fail => raise .initFailed { busClosed w with ts := .closed, seq := .start }
  | .ok =>
    if s.seq.ip + 1 = 28 then endOk { w with ts := .initialized, seq := .start }
    else { w with seq := { s.seq with ip := s.seq.ip + 1 } }

/-- At most `n` micro-steps of a running INIT. -/
def initRun : Nat → State → Answer
  | 0, s => .next s
  | n + 1, s =>
    if s.ts = .uninitialized then
      match s.answerAt 0 with
      | none => .fault .busNeverAnswers
      | some ans => initRun n (initMicroStep ans s)
    else .next s

/-- INIT (R210). -/
def execInit (s : State) : Answer :=
  if s.ts ≠ .uninitialized then .next (raise .invalidState s) else initRun 28 { s with seq := .start }

/-! ### BLIT (R220 to R225) -/

/-- `c = min(CHUNK_LIMIT, W)` (R221). -/
def chunk (limit : Half) : Nat := min limit.toNat Config.width

/-- The bytes `FB[p][lo], …, FB[p][hi − 1]` (R221). -/
def State.pageBytes (s : State) (p lo hi : Nat) : List Byte :=
  (List.range (hi - lo)).map fun k => s.fbByte (p * Config.width + lo + k)

/-- The page-address command byte `0xB0 + p` (R123). -/
def pageCommand (p : Nat) : Byte := 0xB0 + BitVec.ofNat 8 p

/-- The data transaction of page `p` from column `off` (R221). -/
def State.chunkTransaction (s : State) (p off : Nat) : List Byte :=
  dataTransaction (s.pageBytes p off (min (off + chunk s.chunkLimit) Config.width))

/-- The transaction at the BLIT position (R224). -/
def State.blitTransaction (s : State) : List Byte :=
  match s.seq.ph with
  | .pageAddress => cmdTransaction (pageCommand s.seq.bp)
  | .columnLow => cmdTransaction 0x00
  | .columnHigh => cmdTransaction 0x10
  | .data => s.chunkTransaction s.seq.bp s.seq.off

/-- The BLIT position after an acknowledged transaction (R224); at the end of a page the offset is 0 again, within its range
(R41 b; log 9). -/
def State.blitAdvance (s : State) : SeqPos :=
  match s.seq.ph with
  | .pageAddress => { s.seq with ph := .columnLow }
  | .columnLow => { s.seq with ph := .columnHigh }
  | .columnHigh => { s.seq with ph := .data, off := 0 }
  | .data =>
    if s.seq.off + chunk s.chunkLimit ≥ Config.width then
      { s.seq with bp := s.seq.bp + 1, ph := .pageAddress, off := 0 }
    else { s.seq with off := s.seq.off + chunk s.chunkLimit }

/-- One transaction of BLIT with its answer: on fail the command ends with TransferFailed and the session stays; on ok the
position moves on, and when the page reaches 8 the command ends with Ok (R220, R224). -/
def blitMicroStep (ans : BusAnswer) (s : State) : State :=
  let w := busWritten s.blitTransaction ans s
  match ans with
  | .fail => raise .transferFailed { w with ts := .initialized, seq := .start }
  | .ok =>
    if s.blitAdvance.bp = Config.pages then endOk { w with ts := .initialized, seq := .start }
    else { w with seq := s.blitAdvance }

/-- At most `n` micro-steps of a running BLIT. -/
def blitRun : Nat → State → Answer
  | 0, s => .next s
  | n + 1, s =>
    if s.ts = .streaming then
      match s.answerAt 0 with
      | none => .fault .busNeverAnswers
      | some ans => blitRun n (blitMicroStep ans s)
    else .next s

/-- The most transactions a BLIT has, those of chunk limit 1 (R222, R311). -/
def blitBound : Nat := 1048

/-- BLIT (R220). -/
def execBlit (s : State) : Answer :=
  if s.ts ≠ .initialized then .next (raise .invalidState s)
  else if s.chunkLimit = 0 then .fault .chunkLimitZero
  else blitRun blitBound { s with ts := .streaming, seq := .start }

/-- The column offsets at which the data transactions of a page start: `0, c, 2c, …` below `W` (R221). -/
def chunkOffsets (limit : Half) : List Nat :=
  (List.range ((Config.width + chunk limit - 1) / chunk limit)).map fun j => j * chunk limit

/-- The transactions of page `p` in order (R221). -/
def State.pageSeq (s : State) (p : Nat) : List (List Byte) :=
  cmdTransaction (pageCommand p) :: cmdTransaction 0x00 :: cmdTransaction 0x10 ::
    (chunkOffsets s.chunkLimit).map (s.chunkTransaction p)

/-- `blitSeq(FB, CHUNK_LIMIT)`: the transactions of a complete BLIT in order (R221). The claims compare BLIT with it. -/
def State.blitSeq (s : State) : List (List Byte) := (List.range Config.pages).flatMap s.pageSeq

/-! ### CLOSE (R235) -/

/-- CLOSE (R235). -/
def execClose (s : State) : Answer :=
  .next (endOk { (if s.ts = .closed then s else busClosed s) with ts := .closed })

/-! ### SETCHUNK (R240) -/

/-- SETCHUNK n; `n = 0` is an illegal command (R106 c, R240; log 18). -/
def execSetChunk (n : Half) (s : State) : Answer :=
  .next (if n = 0 then raise .illegalCommand s else endOk { s with chunkLimit := n })

end Sys2Proof.Machine
end

