-- ==== Sys2Proof/Machine/Dispatch.lean ====
section
/-! DEFINITION. One arm per instruction: the meaning it calls. -/

namespace Sys2Proof.Machine

/-- What one instruction does (30_encoding.md R101 and the rule each row of the opcode table names). -/
def exec (i : Instr) (s : State) : Host.Outcome State Fault Refusal :=
  match i with
  | .clear => Sys2Proof.Machine.execClear s
  | .setPixel x y => Sys2Proof.Machine.execSetPixel x y s
  | .line x0 y0 x1 y1 => Sys2Proof.Machine.execLine x0 y0 x1 y1 s
  | .rect x y w h => Sys2Proof.Machine.execRect x y w h s
  | .glyph x y ch => Sys2Proof.Machine.execGlyph x y ch s
  | .text x y str => Sys2Proof.Machine.execText x y str s
  | .dither => Sys2Proof.Machine.execDither s
  | .openBus addr => Sys2Proof.Machine.execOpen addr s
  | .init => Sys2Proof.Machine.execInit s
  | .blit => Sys2Proof.Machine.execBlit s
  | .close => Sys2Proof.Machine.execClose s
  | .setChunk n => Sys2Proof.Machine.execSetChunk n s
  | .openDefault => Sys2Proof.Machine.execOpenDefault s
  | .frame => Sys2Proof.Machine.execFrame s
  | .drawGlyph x y ch => Sys2Proof.Machine.execDrawGlyph x y ch s
  | .drawText x y str => Sys2Proof.Machine.execDrawText x y str s
  | .busCmd c => Sys2Proof.Machine.execBusCmd c s
  | .busData payload => Sys2Proof.Machine.execBusData payload s
  | .devPageAddr p => Sys2Proof.Machine.execDevPageAddr p s
  | .devColLow0 => Sys2Proof.Machine.execDevColLow0 s
  | .devColHigh0 => Sys2Proof.Machine.execDevColHigh0 s
  | .initSeq0 => Sys2Proof.Machine.execInitSeq0 s
  | .initSeq1 => Sys2Proof.Machine.execInitSeq1 s
  | .initSeq2 => Sys2Proof.Machine.execInitSeq2 s
  | .initSeq3 => Sys2Proof.Machine.execInitSeq3 s
  | .initSeq4 => Sys2Proof.Machine.execInitSeq4 s
  | .initSeq5 => Sys2Proof.Machine.execInitSeq5 s
  | .initSeq6 => Sys2Proof.Machine.execInitSeq6 s
  | .initSeq7 => Sys2Proof.Machine.execInitSeq7 s
  | .initSeq8 => Sys2Proof.Machine.execInitSeq8 s
  | .initSeq9 => Sys2Proof.Machine.execInitSeq9 s
  | .initSeq10 => Sys2Proof.Machine.execInitSeq10 s
  | .initSeq11 => Sys2Proof.Machine.execInitSeq11 s
  | .initSeq12 => Sys2Proof.Machine.execInitSeq12 s
  | .initSeq13 => Sys2Proof.Machine.execInitSeq13 s
  | .initSeq14 => Sys2Proof.Machine.execInitSeq14 s
  | .initSeq15 => Sys2Proof.Machine.execInitSeq15 s
  | .initSeq16 => Sys2Proof.Machine.execInitSeq16 s
  | .initSeq17 => Sys2Proof.Machine.execInitSeq17 s
  | .initSeq18 => Sys2Proof.Machine.execInitSeq18 s
  | .initSeq19 => Sys2Proof.Machine.execInitSeq19 s
  | .initSeq20 => Sys2Proof.Machine.execInitSeq20 s
  | .initSeq21 => Sys2Proof.Machine.execInitSeq21 s
  | .initSeq22 => Sys2Proof.Machine.execInitSeq22 s
  | .initSeq23 => Sys2Proof.Machine.execInitSeq23 s
  | .initSeq24 => Sys2Proof.Machine.execInitSeq24 s
  | .initSeq25 => Sys2Proof.Machine.execInitSeq25 s
  | .initSeq26 => Sys2Proof.Machine.execInitSeq26 s
  | .initSeq27 => Sys2Proof.Machine.execInitSeq27 s

end Sys2Proof.Machine
end

