-- ==== Sys2Proof/Machine/HostPort.lean ====
section
/-! DEFINITION. The host's side of a step: which move is next, and how a word of the opcode table comes to be the next one
(10_state.md R21, R23, R38). -/

namespace Sys2Proof.Machine

/-- Take the next move of the host. A command word is decoded here; an illegal one ends with IllegalCommand and changes nothing
else (R106, R255, R260). -/
def fetch (s : State) : Fetched :=
  match s.inputs with
  | [] => .idle
  | .command word :: rest =>
    match decode word with
    | .ok i => .run i { s with inputs := rest }
    | .error _ => .done (raise .illegalCommand { s with inputs := rest })
  | .abstract i :: rest => if i.operandsFit then .run i { s with inputs := rest } else .refuse .notExpressible
  | .writeCsr n v :: rest => .done (csrWrite { s with inputs := rest } n v)
  | .writeImg a v :: rest => .done (imgWrite { s with inputs := rest } a v)
  | .reset :: rest => .done (resetEvent { s with inputs := rest })

/-- The move that presents a word of spec/opcode_table.json: a command word where it is one, else the instruction of the bus
side that the table word names, else the word itself, which is an illegal command (log 2, log 3). -/
def tableInput (nbits w : Nat) : HostInput :=
  match decode (tableCommandWord nbits w) with
  | .ok _ => .command (tableCommandWord nbits w)
  | .error _ =>
    match decodeTableBusSide nbits w with
    | some i => .abstract i
    | none => .command (tableCommandWord nbits w)

end Sys2Proof.Machine
end

