-- ==== Sys2Proof/Machine/Step.lean ====
section
/-! DEFINITION. One step of the machine: one move of the host, run whole (10_state.md R20, R21; D25). -/

namespace Sys2Proof.Machine

/-- One step: take the host's next move; a command or instruction is executed, a register or buffer write and a reset are done
at once, and with nothing presented the block stays idle (R21, R23, R275). -/
def step (s : State) : Host.Outcome State Fault Refusal :=
  match fetch s with
  | .idle => .next s
  | .run i t => exec i t
  | .done t => .next t
  | .refuse r => .refused r

/-- `s` with the host presenting this word of the opcode table next (log 2). -/
def State.withFetchWord (s : State) (nbits w : Nat) : State := { s with inputs := tableInput nbits w :: s.inputs }

end Sys2Proof.Machine
end

