-- ==== Sys2Proof/Safety.lean ====
section
/-! DEFINITION. What counts as a safe run, and the invariant of the machine, in the terms the claims use. -/

namespace Sys2Proof.Machine

open Sys2Proof

/-- No error has been recorded since reset (10_state.md R35). -/
def State.noErrorRecorded (s : State) : Prop := s.errLog = 0

/-- `n` steps from `s` end in a state: the machine neither faults nor refuses on the way. -/
def safeFor (n : Nat) (s : State) : Prop := ∃ t, Host.Core.run Sys2Proof.core n s = .next t

/-- From `s` to `t` exactly the pixels `on` are turned on (40_framebuffer.md R142): a pixel of the display is on in `t` iff it was
on in `s` or is one of them, and a byte of the framebuffer that holds none of them reads as before. -/
def turnsOn (s t : State) (on : Point → Prop) : Prop :=
  (∀ q, onDisplay q = true → (t.getPixel q = true ↔ s.getPixel q = true ∨ on q)) ∧
  ∀ a, (∀ q, onDisplay q = true → on q → pixelAddr q ≠ a) → t.fbByte a = s.fbByte a

/-- `t` is `s` but for the framebuffer and LASTERR, which is Ok: what R140 allows a framebuffer command to change. -/
def onlyDrew (s t : State) : Prop := t = { s with fb := t.fb, lastErr := .ok }

/-- The drawing commands: those that write the framebuffer through plot (30_encoding.md R110), and their pseudo forms. -/
def isDrawing : Instr → Bool
  | .clear => false
  | .setPixel _ _ => true
  | .line _ _ _ _ => true
  | .rect _ _ _ _ => true
  | .glyph _ _ _ => true
  | .text _ _ _ => true
  | .dither => true
  | .openBus _ => false
  | .init => false
  | .blit => false
  | .close => false
  | .setChunk _ => false
  | .openDefault => false
  | .frame => false
  | .drawGlyph _ _ _ => true
  | .drawText _ _ _ => true
  | .busCmd _ => false
  | .busData _ => false
  | .devPageAddr _ => false
  | .devColLow0 => false
  | .devColHigh0 => false
  | .initSeq0 => false
  | .initSeq1 => false
  | .initSeq2 => false
  | .initSeq3 => false
  | .initSeq4 => false
  | .initSeq5 => false
  | .initSeq6 => false
  | .initSeq7 => false
  | .initSeq8 => false
  | .initSeq9 => false
  | .initSeq10 => false
  | .initSeq11 => false
  | .initSeq12 => false
  | .initSeq13 => false
  | .initSeq14 => false
  | .initSeq15 => false
  | .initSeq16 => false
  | .initSeq17 => false
  | .initSeq18 => false
  | .initSeq19 => false
  | .initSeq20 => false
  | .initSeq21 => false
  | .initSeq22 => false
  | .initSeq23 => false
  | .initSeq24 => false
  | .initSeq25 => false
  | .initSeq26 => false
  | .initSeq27 => false

/-- How many characters stand before the `k`-th since the last newline or the start of the string: the cursor has moved right
once for each (40_framebuffer.md R165). -/
def charColumn (str : List Byte) (k : Nat) : Nat := ((str.take k).reverse.takeWhile fun ch => ch != 10).length

/-- How many newlines stand before the `k`-th character: the cursor has moved down once for each (R165). -/
def charLine (str : List Byte) (k : Nat) : Nat := (str.take k).countP fun ch => ch == 10

/-- The on bit of row `r`, column `c` of the glyph with code `ch`: bit `r` of `FONT[ch − 32][c]`, for a code in 32 to 127
(R126, R160). -/
def glyphOn (s : State) (ch : Byte) (c r : Nat) : Prop :=
  32 ≤ ch.toNat ∧ ch.toNat ≤ 127 ∧ c < 5 ∧ r < 7 ∧ (s.fontByte (ch.toNat - 32) c).getLsbD r = true

/-- The pixels of the display, each once. -/
def displayPixels : List Point :=
  (List.range 64).flatMap fun (y : Nat) => (List.range 128).map fun (x : Nat) => ((x : Int), (y : Int))

/-- How many pixels of the display are on. -/
def State.pixelsOn (s : State) : Nat := displayPixels.countP s.getPixel

/-- The answers to the next `n` bus calls are all ok. -/
def allOk (s : State) (n : Nat) : Prop := ∀ k, k < n → s.answerAt k = some .ok

/-- The next `k` bus calls are answered ok and the one after them fail. -/
def failsAt (s : State) (k : Nat) : Prop := allOk s k ∧ s.answerAt k = some .fail

/-- The state after these transactions, each acknowledged: all are recorded, the device has received them in order, and as many
answers have been taken (R72, R73, R76). -/
def State.acknowledged (s : State) (txs : List (List Byte)) : State :=
  { s with
    busLog := s.busLog ++ txs.map fun b => BusEvent.wrote b .ok
    dev := txs.foldl Device.receive s.dev
    replies := s.replies.drop txs.length
    replyDraws := s.replyDraws + (txs.length - s.replies.length) }

/-- The transactions of a successful INIT: one command transaction for each entry of the list (42_transport.md R210). -/
def State.initTransactions (s : State) : List (List Byte) := s.initSeq.toList.map cmdTransaction

/-- What may be assumed of the initialization list: the ten entries the source gives (42_transport.md R212). -/
def initSeqFixed (v : Vector Byte 28) : Bool :=
  v[3] == 0xB0 && v[5] == 0x00 && v[6] == 0x10 && v[13] == 0x3F && v[16] == 0x00 && v[18] == 0x80 && v[20] == 0xF1 &&
    v[22] == 0x12 && v[24] == 0x40 && v[26] == 0x14

/-- What may be assumed of the threshold matrix: eight of its sixteen cells are below 8 (41_ditherer.md R183). That every cell
is in 0 to 15 is the type's. -/
def bayerBalanced (v : Vector (BitVec 4) 16) : Bool := v.toList.countP (fun c => decide (c.toNat < 8)) == 8

/-- The invariant that every step keeps. -/
structure Inv (s : State) : Prop where
  /-- The framebuffer lists addresses of its 1024 bytes only, strictly rising (R60). -/
  fbWf : s.fb.wf Config.fbSize = true
  /-- The image buffer lists addresses of its 32768 bytes only, strictly rising (R60). -/
  imgWf : s.img.wf Config.imgSize = true
  /-- The font table lists addresses of its 480 bytes only, strictly rising (R60). -/
  fontWf : s.font.wf Config.fontSize = true
  /-- The device memory lists addresses of its 1024 bytes only, strictly rising (R232). -/
  devWf : s.dev.mem.wf Config.fbSize = true
  /-- The bits of ERRLOG that are not in use are 0 (R30). -/
  errLogBits : s.errLog &&& ~~~errLogMask = 0
  /-- A chunk limit of 0 is never stored (R33). -/
  chunkNonzero : s.chunkLimit ≠ 0
  /-- Streaming is never the state between two commands (R31, R201). -/
  notStreaming : s.ts ≠ .streaming
  /-- The hidden positions are 0 between commands (R41, R44; log 1). -/
  seqStart : s.seq = .start
  /-- The ten entries of the initialization list that the source gives (R212). -/
  initSeqOk : initSeqFixed s.initSeq = true
  /-- Eight cells of the threshold matrix are below 8 (R183). -/
  bayerOk : bayerBalanced s.bayer = true

end Sys2Proof.Machine
end

