-- ==== Sys2Proof/Certificates/Slice0/Obligations.lean ====
section
/-! DEFINITION. The statements for the provers. Each docstring names the rule of spec/ the statement comes from, and the log entry
of any choice it rests on. A statement that says `∃ t, exec i s = .next t ∧ …` says that the instruction completes. -/

open Sys2Proof Sys2Proof.Machine

/-! ## Encodings (30_encoding.md) -/

/-- R104: a 16-bit operand is `lo + 256 × hi`, an s16 operand is that value below 32768 and that value minus 65536 from there on,
a u16 operand is that value. -/
def Obligations.OperandAssembly : Prop :=
  ∀ lo hi : Byte,
    (u16 lo hi).toNat = lo.toNat + 256 * hi.toNat ∧
    s16 lo hi = if lo.toNat + 256 * hi.toNat < 32768 then ((lo.toNat + 256 * hi.toNat : Nat) : Int)
      else ((lo.toNat + 256 * hi.toNat : Nat) : Int) - 65536

/-- R101, R103, R104, R120, R121: words written out byte by byte from the encodings decode to the instruction they stand for. -/
def Obligations.DecodeWords : Prop :=
  decode [0x01] = .ok .clear ∧
  decode [0x02, 0xFF, 0xFF, 0x05, 0x00] = .ok (.setPixel (-1) 5) ∧
  decode [0x03, 0x00, 0x00, 0x02, 0x00, 0x0A, 0x00, 0x02, 0x00] = .ok (.line 0 2 10 2) ∧
  decode [0x04, 0x02, 0x00, 0x03, 0x00, 0x04, 0x00, 0x03, 0x00] = .ok (.rect 2 3 4 3) ∧
  decode [0x05, 0x00, 0x00, 0xFD, 0xFF, 0x41] = .ok (.glyph 0 (-3) 0x41) ∧
  decode [0x06, 0x03, 0x00, 0x01, 0x00, 0x03, 0x00, 0x41, 0x0A, 0x42] = .ok (.text 3 1 [0x41, 0x0A, 0x42]) ∧
  decode [0x10] = .ok .dither ∧
  decode [0x20, 0x3C] = .ok (.openBus 0x3C) ∧
  decode [0x24, 0x80, 0x00] = .ok (.setChunk 128) ∧
  decodeBus [0x00, 0xB2] = some (.busCmd 0xB2) ∧
  decodeBus [0x40, 0x11, 0x22] = some (.busData [0x11, 0x22]) ∧
  decodeDeviceByte 0xB7 = some (.devPageAddr 7)

/-- Decoding and encoding agree on the whole space of command words (R101 to R106): a byte string decodes to an instruction iff
that instruction is one of the twelve commands, its operands fit and are legal, and the byte string is its encoding. The word
of a pseudo form decodes to the command it expands to, with its operands (R108). That a longer word is illegal is the model's
reading (log 5). -/
def Obligations.DecodeIffEncode : Prop :=
  (∀ (w : List Byte) (i : Instr), decode w = .ok i ↔ i.isCommand = true ∧ i.wellFormed = true ∧ i.encode = w) ∧
  ∀ i : Instr, i.isPseudo = true → i.wellFormed = true → decode i.encode = .ok i.expand

/-- R106: an opcode outside the table, OPEN with bit 7 of the address set, SETCHUNK 0, and every word cut short is illegal. -/
def Obligations.IllegalWords : Prop :=
  (∀ (op : Byte) (r : List Byte), op ∉ ([0x01, 0x02, 0x03, 0x04, 0x05, 0x06, 0x10, 0x20, 0x21, 0x22, 0x23, 0x24] : List Byte) →
      decode (op :: r) = .error (.unassignedOpcode op)) ∧
  (∀ (a : Byte) (r : List Byte), 128 ≤ a.toNat → decode (0x20 :: a :: r) = .error .addressBit7) ∧
  (∀ r : List Byte, decode (0x24 :: 0x00 :: 0x00 :: r) = .error .chunkZero) ∧
  (∀ (i : Instr) (k : Nat), i.isCommand = true → i.wellFormed = true → k < i.length →
      decode (i.encode.take k) = .error .truncated)

/-- R120, R121, R122: a byte string decodes as a bus transaction iff it is `[0x00, c]`, or 0x40 and 1 to 128 payload bytes; the
instruction carries exactly those bytes. The bound 128 is that of R121 at the largest chunk limit. R123: a page-address byte
`1011 0ppp` and the column bytes 0x00 and 0x10 decode to their rows, whose transactions carry them. -/
def Obligations.BusDecodeIffEncode : Prop :=
  (∀ (b : List Byte) (i : Instr),
    decodeBus b = some i ↔
      (∃ c, i = .busCmd c ∧ b = [0x00, c]) ∨ ∃ p, i = .busData p ∧ 1 ≤ p.length ∧ p.length ≤ 128 ∧ b = 0x40 :: p) ∧
  (∀ p : BitVec 3, (Instr.devPageAddr p).encode = [0x00, 0xB0 + BitVec.ofNat 8 p.toNat] ∧
    decodeDeviceByte (0xB0 + BitVec.ofNat 8 p.toNat) = some (.devPageAddr p)) ∧
  Instr.devColLow0.encode = [0x00, 0x00] ∧ decodeDeviceByte 0x00 = some .devColLow0 ∧
  Instr.devColHigh0.encode = [0x00, 0x10] ∧ decodeDeviceByte 0x10 = some .devColHigh0

/-! ## The host's side of a step (10_state.md) -/

/-- A step runs the decoded instruction (R21, R23): when the host's next move is a command word that decodes to `i`, or `i` given
by name with operands that fit, the step is exec of `i` with that move taken from the queue (log 2, the queue is the model's). -/
def Obligations.StepRunsDecoded : Prop :=
  ∀ (s : State) (i : Instr) (rest : List HostInput),
    (∀ w, s.inputs = .command w :: rest → decode w = .ok i → step s = exec i { s with inputs := rest }) ∧
    (s.inputs = .abstract i :: rest → i.operandsFit = true → step s = exec i { s with inputs := rest })

/-- A word of the opcode table placed by withFetchWord is what the next step runs: when the decoder reads `i` from the word and
its operands fit, the step is exec of `i` at the state before the placing (log 2, log 3). -/
def Obligations.TableWordRuns : Prop :=
  ∀ (s : State) (nbits w : Nat) (i : Instr),
    decodeTableWord nbits w = some i → i.operandsFit = true → step (s.withFetchWord nbits w) = exec i s

/-- R106, R255, R260: an illegal command word ends with IllegalCommand; nothing else of the block changes, nothing is sent. -/
def Obligations.IllegalWordStep : Prop :=
  ∀ (s : State) (w : List Byte) (rest : List HostInput) (e : DecodeError), s.inputs = .command w :: rest → decode w = .error e →
    step s = .next { s with inputs := rest, lastErr := .illegalCommand, errLog := s.errLog ||| 0x0040 }

/-- R38, R30: a host write takes effect on IMG_W, IMG_H and bit 0 of IMG_FMT only; a host write of an image byte changes that
byte only. -/
def Obligations.HostWrites : Prop :=
  ∀ (s : State) (rest : List HostInput),
    (∀ n v, s.inputs = .writeCsr n v :: rest → ∃ t, step s = .next t ∧
      t = { s with inputs := rest, imgW := t.imgW, imgH := t.imgH, imgFmt := t.imgFmt } ∧
      ∀ k, csrRead t k = if k = n then (if n.toNat < 5 then csrRead s k else if n = 7 then v &&& 1 else v) else csrRead s k) ∧
    (∀ a v, s.inputs = .writeImg a v :: rest → ∃ t, step s = .next t ∧ t = { s with inputs := rest, img := t.img } ∧
      ∀ b : Nat, t.imgByte b = if b = a.toNat then v else s.imgByte b)

/-- R30 to R37, R250: what the host reads of each register, the code of each result among it; bits not in use read as 0 (of ERRLOG
under the invariant). R38, R68: besides the registers it reads the bytes of FB and IMG; an index outside a space and the tables
are refused (log 16). -/
def Obligations.HostReads : Prop :=
  ∀ s : State, Inv s →
    ((∀ n : BitVec 3, hostRead s .csr n.toNat = .ok (csrRead s n)) ∧ ∀ i, 8 ≤ i → hostRead s .csr i = .error .notExpressible) ∧
    ((∀ i, i < 1024 → hostRead s .fb i = .ok ((s.fbByte i).setWidth 16)) ∧
      ∀ i, 1024 ≤ i → hostRead s .fb i = .error .notExpressible) ∧
    ((∀ i, i < 32768 → hostRead s .img i = .ok ((s.imgByte i).setWidth 16)) ∧
      ∀ i, 32768 ≤ i → hostRead s .img i = .error .notExpressible) ∧
    (∀ i, hostRead s .font i = .error .notExpressible ∧ hostRead s .bayer i = .error .notExpressible ∧
      hostRead s .initSeq i = .error .notExpressible) ∧
    (csrRead s 0).toNat < 3 ∧ csrRead s 1 = s.addr.setWidth 16 ∧ csrRead s 2 = s.chunkLimit ∧
    csrRead s 2 ≠ 0 ∧ csrRead s 4 = s.errLog ∧ csrRead s 4 &&& 0xFF81 = 0 ∧
    csrRead s 5 = s.imgW ∧ csrRead s 6 = s.imgH ∧ csrRead s 7 = s.imgFmt.setWidth 16 ∧
    (csrRead s 0 = 0 ↔ s.ts = .closed) ∧ (csrRead s 0 = 1 ↔ s.ts = .uninitialized) ∧ (csrRead s 0 = 2 ↔ s.ts = .initialized) ∧
    (csrRead s 3 = 0 ↔ s.lastErr = .ok) ∧ (csrRead s 3 = 1 ↔ s.lastErr = .deviceUnavailable) ∧
    (csrRead s 3 = 2 ↔ s.lastErr = .initFailed) ∧ (csrRead s 3 = 3 ↔ s.lastErr = .transferFailed) ∧
    (csrRead s 3 = 4 ↔ s.lastErr = .dimensionMismatch) ∧ (csrRead s 3 = 5 ↔ s.lastErr = .invalidState) ∧
    (csrRead s 3 = 6 ↔ s.lastErr = .illegalCommand) ∧ (csrRead s 3).toNat ≤ 6

/-- R44: the registers and positions that have a reset value. R183, R212: the contents the two tables hold by default; the matrix
and the entries that the source does not print are PRESUMED, taken from general knowledge, and entry 9 is open (log 8). -/
def Obligations.ResetValues : Prop :=
  State.reset.ts = .closed ∧ State.reset.chunkLimit = 16 ∧ State.reset.lastErr = .ok ∧ State.reset.errLog = 0 ∧
  State.reset.seq = { ip := 0, bp := 0, ph := .pageAddress, off := 0 } ∧
  State.reset.bayer.toList =
    ([0, 8, 2, 10,
      12, 4, 14, 6,
      3, 11, 1, 9,
      15, 7, 13, 5] : List (BitVec 4)) ∧
  State.reset.initSeq.toList =
    ([0xAE, 0x20, 0x00, 0xB0, 0xC8, 0x00, 0x10, 0x40, 0x81, Config.initContrast, 0xA1, 0xA6, 0xA8, 0x3F,
      0xA4, 0xD3, 0x00, 0xD5, 0x80, 0xD9, 0xF1, 0xDA, 0x12, 0xDB, 0x40, 0x8D, 0x14, 0xAF] : List Byte)

/-- R44, R45: a reset event puts the block into the reset state and releases a bound handle without a transaction; the parts that
R44 leaves unspecified are the free values of the next reset (log 6, log 7). What is not named, the tables, the device and the
queues of the environment among it, is as before (log 15). -/
def Obligations.ResetEvent : Prop :=
  ∀ (s : State) (rest : List HostInput), s.inputs = .reset :: rest →
    ∃ t, step s = .next t ∧
      t = { s with
        ts := .closed, chunkLimit := 16, lastErr := .ok, errLog := 0,
        seq := { ip := 0, bp := 0, ph := .pageAddress, off := 0 },
        addr := Config.resetAddr (s.resets + 1), imgW := Config.resetImgW (s.resets + 1),
        imgH := Config.resetImgH (s.resets + 1), imgFmt := Config.resetImgFmt (s.resets + 1),
        fb := t.fb, img := t.img, resets := s.resets + 1, inputs := rest,
        busLog := s.busLog ++ (if s.ts = .closed then [] else [.closed]) } ∧
      ∀ a, t.fbByte a = Config.powerOnFb (s.resets + 1) a ∧ t.imgByte a = Config.powerOnImg (s.resets + 1) a

/-! ## Framebuffer commands (40_framebuffer.md) -/

/-- R140: the six framebuffer commands complete in every state and with every operand, change nothing but the framebuffer and
LASTERR, which is Ok, and what they leave in the framebuffer depends on the framebuffer before and, for GLYPH and TEXT, on the
font, and on nothing else (the count of resets names the free power-on bytes of the framebuffer, log 7). -/
def Obligations.FramebufferCommandsNeverFail : Prop :=
  ∀ (i : Instr) (s : State),
    (i = .clear ∨ (∃ x y, i = .setPixel x y) ∨ (∃ x0 y0 x1 y1, i = .line x0 y0 x1 y1) ∨ (∃ x y w h, i = .rect x y w h) ∨
      (∃ x y ch, i = .glyph x y ch) ∨ ∃ x y str, i = .text x y str) →
    ∃ t, exec i s = .next t ∧ t = { s with fb := t.fb, lastErr := .ok } ∧
      ∀ s' : State, s'.fb = s.fb → s'.resets = s.resets →
        ((∃ x y ch, i = .glyph x y ch) ∨ (∃ x y str, i = .text x y str) → s'.font = s.font) →
        ∃ t', exec i s' = .next t' ∧ t'.fb = t.fb

/-- R141: CLEAR zeroes all 1024 bytes and changes nothing else but LASTERR; its word is the byte 0x01; and it is the only way to
turn an on pixel off (FRAME is another name of it). -/
def Obligations.ClearZeroes : Prop :=
  decode [0x01] = .ok .clear ∧
  (∀ s : State, ∃ t, exec .clear s = .next t ∧ onlyDrew s t ∧ ∀ a, a < 1024 → t.fbByte a = 0) ∧
  ∀ (i : Instr) (s t : State) (q : Point), exec i s = .next t → onDisplay q = true → s.getPixel q = true →
    t.getPixel q = false → i = .clear ∨ i = .frame

/-- R142, R145: SETPIXEL on the display sets bit `y mod 8` of byte `(y / 8, x)` and keeps every other bit, and the pixel then reads
as on; off the display, on either side and in either coordinate, no byte changes. Its word is R103's F2. R25: getPixel is that
bit of that byte. -/
def Obligations.SetPixelSetsOneBit : Prop :=
  ∀ (x y : Int) (s : State),
    (fitsS16 x = true → fitsS16 y = true → decode (0x02 :: (s16Bytes x ++ s16Bytes y)) = .ok (.setPixel x y)) ∧
    ∃ t, exec (.setPixel x y) s = .next t ∧ onlyDrew s t ∧
      (0 ≤ x ∧ x < 128 ∧ 0 ≤ y ∧ y < 64 →
        t.getPixel (x, y) = true ∧
        s.getPixel (x, y) = (s.fbByte (y.toNat / 8 * 128 + x.toNat)).getLsbD (y.toNat % 8) ∧
        ∀ a, t.fbByte a = if a = y.toNat / 8 * 128 + x.toNat then s.fbByte a ||| ((1 : Byte) <<< (y.toNat % 8)) else s.fbByte a) ∧
      (¬ (0 ≤ x ∧ x < 128 ∧ 0 ≤ y ∧ y < 64) → ∀ a, t.fbByte a = s.fbByte a)

/-- R150, R151 (f): LINE turns on exactly the points of its loop that are on the display, each clipped on its own. The loop is
the spec's choice of line algorithm (D10, log 17). -/
def Obligations.LinePlots : Prop :=
  ∀ (x0 y0 x1 y1 : Int) (s : State),
    ∃ t, exec (.line x0 y0 x1 y1) s = .next t ∧ onlyDrew s t ∧ turnsOn s t (· ∈ linePoints x0 y0 x1 y1)

/-- R150, R152 (a), in closed form: along the major axis each step moves by one, and the minor coordinate is the nearest integer
to the exact line, halves away from the start. The spec gives the loop (D10, log 17), not this form of it. -/
def Obligations.LineIsNearest : Prop :=
  ∀ x0 y0 x1 y1 : Int, fitsS16 x0 = true → fitsS16 y0 = true → fitsS16 x1 = true → fitsS16 y1 = true →
    let dx := (x1 - x0).natAbs
    let dy := (y1 - y0).natAbs
    let sx : Int := if x0 < x1 then 1 else -1
    let sy : Int := if y0 < y1 then 1 else -1
    linePoints x0 y0 x1 y1 =
      if dy ≤ dx then
        (List.range (dx + 1)).map fun (k : Nat) => (x0 + sx * (k : Int), y0 + sy * (((2 * dy * k + dx) / (2 * dx) : Nat) : Int))
      else
        (List.range (dy + 1)).map fun (k : Nat) => (x0 + sx * (((2 * dx * k + dy) / (2 * dy) : Nat) : Int), y0 + sy * (k : Int))

/-- R151 (a), R150 (termination), R311: LINE's first point is `(x0, y0)`, its last is `(x1, y1)`, and it plots exactly
`max(|x1 − x0|, |y1 − y0|) + 1` points. -/
def Obligations.LineEndsAndLength : Prop :=
  ∀ x0 y0 x1 y1 : Int, fitsS16 x0 = true → fitsS16 y0 = true → fitsS16 x1 = true → fitsS16 y1 = true →
    (linePoints x0 y0 x1 y1).head? = some (x0, y0) ∧ (linePoints x0 y0 x1 y1).getLast? = some (x1, y1) ∧
    (linePoints x0 y0 x1 y1).length = max (x1 - x0).natAbs (y1 - y0).natAbs + 1

/-- R151 (b) to (e): degenerate, horizontal, vertical and diagonal lines. These hold of every integer Bresenham form. -/
def Obligations.LineStraight : Prop :=
  ∀ (x0 y0 x1 y1 : Int) (s : State),
    fitsS16 x0 = true → fitsS16 y0 = true → fitsS16 x1 = true → fitsS16 y1 = true →
    ∃ t, exec (.line x0 y0 x1 y1) s = .next t ∧
      (x0 = x1 → y0 = y1 → turnsOn s t fun q => q = (x0, y0)) ∧
      (y0 = y1 → turnsOn s t fun q => q.2 = y0 ∧ min x0 x1 ≤ q.1 ∧ q.1 ≤ max x0 x1) ∧
      (x0 = x1 → turnsOn s t fun q => q.1 = x0 ∧ min y0 y1 ≤ q.2 ∧ q.2 ≤ max y0 y1) ∧
      ((x1 - x0).natAbs = (y1 - y0).natAbs → turnsOn s t fun q => ∃ k : Nat, k ≤ (x1 - x0).natAbs ∧
        q = (x0 + (if x0 < x1 then 1 else -1) * (k : Int), y0 + (if y0 < y1 then 1 else -1) * (k : Int)))

/-- R155, R156: RECT turns on the outline of the `w` by `h` rectangle at `(x, y)`, nothing inside it, and nothing at all when
`w ≤ 0` or `h ≤ 0`. The far edges are the spec's choice (D11, log 17). -/
def Obligations.RectOutline : Prop :=
  ∀ (x y w h : Int) (s : State),
    ∃ t, exec (.rect x y w h) s = .next t ∧ onlyDrew s t ∧
      turnsOn s t fun q => 0 < w ∧ 0 < h ∧ x ≤ q.1 ∧ q.1 ≤ x + w - 1 ∧ y ≤ q.2 ∧ q.2 ≤ y + h - 1 ∧
        (q.1 = x ∨ q.1 = x + w - 1 ∨ q.2 = y ∨ q.2 = y + h - 1)

/-- R156 (f): an unclipped rectangle with `w ≥ 2` and `h ≥ 2` has `2w + 2h − 4` distinct pixels (D11, log 17). -/
def Obligations.RectPixelCount : Prop :=
  ∀ x y w h : Int, 2 ≤ w → 2 ≤ h → ((rectPoints x y w h).toFinset.card : Int) = 2 * w + 2 * h - 4

/-- R160: GLYPH, and DRAWGLYPH (R108 c), turn on exactly the on bits of the character's glyph, none for a code outside 32 to
127; off bits leave the framebuffer as it was. Row 0 at the top and bit 7 ignored are the spec's choice (D12, log 17). -/
def Obligations.GlyphPlots : Prop :=
  ∀ (x y : Int) (ch : Byte) (i : Instr) (s : State), i = .glyph x y ch ∨ i = .drawGlyph x y ch →
    ∃ t, exec i s = .next t ∧ onlyDrew s t ∧
      turnsOn s t fun q => ∃ c r : Nat, glyphOn s ch c r ∧ q = (x + (c : Int), y + (r : Int))

/-- R161: the byte-level view of a glyph blit on a column of the display, with the seven rows on the display. Row 0 at the top and
bit 7 ignored are the spec's choice (D12, log 17). -/
def Obligations.GlyphBytes : Prop :=
  ∀ (x y : Int) (ch : Byte) (c : Nat) (s : State), 32 ≤ ch.toNat → ch.toNat ≤ 127 → c < 5 →
    0 ≤ x + c → x + c < 128 → 0 ≤ y → y + 6 < 64 →
    ∃ t, exec (.glyph x y ch) s = .next t ∧
      let g7 := s.fontByte (ch.toNat - 32) c &&& 0x7F
      let p := y.toNat / 8
      let sh := y.toNat % 8
      let xc := (x + c).toNat
      t.fbByte (p * 128 + xc) = s.fbByte (p * 128 + xc) ||| (g7 <<< sh) ∧
      (2 ≤ sh → t.fbByte ((p + 1) * 128 + xc) = s.fbByte ((p + 1) * 128 + xc) ||| (g7 >>> (8 - sh))) ∧
      (sh ≤ 1 → p < 7 → t.fbByte ((p + 1) * 128 + xc) = s.fbByte ((p + 1) * 128 + xc))

/-- R165: TEXT, and DRAWTEXT (R108 c), draw the glyph of each character at 6 times its distance from the last newline to the right
of the operand column, and 8 times the newlines before it down from the operand row (D13, log 17). -/
def Obligations.TextPlots : Prop :=
  ∀ (x y : Int) (str : List Byte) (i : Instr) (s : State), i = .text x y str ∨ i = .drawText x y str →
    ∃ t, exec i s = .next t ∧ onlyDrew s t ∧
      turnsOn s t fun q => ∃ k c r : Nat, k < str.length ∧ glyphOn s (str.getD k 0) c r ∧
        q = (x + 6 * (charColumn str k : Int) + (c : Int), y + 8 * (charLine str k : Int) + (r : Int))

/-- R166 (a), (b), (c): a newline splits a text into two texts, a text without newlines can be cut anywhere, and the empty string
draws nothing. -/
def Obligations.TextSplits : Prop :=
  ∀ (x y : Int) (s : State),
    (∀ s1 s2 : List Byte, 10 ∉ s1 → ∃ t u, exec (.text x y s1) s = .next t ∧ exec (.text x (y + 8) s2) t = .next u ∧
      exec (.text x y (s1 ++ [10] ++ s2)) s = .next u) ∧
    (∀ s1 s2 : List Byte, 10 ∉ s1 → 10 ∉ s2 → ∃ t u, exec (.text x y s1) s = .next t ∧
      exec (.text (x + 6 * (s1.length : Int)) y s2) t = .next u ∧ exec (.text x y (s1 ++ s2)) s = .next u) ∧
    exec (.text x y []) s = .next { s with lastErr := .ok }

/-- R69, R187 (b): a drawing command repeated leaves the framebuffer as the first execution left it. -/
def Obligations.DrawingIdempotent : Prop :=
  ∀ (i : Instr) (s : State), isDrawing i = true →
    ∃ t u, exec i s = .next t ∧ exec i t = .next u ∧ ∀ a, u.fbByte a = t.fbByte a

/-- R75, R187 (c): any two drawing commands, DITHER among them, leave the same framebuffer in either order. -/
def Obligations.DrawingCommutes : Prop :=
  ∀ (i j : Instr) (s : State), isDrawing i = true → isDrawing j = true →
    ∃ t u t' u', exec i s = .next t ∧ exec j t = .next u ∧ exec j s = .next t' ∧ exec i t' = .next u' ∧
      ∀ a, a < 1024 → u.fbByte a = u'.fbByte a

/-- R300, R142: in a run, only CLEAR, its pseudo form FRAME and reset turn a pixel off. R108 (b): FRAME is CLEAR. -/
def Obligations.OnlyClearTurnsOff : Prop :=
  (∀ (s t : State) (q : Point), step s = .next t → onDisplay q = true → s.getPixel q = true → t.getPixel q = false →
    ∃ m rest, s.inputs = m :: rest ∧
      (m = .reset ∨ m = .abstract .clear ∨ m = .abstract .frame ∨ m = .command [0x01])) ∧
  ∀ s : State, ∃ t, exec .frame s = .next t ∧ exec .clear s = .next t ∧ onlyDrew s t ∧ ∀ a, a < 1024 → t.fbByte a = 0

/-! ## Ditherer (41_ditherer.md) -/

/-- R181, R184, R185, R186, R62: on an image of exactly 128 by 64, DITHER turns on the pixels whose luma, with alpha applied,
exceeds 16 times their cell of the matrix, and leaves the others as they were. Luma, alpha and the sample layout are the
spec's choices (D14, D15, D16, log 17). -/
def Obligations.DitherThreshold : Prop :=
  ∀ s : State, s.imgW = 128 → s.imgH = 64 →
    ∃ t, exec .dither s = .next t ∧ onlyDrew s t ∧
      turnsOn s t fun q => ∃ x y : Nat, q = ((x : Int), (y : Int)) ∧ x < 128 ∧ y < 64 ∧
        let at0 := (y * 128 + x) * (if s.imgFmt = 0 then 4 else 3)
        let l := (299 * (s.imgByte at0).toNat + 587 * (s.imgByte (at0 + 1)).toNat + 114 * (s.imgByte (at0 + 2)).toNat) / 1000
        let a := if s.imgFmt = 0 then (s.imgByte (at0 + 3)).toNat else 255
        l * a / 255 > (s.bayer.toList.getD (y % 4 * 4 + x % 4) 0).toNat * 16

/-- R254: an image declared with another width than 128 or another height than 64 ends DITHER with DimensionMismatch; only LASTERR
and bit 4 of ERRLOG change, and the two registers still hold the offending size. -/
def Obligations.DitherSizeMismatch : Prop :=
  ∀ s : State, s.imgW ≠ 128 ∨ s.imgH ≠ 64 →
    exec .dither s = .next { s with lastErr := .dimensionMismatch, errLog := s.errLog ||| 0x0010 }

/-- R184, R185: the bounds of luma and alpha: gray keeps its value, alpha 255 keeps the luma, alpha 0 gives 0 (D14, log 17). R188: the
corner cases of the threshold test, for every cell value of the matrix. -/
def Obligations.ShadeAndThresholdCorners : Prop :=
  (∀ p : Sample, shade p ≤ luma p ∧ luma p ≤ 255 ∧ (p.r = p.g → p.g = p.b → luma p = p.r.toNat) ∧
    (p.a = 255 → shade p = luma p) ∧ (p.a = 0 → shade p = 0)) ∧
  (∀ (cell : BitVec 4) (p q : Sample),
    (p.a = 0 → ditherOn cell.toNat p = false) ∧ (shade p = 0 → ditherOn cell.toNat p = false) ∧
    (cell = 0 → (ditherOn cell.toNat p = true ↔ 1 ≤ shade p)) ∧ (cell = 15 → (ditherOn cell.toNat p = true ↔ 241 ≤ shade p)) ∧
    (shade p = 241 → ditherOn cell.toNat p = true) ∧
    (cell = 8 → shade p = 128 → ditherOn cell.toNat p = false) ∧ (cell = 8 → shade p = 129 → ditherOn cell.toNat p = true) ∧
    (shade p ≤ shade q → ditherOn cell.toNat p = true → ditherOn cell.toNat q = true)) ∧
  luma ⟨255, 0, 0, 255⟩ = 76 ∧ luma ⟨0, 255, 0, 255⟩ = 149 ∧ luma ⟨0, 0, 255, 255⟩ = 29 ∧ luma ⟨255, 255, 255, 255⟩ = 255 ∧
  luma ⟨255, 255, 0, 255⟩ = 225 ∧ luma ⟨10, 20, 30, 200⟩ = 18 ∧ shade ⟨10, 20, 30, 200⟩ = 14 ∧
  shade ⟨255, 255, 255, 128⟩ = 128

/-- R189: on an all-off display, a uniform image of shade `v` turns on 512 pixels for each cell of the matrix with `cell × 16 < v`:
4096 pixels at mid-gray for every matrix with eight cells below 8 (R183), and `512 × ceil(v / 16)` when the matrix holds each of
0 to 15 once. -/
def Obligations.UniformImageCount : Prop :=
  ∀ (s : State) (v : Nat), s.imgW = 128 → s.imgH = 64 →
    (∀ x y : Nat, x < 128 → y < 64 → shade (s.sample x y) = v) → (∀ a, a < 1024 → s.fbByte a = 0) →
    ∃ t, exec .dither s = .next t ∧
      t.pixelsOn = 512 * s.bayer.toList.countP (fun c => decide (c.toNat * 16 < v)) ∧
      (v = 128 → bayerBalanced s.bayer = true → t.pixelsOn = 4096) ∧
      ((∀ c : BitVec 4, s.bayer.toList.count c = 1) → t.pixelsOn = 512 * ((v + 15) / 16))

/-! ## Display transport (42_transport.md) -/

/-- R205, R251, R260, R106 (b): every way OPEN ends when its bus call is answered. An illegal address comes before a wrong state,
a wrong state before the bus call; nothing is written to the bus. That an OPEN given by name with bit 7 set ends like its word is
the model's reading (log 18); InvalidState is the spec's choice (D6, log 17). -/
def Obligations.OpenEveryCase : Prop :=
  ∀ (a : Byte) (s : State),
    (128 ≤ a.toNat → exec (.openBus a) s = .next { s with lastErr := .illegalCommand, errLog := s.errLog ||| 0x0040 }) ∧
    (a.toNat < 128 → s.ts ≠ .closed →
      exec (.openBus a) s = .next { s with lastErr := .invalidState, errLog := s.errLog ||| 0x0020 }) ∧
    (a.toNat < 128 → s.ts = .closed → s.answerAt 0 = some .ok →
      exec (.openBus a) s = .next { s.answerTaken with
        ts := .uninitialized, addr := BitVec.ofNat 7 a.toNat, lastErr := .ok,
        busLog := s.busLog ++ [.opened (BitVec.ofNat 7 a.toNat) .ok] }) ∧
    (a.toNat < 128 → s.ts = .closed → s.answerAt 0 = some .fail →
      exec (.openBus a) s = .next { s.answerTaken with
        lastErr := .deviceUnavailable, errLog := s.errLog ||| 0x0002,
        busLog := s.busLog ++ [.opened (BitVec.ofNat 7 a.toNat) .fail] })

/-- R108 (a): OPEN with no operand is OPEN of the default address, which no source states (log 4): it binds that address when the
bus answers ok, and is unavailable when it answers fail. -/
def Obligations.OpenDefaultBinds : Prop :=
  ∀ s : State, s.ts = .closed →
    (s.answerAt 0 = some .ok →
      exec .openDefault s = .next { s.answerTaken with
        ts := .uninitialized, addr := Config.addrDefault, lastErr := .ok,
        busLog := s.busLog ++ [.opened Config.addrDefault .ok] }) ∧
    (s.answerAt 0 = some .fail →
      exec .openDefault s = .next { s.answerTaken with
        lastErr := .deviceUnavailable, errLog := s.errLog ||| 0x0002,
        busLog := s.busLog ++ [.opened Config.addrDefault .fail] })

/-- R202: a transport command in a state where R201 says refused ends with InvalidState; nothing else changes and the bus is not
called (D6, log 17). -/
def Obligations.WrongStateRefused : Prop :=
  ∀ (i : Instr) (s : State),
    (s.ts ≠ .closed ∧ ((∃ a : Byte, a.toNat < 128 ∧ i = .openBus a) ∨ i = .openDefault)) ∨
      (s.ts ≠ .uninitialized ∧ i = .init) ∨ (s.ts ≠ .initialized ∧ i = .blit) →
    exec i s = .next { s with lastErr := .invalidState, errLog := s.errLog ||| 0x0020 }

/-- R210: INIT with every write acknowledged sends the 28 command transactions of the list in order and leaves the transport
Initialized. That the hidden positions stand at the start afterwards is the model's choice (log 1). -/
def Obligations.InitSendsTheList : Prop :=
  ∀ s : State, s.ts = .uninitialized → allOk s 28 →
    s.initTransactions.length = 28 ∧ (∀ k (h : k < 28), s.initTransactions[k]? = some ([0x00, s.initSeq[k]] : List Byte)) ∧
    exec .init s = .next { s.acknowledged s.initTransactions with ts := .initialized, seq := .start, lastErr := .ok }

/-- R210, R252, R262: INIT whose transaction `k` fails has sent transactions 0 to `k` and no other, releases the handle and ends
with InitFailed; the device's state is then unknown (R73). That the state is Closed then is the spec's choice (D7, log 17), that the
hidden positions stand at the start is the model's (log 1). -/
def Obligations.InitStopsAtFailure : Prop :=
  ∀ (s : State) (k : Nat) (h : k < 28), s.ts = .uninitialized → failsAt s k →
    exec .init s = .next
      (let u := s.acknowledged (s.initTransactions.take k)
       { u.answerTaken with
         ts := .closed, seq := .start, lastErr := .initFailed, errLog := s.errLog ||| 0x0004, dev := u.dev.lost,
         busLog := u.busLog ++ [.wrote [0x00, s.initSeq[k]] .fail, .closed] })

/-- R221: the transactions of a complete BLIT, written out: for each page the three select commands and the page's bytes in runs
of `min(CHUNK_LIMIT, 128)`, the last run shorter where it must be (D21, log 17). -/
def Obligations.BlitSequence : Prop :=
  ∀ s : State, s.chunkLimit ≠ 0 →
    let c := min s.chunkLimit.toNat 128
    s.blitSeq = (List.range 8).flatMap fun p =>
      [[0x00, 0xB0 + BitVec.ofNat 8 p], [0x00, 0x00], [0x00, 0x10]] ++
        (List.range ((128 + c - 1) / c)).map fun j =>
          0x40 :: (List.range (min (j * c + c) 128 - j * c)).map fun k => s.fbByte (p * 128 + j * c + k)

/-- R220, R224: BLIT with every write acknowledged sends exactly blitSeq, in order, keeps the framebuffer and leaves the transport
Initialized. That the hidden positions stand at the start afterwards is the model's choice (log 1). -/
def Obligations.BlitSendsTheFrame : Prop :=
  ∀ s : State, s.ts = .initialized → s.chunkLimit ≠ 0 → allOk s s.blitSeq.length →
    exec .blit s = .next { s.acknowledged s.blitSeq with ts := .initialized, seq := .start, lastErr := .ok }

/-- R223, R220, R262: BLIT whose transaction `k` fails, be it a command or a data transaction, has sent transactions 0 to `k` and no
other, ends with TransferFailed and stays Initialized; the device's state is then unknown (R73). That the session is kept is the
spec's choice (D7, log 17), that the hidden positions stand at the start is the model's (log 1). -/
def Obligations.BlitStopsAtFailure : Prop :=
  ∀ (s : State) (k : Nat) (h : k < s.blitSeq.length), s.ts = .initialized → s.chunkLimit ≠ 0 → failsAt s k →
    exec .blit s = .next
      (let u := s.acknowledged (s.blitSeq.take k)
       { u.answerTaken with
         ts := .initialized, seq := .start, lastErr := .transferFailed, errLog := s.errLog ||| 0x0008, dev := u.dev.lost,
         busLog := u.busLog ++ [.wrote s.blitSeq[k] .fail] })

/-- R222: the chunk limit leaves no trace in the data: for every limit and page the data payloads, joined in order, are the page's
128 bytes; with `n = ceil(128 / min(limit, 128))` a complete BLIT has `8 × (3 + n)` transactions and `8 × (6 + 128 + n)` bytes. -/
def Obligations.ChunkingTransparent : Prop :=
  ∀ s : State, s.chunkLimit ≠ 0 →
    (∀ p, p < 8 → ((s.pageSeq p).filter fun b => b.head? == some 0x40).flatMap List.tail =
      (List.range 128).map fun x => s.fbByte (p * 128 + x)) ∧
    (let c := min s.chunkLimit.toNat 128
     let n := (128 + c - 1) / c
     s.blitSeq.length = 8 * (3 + n) ∧ (s.blitSeq.map List.length).sum = 8 * (6 + 128 + n)) ∧
    (s.chunkLimit = 1 → s.blitSeq.length = 1048 ∧ (s.blitSeq.map List.length).sum = 2096) ∧
    (s.chunkLimit = 16 → s.blitSeq.length = 88 ∧ (s.blitSeq.map List.length).sum = 1136) ∧
    (s.chunkLimit = 48 → s.blitSeq.length = 48 ∧ (s.blitSeq.map List.length).sum = 1096) ∧
    (128 ≤ s.chunkLimit.toNat → s.blitSeq.length = 32 ∧ (s.blitSeq.map List.length).sum = 1080)

/-- R233, R232: after a BLIT that ends with Ok the reference device holds the framebuffer, whatever it held and wherever its
pointers stood before, and for every chunk limit. The reference device is the spec's choice (D27), and its place in State and what
it holds where it is unknown are the model's (log 12). -/
def Obligations.BlitCopiesFramebuffer : Prop :=
  ∀ s : State, s.ts = .initialized → s.chunkLimit ≠ 0 → allOk s s.blitSeq.length →
    ∃ t, exec .blit s = .next t ∧ t.lastErr = .ok ∧ ∀ p x : Nat, p < 8 → x < 128 →
      t.dev.byte (p * 128 + x) = s.fbByte (p * 128 + x) ∧ t.fbByte (p * 128 + x) = s.fbByte (p * 128 + x)

/-- R120, R121, R122, R140, R235, R240: what a host command puts on the bus. Only INIT and BLIT send transactions; each is `[0x00, c]`
or 0x40 and 1 to `min(CHUNK_LIMIT, 128)` payload bytes. -/
def Obligations.OnlyTwoControlBytes : Prop :=
  ∀ (i : Instr) (s t : State), i.isBusSide = false → exec i s = .next t →
    ∃ new, t.busLog = s.busLog ++ new ∧ ∀ (b : List Byte) (ans : BusAnswer), BusEvent.wrote b ans ∈ new →
      (i = .init ∨ i = .blit) ∧
      ((∃ c, b = [0x00, c]) ∨
        ∃ p, b = 0x40 :: p ∧ 1 ≤ p.length ∧ p.length ≤ min s.chunkLimit.toNat 128)

/-- R76: within a host command every transaction before another was answered ok, and nothing is sent after one answered fail. -/
def Obligations.TransactionsStopAtFail : Prop :=
  ∀ (i : Instr) (s t : State), i.isBusSide = false → exec i s = .next t →
    ∃ new, t.busLog = s.busLog ++ new ∧
      ∀ (pre post : List BusEvent) (b : List Byte) (ans : BusAnswer), new = pre ++ BusEvent.wrote b ans :: post →
        (∀ e, e ∈ pre → ∃ c, e = .wrote c .ok) ∧
        (ans = .fail → ∀ (c : List Byte) (a : BusAnswer), BusEvent.wrote c a ∉ post)

/-- R305 and U9: an OPEN, INIT or BLIT one of whose bus calls is never answered never ends; the model says so by a fault, and ends
the command with no result (log 13). -/
def Obligations.NeverAnsweredNeverEnds : Prop :=
  ∀ (s : State) (k : Nat), allOk s k → s.answerAt k = none →
    (∀ a : Byte, a.toNat < 128 → s.ts = .closed → k = 0 → exec (.openBus a) s = .fault .busNeverAnswers) ∧
    (s.ts = .closed → k = 0 → exec .openDefault s = .fault .busNeverAnswers) ∧
    (s.ts = .uninitialized → k < 28 → exec .init s = .fault .busNeverAnswers) ∧
    (s.ts = .initialized → s.chunkLimit ≠ 0 → k < s.blitSeq.length → exec .blit s = .fault .busNeverAnswers)

/-- R235: CLOSE ends with Ok in every state, releases a bound handle, sends no transaction and changes nothing else (D23,
log 17). -/
def Obligations.CloseReleases : Prop :=
  ∀ s : State, exec .close s = .next { s with
    ts := .closed, lastErr := .ok, busLog := s.busLog ++ (if s.ts = .closed then [] else [.closed]) }

/-- R240, R106 (c): SETCHUNK stores its operand in every transport state, larger values than 128 as given; SETCHUNK 0 is an illegal
command and leaves the register (D20, log 17, log 18). -/
def Obligations.SetChunkStores : Prop :=
  ∀ (n : Half) (s : State),
    (n ≠ 0 → exec (.setChunk n) s = .next { s with chunkLimit := n, lastErr := .ok }) ∧
    exec (.setChunk 0) s = .next { s with lastErr := .illegalCommand, errLog := s.errLog ||| 0x0040 }

/-- R201: the transition table. The transport state after a command and its result, for the eight groups of its rows; every other
instruction leaves the transport state alone. -/
def Obligations.TransportTransitions : Prop :=
  ∀ (i : Instr) (s t : State), exec i s = .next t →
    ((∃ a : Byte, a.toNat < 128 ∧ i = .openBus a) ∨ i = .openDefault →
      if s.ts = .closed then (t.ts = .uninitialized ∧ t.lastErr = .ok) ∨ (t.ts = .closed ∧ t.lastErr = .deviceUnavailable)
      else t.ts = s.ts ∧ t.lastErr = .invalidState) ∧
    (i = .init →
      if s.ts = .uninitialized then (t.ts = .initialized ∧ t.lastErr = .ok) ∨ (t.ts = .closed ∧ t.lastErr = .initFailed)
      else t.ts = s.ts ∧ t.lastErr = .invalidState) ∧
    (i = .blit →
      if s.ts = .initialized then t.ts = .initialized ∧ (t.lastErr = .ok ∨ t.lastErr = .transferFailed)
      else t.ts = s.ts ∧ t.lastErr = .invalidState) ∧
    (i = .close → t.ts = .closed ∧ t.lastErr = .ok) ∧
    ((∀ a : Byte, a.toNat < 128 → i ≠ .openBus a) → i ≠ .openDefault → i ≠ .init → i ≠ .blit → i ≠ .close → t.ts = s.ts)

/-! ## The bus side and the reference device (30_encoding.md R120 to R123, 42_transport.md R232) -/

/-- R120, R232: the transaction of BUS.CMD is `[0x00, c]`; acknowledged, 0xB0 to 0xB7 select the page, 0x00 clears the low four bits of
the column, 0x10 clears the others, any other byte changes nothing of the device (log 3: the row is the acknowledged transaction). -/
def Obligations.BusCommandRow : Prop :=
  ∀ (c : Byte) (s : State),
    exec (.busCmd c) s = .next { s with
      busLog := s.busLog ++ [.wrote [0x00, c] .ok],
      dev := { s.dev with
        page := if 0xB0 ≤ c.toNat ∧ c.toNat ≤ 0xB7 then BitVec.ofNat 3 (c.toNat - 0xB0) else s.dev.page,
        col := if c = 0x00 then s.dev.col &&& 0b1110000 else if c = 0x10 then s.dev.col &&& 0b0001111 else s.dev.col } }

/-- R121, R232: the transaction of BUS.DATA is 0x40 and the payload; acknowledged, its bytes go to the selected page from the column
on, in order. Where the payload passes column 127 the rule leaves the pointers open (log 12): only the frame
is stated there. That executing the row is one acknowledged transaction is the model's choice (log 3). -/
def Obligations.BusDataRow : Prop :=
  ∀ (payload : List Byte) (s : State),
    ∃ t, exec (.busData payload) s = .next t ∧
      t = { s with busLog := s.busLog ++ [.wrote (0x40 :: payload) .ok], dev := t.dev } ∧
      (s.dev.col.toNat + payload.length ≤ 128 →
        (∀ a, t.dev.byte a =
          (if s.dev.page.toNat * 128 + s.dev.col.toNat ≤ a then payload[a - (s.dev.page.toNat * 128 + s.dev.col.toNat)]? else none).getD
            (s.dev.byte a))) ∧
      (s.dev.col.toNat + payload.length ≤ 127 →
        t.dev.page = s.dev.page ∧ t.dev.col.toNat = s.dev.col.toNat + payload.length)

/-- R123, R232: DEV.PAGEADDR selects its page, DEV.COLLOW0 and DEV.COLHIGH0 clear their bits of the column; together they reset the
column to 0. That executing a row is one acknowledged transaction, delivered in every transport state, is the model's choice
(log 3). -/
def Obligations.DeviceSelectRows : Prop :=
  ∀ s : State,
    (∀ p : BitVec 3, exec (.devPageAddr p) s = .next { s with
      busLog := s.busLog ++ [.wrote [0x00, 0xB0 + p.setWidth 8] .ok], dev := { s.dev with page := p } }) ∧
    exec .devColLow0 s = .next { s with
      busLog := s.busLog ++ [.wrote [0x00, 0x00] .ok], dev := { s.dev with col := s.dev.col &&& 0b1110000 } } ∧
    exec .devColHigh0 s = .next { s with
      busLog := s.busLog ++ [.wrote [0x00, 0x10] .ok], dev := { s.dev with col := s.dev.col &&& 0b0001111 } } ∧
    ∃ t u, exec .devColLow0 s = .next t ∧ exec .devColHigh0 t = .next u ∧ u.dev.col = 0 ∧ u.dev.page = s.dev.page

/-- R212, R210, R232: each of the 28 rows INIT_SEQ[0] (initSeq0) to INIT_SEQ[27] (initSeq27), which initEntry lists in order,
completes: it is the command transaction of that entry of the list, and the reference device obeys that byte as R232 says. With
the entries the source gives, entry 3 selects page 0, entries 5 and 6 clear the column, entry 16 clears its low four bits, and
entries 13, 18, 20, 22, 24 and 26 change nothing of the device. That executing a row is one acknowledged transaction is the
model's choice (log 3). -/
def Obligations.InitEntryRows : Prop :=
  (List.finRange 28).map Instr.initEntry =
    ([.initSeq0, .initSeq1, .initSeq2, .initSeq3, .initSeq4, .initSeq5, .initSeq6, .initSeq7, .initSeq8, .initSeq9,
      .initSeq10, .initSeq11, .initSeq12, .initSeq13, .initSeq14, .initSeq15, .initSeq16, .initSeq17, .initSeq18, .initSeq19,
      .initSeq20, .initSeq21, .initSeq22, .initSeq23, .initSeq24, .initSeq25, .initSeq26, .initSeq27] : List Instr) ∧
  ∀ s : State,
    (∀ k : Fin 28,
      exec (Instr.initEntry k) s = exec (.busCmd s.initSeq[k]) s ∧
      exec (Instr.initEntry k) s = .next { s with
        busLog := s.busLog ++ [.wrote [0x00, s.initSeq[k]] .ok],
        dev := { s.dev with
          page := if 0xB0 ≤ s.initSeq[k].toNat ∧ s.initSeq[k].toNat ≤ 0xB7 then BitVec.ofNat 3 (s.initSeq[k].toNat - 0xB0)
            else s.dev.page,
          col := if s.initSeq[k] = 0x00 then s.dev.col &&& 0b1110000
            else if s.initSeq[k] = 0x10 then s.dev.col &&& 0b0001111 else s.dev.col } }) ∧
    (initSeqFixed s.initSeq = true →
      (∃ t, exec .initSeq3 s = .next t ∧ t.dev = { s.dev with page := 0 }) ∧
      (∃ t u, exec .initSeq5 s = .next t ∧ exec .initSeq6 t = .next u ∧ u.dev = { s.dev with col := 0 }) ∧
      (∃ t, exec .initSeq16 s = .next t ∧ t.dev = { s.dev with col := s.dev.col &&& 0b1110000 }) ∧
      ∀ i, i ∈ [Instr.initSeq13, .initSeq18, .initSeq20, .initSeq22, .initSeq24, .initSeq26] → ∃ t, exec i s = .next t ∧ t.dev = s.dev)

/-! ## The whole machine -/

/-- R30, R33, R60, R31, R44, R183, R212: the invariant holds right after reset. It asks of the tables only what R183 and
R212 allow; the defaults that meet it are PRESUMED (log 8). -/
def Obligations.InvAtReset : Prop := Inv State.reset

/-- R30, R33, R60, R201, R41: every step keeps the invariant, whatever the host and the bus do. That the hidden
positions stand at the start between commands is the model's choice (log 1). -/
def Obligations.InvKept : Prop := ∀ s t : State, Inv s → step s = .next t → Inv t

/-- R34, R35, R262, R264: a host command that ends with Ok leaves ERRLOG; one that ends with code `k` sets bit `k` of it and no
other; and ERRLOG is sticky: no step but a reset (R45) clears a bit of it (D32, log 17). -/
def Obligations.ErrLogRecordsTheResult : Prop :=
  (∀ (i : Instr) (s t : State), i.isBusSide = false → exec i s = .next t →
    ∀ k : Nat, t.errLog.getLsbD k = (s.errLog.getLsbD k || (decide (1 ≤ k ∧ k < 16) && k == t.lastErr.code))) ∧
  ∀ (s t : State) (k : Nat), step s = .next t → s.errLog.getLsbD k = true → t.errLog.getLsbD k = false →
    ∃ rest, s.inputs = .reset :: rest

/-- R250: which results each command can end with. -/
def Obligations.ResultsOfCommands : Prop :=
  ∀ (i : Instr) (s t : State), i.isBusSide = false → exec i s = .next t →
    (t.lastErr = .deviceUnavailable → (∃ a, i = .openBus a) ∨ i = .openDefault) ∧
    (t.lastErr = .initFailed → i = .init) ∧ (t.lastErr = .transferFailed → i = .blit) ∧
    (t.lastErr = .dimensionMismatch → i = .dither) ∧
    (t.lastErr = .invalidState → (∃ a, i = .openBus a) ∨ i = .openDefault ∨ i = .init ∨ i = .blit) ∧
    (t.lastErr = .illegalCommand → i.operandsLegal = false)

/-- R30, R38, R60, R110, R262: which instructions can change each memory, register and table. The framebuffer changes only by the
store-like commands, CHUNK_LIMIT only by SETCHUNK, ADDR only by OPEN, TS only by OPEN, INIT, BLIT and CLOSE, ERRLOG only by a
command that ends with an error; a row of the bus side writes neither LASTERR nor ERRLOG (log 3); no instruction changes IMG, the
image registers, or a table (R63, R79); the reference device changes only by INIT, BLIT and the rows of the bus side.What the
host's own writes and a reset change is in HostWrites and ResetEvent. -/
def Obligations.WhoWritesWhat : Prop :=
  ∀ (i : Instr) (s t : State), exec i s = .next t →
    (isDrawing i = false → i ≠ .clear → i ≠ .frame → t.fb = s.fb) ∧
    t.img = s.img ∧ t.imgW = s.imgW ∧ t.imgH = s.imgH ∧ t.imgFmt = s.imgFmt ∧ t.resets = s.resets ∧
    ((∀ n, i ≠ .setChunk n) → t.chunkLimit = s.chunkLimit) ∧
    ((∀ a, i ≠ .openBus a) → i ≠ .openDefault → t.addr = s.addr) ∧
    t.font = s.font ∧ t.bayer = s.bayer ∧ t.initSeq = s.initSeq ∧ t.inputs = s.inputs ∧
    ((∀ a, i ≠ .openBus a) → i ≠ .openDefault → i ≠ .init → i ≠ .blit → i ≠ .close → t.ts = s.ts) ∧
    (i.isBusSide = true → t.lastErr = s.lastErr ∧ t.errLog = s.errLog) ∧
    (i.isBusSide = false → t.lastErr = .ok → t.errLog = s.errLog) ∧
    (i ≠ .init → i ≠ .blit → i.isBusSide = false → t.dev = s.dev)

/-- R109: no command reads LASTERR or ERRLOG: run from two states that differ only in these, it ends in two states that differ only in
these, and a host command with the same result. -/
def Obligations.ErrorsDoNotSteer : Prop :=
  ∀ (i : Instr) (s t : State) (e : Result) (l : Half), exec i s = .next t →
    ∃ e' l', exec i { s with lastErr := e, errLog := l } = .next { t with lastErr := e', errLog := l' } ∧
      (i.isBusSide = false → e' = t.lastErr)

/-- R305, R311, R72: while every bus answer that is fixed is given and the host names only instructions that a word can carry, the
machine goes on for any number of steps: no command stops it. -/
def Obligations.RunsGoOn : Prop :=
  ∀ (n : Nat) (s : State), Inv s → none ∉ s.replies →
    (∀ i, HostInput.abstract i ∈ s.inputs → i.operandsFit = true) → safeFor n s

/-- R201, R291: after OPEN, INIT and BLIT, each with every bus call acknowledged, the device holds the framebuffer: the start-up order
shows the frame, from any state in which no handle is bound. The reference device is the spec's choice (D27) and stands in State
as log 12 says. -/
def Obligations.StartUpShowsTheFrame : Prop :=
  ∀ (s : State) (a : Byte), s.ts = .closed → s.chunkLimit ≠ 0 → a.toNat < 128 → allOk s (1 + 28 + s.blitSeq.length) →
    ∃ t u v, exec (.openBus a) s = .next t ∧ exec .init t = .next u ∧ exec .blit u = .next v ∧ v.lastErr = .ok ∧
      v.ts = .initialized ∧ v.addr.toNat = a.toNat ∧ ∀ k, k < 1024 → v.dev.byte k = s.fbByte k
end

