-- ==== Sys2Proof/Laws/Decode.lean ====
section
/-! SUPPORT. Operands of a command word: an operand laid out and read back, and two bytes read and laid out again
(30_encoding.md R102, R104). -/

namespace Sys2Proof

open Sys2Proof.Machine

/-! ### Laid out and read back -/

theorem raw16_bytes (v : Half) : raw16 (lowByte v) (highByte v) = v := by
  apply BitVec.eq_of_getLsbD_eq
  intro i hi
  simp only [raw16, lowByte, highByte, BitVec.getLsbD_append, BitVec.getLsbD_extractLsb']
  by_cases h : i < 8
  · simp [h]
  · simp [h, show i - 8 < 8 by omega, show 8 + (i - 8) = i by omega]

theorem u16_bytes (v : Half) : u16 (lowByte v) (highByte v) = v := raw16_bytes v

theorem fitsS16_iff {v : Int} : fitsS16 v = true ↔ -32768 ≤ v ∧ v ≤ 32767 := by simp [fitsS16]

/-- A coordinate in range, laid out in two bytes, is read back as itself (R104). -/
theorem s16_bytes {v : Int} (h : fitsS16 v = true) :
    s16 (lowByte (BitVec.ofInt 16 v)) (highByte (BitVec.ofInt 16 v)) = v := by
  rw [fitsS16_iff] at h
  rw [s16, raw16_bytes, BitVec.toInt_ofInt]
  exact Int.bmod_eq_of_le (by omega) (by omega)

/-! ### Read and laid out again -/

theorem lowByte_raw16 (lo hi : Byte) : lowByte (raw16 lo hi) = lo := by
  apply BitVec.eq_of_getLsbD_eq
  intro i hi'
  simp only [raw16, lowByte, BitVec.getLsbD_extractLsb', BitVec.getLsbD_append]
  simp [hi']

theorem highByte_raw16 (lo hi : Byte) : highByte (raw16 lo hi) = hi := by
  apply BitVec.eq_of_getLsbD_eq
  intro i hi'
  simp only [raw16, highByte, BitVec.getLsbD_extractLsb', BitVec.getLsbD_append]
  simp [hi']

theorem u16Bytes_u16 (lo hi : Byte) : u16Bytes (u16 lo hi) = [lo, hi] := by
  rw [u16Bytes, u16, lowByte_raw16, highByte_raw16]

theorem s16Bytes_s16 (lo hi : Byte) : s16Bytes (s16 lo hi) = [lo, hi] := by
  rw [s16Bytes, s16, BitVec.ofInt_toInt]; exact u16Bytes_u16 lo hi

/-- Every s16 operand read from a word is in range (R102). -/
theorem fitsS16_s16 (lo hi : Byte) : fitsS16 (s16 lo hi) = true := by
  rw [fitsS16_iff]
  have h1 := BitVec.le_toInt (raw16 lo hi)
  have h2 := BitVec.toInt_lt (x := raw16 lo hi)
  simp only [s16]; constructor <;> omega

/-! ### The device address -/

/-- An address that stands in seven bits has bit 7 clear (R103 FA). -/
theorem addrBit7_setWidth (a : BitVec 7) : addrBit7 (a.setWidth 8) = false := by
  simp [addrBit7]

theorem addr7_setWidth (a : BitVec 7) : addr7 (a.setWidth 8) = a := by
  apply BitVec.eq_of_getLsbD_eq
  intro i hi
  simp [addr7, hi, show i < 8 by omega]

/-- The byte of the page-address command is the one BLIT computes (R123). -/
theorem pageAddrByte_toNat (p : BitVec 3) : (pageAddrByte p).toNat = 0xB0 + p.toNat := by
  revert p; decide

/-! ### Whole words (R101, R103, R105, R106) -/

/-- The raw value of a 16-bit operand (R104). -/
theorem raw16_toNat (lo hi : Byte) : (raw16 lo hi).toNat = lo.toNat + 256 * hi.toNat := by
  rw [raw16, BitVec.toNat_append, Nat.shiftLeft_eq, Nat.mul_comm, ← Nat.two_pow_add_eq_or_of_lt lo.isLt]
  omega

theorem wf_of_fits {i : Instr} (h1 : i.operandsFit = true) (h2 : i.operandsLegal = true) : i.wellFormed = true := by
  rw [Instr.wellFormed, h1, h2]; rfl

/-- A command at the front of a byte string is read back whole, and the rest is left (R101, R103, R105). -/
theorem decodeFront_encode (i : Instr) (hc : i.isCommand = true) (hw : i.wellFormed = true) (r : List Byte) :
    decodeFront (i.encode ++ r) = .ok (i, r) := by
  simp only [Instr.wellFormed, Bool.and_eq_true] at hw
  obtain ⟨hf, hl⟩ := hw
  cases i
  case setPixel x y =>
    simp only [Instr.operandsFit, Bool.and_eq_true] at hf
    simp [Instr.encode, decodeFront, decodeF2, s16Bytes, u16Bytes, s16_bytes, hf]
  case line x y z w =>
    simp only [Instr.operandsFit, Bool.and_eq_true] at hf
    simp [Instr.encode, decodeFront, decodeF4, s16Bytes, u16Bytes, s16_bytes, hf]
  case rect x y z w =>
    simp only [Instr.operandsFit, Bool.and_eq_true] at hf
    simp [Instr.encode, decodeFront, decodeF4, s16Bytes, u16Bytes, s16_bytes, hf]
  case glyph x y ch =>
    simp only [Instr.operandsFit, Bool.and_eq_true] at hf
    simp [Instr.encode, decodeFront, decodeFG, s16Bytes, u16Bytes, s16_bytes, hf]
  case text x y str =>
    simp only [Instr.operandsFit, Bool.and_eq_true, decide_eq_true_eq] at hf
    have hn : (BitVec.ofNat 16 str.length).toNat = str.length := by simp; omega
    simp [Instr.encode, decodeFront, decodeFT, s16Bytes, u16Bytes, s16_bytes, u16_bytes, hf, hn]
  case openBus a =>
    simp [Instr.operandsLegal] at hl
    simp [Instr.encode, decodeFront, decodeFA, hl]
  case setChunk n =>
    simp [Instr.operandsLegal] at hl
    simp [Instr.encode, decodeFront, decodeFN, u16Bytes, u16_bytes, hl]
  all_goals first | (simp [Instr.encode, decodeFront]; done) | (exact absurd hc (by decide)) | skip
  all_goals (simp [Instr.isCommand, Instr.isPseudo, Instr.isBusSide] at hc)

theorem decodeF2_inv {mk : Int → Int → Instr} {b r : List Byte} {i : Instr} (h : decodeF2 mk b = .ok (i, r)) :
    ∃ x y, fitsS16 x = true ∧ fitsS16 y = true ∧ i = mk x y ∧ b = s16Bytes x ++ s16Bytes y ++ r := by
  unfold decodeF2 at h
  split at h
  · injection h with h; injection h with h1 h2
    exact ⟨_, _, fitsS16_s16 _ _, fitsS16_s16 _ _, h1.symm, by simp only [s16Bytes_s16, ← h2]; rfl⟩
  · exact absurd h (by simp)

theorem decodeF4_inv {mk : Int → Int → Int → Int → Instr} {b r : List Byte} {i : Instr} (h : decodeF4 mk b = .ok (i, r)) :
    ∃ x y z w, fitsS16 x = true ∧ fitsS16 y = true ∧ fitsS16 z = true ∧ fitsS16 w = true ∧ i = mk x y z w ∧
      b = s16Bytes x ++ s16Bytes y ++ s16Bytes z ++ s16Bytes w ++ r := by
  unfold decodeF4 at h
  split at h
  · injection h with h; injection h with h1 h2
    exact ⟨_, _, _, _, fitsS16_s16 _ _, fitsS16_s16 _ _, fitsS16_s16 _ _, fitsS16_s16 _ _, h1.symm,
      by simp only [s16Bytes_s16, ← h2]; rfl⟩
  · exact absurd h (by simp)

theorem decodeFG_inv {mk : Int → Int → Byte → Instr} {b r : List Byte} {i : Instr} (h : decodeFG mk b = .ok (i, r)) :
    ∃ x y ch, fitsS16 x = true ∧ fitsS16 y = true ∧ i = mk x y ch ∧ b = s16Bytes x ++ s16Bytes y ++ [ch] ++ r := by
  unfold decodeFG at h
  split at h
  · injection h with h; injection h with h1 h2
    exact ⟨_, _, _, fitsS16_s16 _ _, fitsS16_s16 _ _, h1.symm, by simp only [s16Bytes_s16, ← h2]; rfl⟩
  · exact absurd h (by simp)

theorem decodeFT_inv {mk : Int → Int → List Byte → Instr} {b r : List Byte} {i : Instr} (h : decodeFT mk b = .ok (i, r)) :
    ∃ x y str, fitsS16 x = true ∧ fitsS16 y = true ∧ str.length ≤ 65535 ∧ i = mk x y str ∧
      b = s16Bytes x ++ s16Bytes y ++ u16Bytes (BitVec.ofNat 16 str.length) ++ str ++ r := by
  unfold decodeFT at h
  split at h
  · rename_i n0 n1 rest
    split at h
    · exact absurd h (by simp)
    · rename_i hlen
      injection h with h; injection h with h1 h2
      have hle : (rest.take (u16 n0 n1).toNat).length = (u16 n0 n1).toNat := by rw [List.length_take]; omega
      have := (u16 n0 n1).isLt
      refine ⟨_, _, _, fitsS16_s16 _ _, fitsS16_s16 _ _, by omega, h1.symm, ?_⟩
      simp only [s16Bytes_s16, hle, BitVec.ofNat_toNat, BitVec.setWidth_eq, u16Bytes_u16, ← h2, List.append_assoc,
        List.take_append_drop]
      rfl
  · exact absurd h (by simp)

theorem decodeFA_inv {mk : Byte → Instr} {b r : List Byte} {i : Instr} (h : decodeFA mk b = .ok (i, r)) :
    ∃ a, addrBit7 a = false ∧ i = mk a ∧ b = a :: r := by
  unfold decodeFA at h
  split at h
  · split at h
    · exact absurd h (by simp)
    · injection h with h; injection h with h1 h2
      exact ⟨_, Bool.eq_false_iff.2 ‹_›, h1.symm, by rw [h2]⟩
  · exact absurd h (by simp)

theorem decodeFN_inv {mk : Half → Instr} {b r : List Byte} {i : Instr} (h : decodeFN mk b = .ok (i, r)) :
    ∃ n, n ≠ 0 ∧ i = mk n ∧ b = u16Bytes n ++ r := by
  unfold decodeFN at h
  split at h
  · split at h
    · exact absurd h (by simp)
    · injection h with h; injection h with h1 h2
      exact ⟨_, ‹_›, h1.symm, by rw [u16Bytes_u16, h2]; rfl⟩
  · exact absurd h (by simp)

/-- What reading a command off the front says of the byte string. -/
theorem decodeFront_inv {w : List Byte} {i : Instr} {r : List Byte} (h : decodeFront w = .ok (i, r)) :
    i.isCommand = true ∧ i.wellFormed = true ∧ w = i.encode ++ r := by
  cases w with
  | nil => exact absurd h (by simp [decodeFront])
  | cons op b =>
    dsimp only [decodeFront] at h
    by_cases e : op = 0x01
    · rw [if_pos e] at h; subst e
      injection h with h; injection h with h1 h2; subst h1 h2; exact ⟨rfl, rfl, rfl⟩
    rw [if_neg e] at h; clear e
    by_cases e : op = 0x02
    · rw [if_pos e] at h; subst e
      obtain ⟨x, y, hx, hy, rfl, rfl⟩ := decodeF2_inv h
      exact ⟨rfl, wf_of_fits (by simp [Instr.operandsFit, hx, hy]) rfl, rfl⟩
    rw [if_neg e] at h; clear e
    by_cases e : op = 0x03
    · rw [if_pos e] at h; subst e
      obtain ⟨x, y, z, w, hx, hy, hz, hw, rfl, rfl⟩ := decodeF4_inv h
      exact ⟨rfl, wf_of_fits (by simp [Instr.operandsFit, hx, hy, hz, hw]) rfl, rfl⟩
    rw [if_neg e] at h; clear e
    by_cases e : op = 0x04
    · rw [if_pos e] at h; subst e
      obtain ⟨x, y, z, w, hx, hy, hz, hw, rfl, rfl⟩ := decodeF4_inv h
      exact ⟨rfl, wf_of_fits (by simp [Instr.operandsFit, hx, hy, hz, hw]) rfl, rfl⟩
    rw [if_neg e] at h; clear e
    by_cases e : op = 0x05
    · rw [if_pos e] at h; subst e
      obtain ⟨x, y, ch, hx, hy, rfl, rfl⟩ := decodeFG_inv h
      exact ⟨rfl, wf_of_fits (by simp [Instr.operandsFit, hx, hy]) rfl, rfl⟩
    rw [if_neg e] at h; clear e
    by_cases e : op = 0x06
    · rw [if_pos e] at h; subst e
      obtain ⟨x, y, str, hx, hy, hn, rfl, rfl⟩ := decodeFT_inv h
      exact ⟨rfl, wf_of_fits (by simp [Instr.operandsFit, hx, hy, hn]) rfl, rfl⟩
    rw [if_neg e] at h; clear e
    by_cases e : op = 0x10
    · rw [if_pos e] at h; subst e
      injection h with h; injection h with h1 h2; subst h1 h2; exact ⟨rfl, rfl, rfl⟩
    rw [if_neg e] at h; clear e
    by_cases e : op = 0x20
    · rw [if_pos e] at h; subst e
      obtain ⟨a, ha, rfl, rfl⟩ := decodeFA_inv h
      exact ⟨rfl, wf_of_fits rfl (by simp [Instr.operandsLegal, ha]), rfl⟩
    rw [if_neg e] at h; clear e
    by_cases e : op = 0x21
    · rw [if_pos e] at h; subst e
      injection h with h; injection h with h1 h2; subst h1 h2; exact ⟨rfl, rfl, rfl⟩
    rw [if_neg e] at h; clear e
    by_cases e : op = 0x22
    · rw [if_pos e] at h; subst e
      injection h with h; injection h with h1 h2; subst h1 h2; exact ⟨rfl, rfl, rfl⟩
    rw [if_neg e] at h; clear e
    by_cases e : op = 0x23
    · rw [if_pos e] at h; subst e
      injection h with h; injection h with h1 h2; subst h1 h2; exact ⟨rfl, rfl, rfl⟩
    rw [if_neg e] at h; clear e
    by_cases e : op = 0x24
    · rw [if_pos e] at h; subst e
      obtain ⟨n, hn, rfl, rfl⟩ := decodeFN_inv h
      exact ⟨rfl, wf_of_fits rfl (by rw [Instr.operandsLegal, decide_eq_false hn]; rfl), rfl⟩
    rw [if_neg e] at h; clear e
    exact absurd h (by simp)

theorem decode_ok_iff {w : List Byte} {i : Instr} : decode w = .ok i ↔ decodeFront w = .ok (i, []) := by
  unfold decode
  constructor
  · intro h
    split at h
    · exact absurd h (by simp)
    · injection h with h; subst h; assumption
    · exact absurd h (by simp)
  · intro h; rw [h]

theorem decodeFront_opcode {op : Byte} {r : List Byte}
    (h : op ∉ ([0x01, 0x02, 0x03, 0x04, 0x05, 0x06, 0x10, 0x20, 0x21, 0x22, 0x23, 0x24] : List Byte)) :
    decodeFront (op :: r) = .error (.unassignedOpcode op) := by
  simp only [List.mem_cons, List.not_mem_nil, or_false, not_or] at h
  dsimp only [decodeFront]
  simp only [h, if_false]

theorem decode_error {w : List Byte} {e : DecodeError} (h : decodeFront w = .error e) : decode w = .error e := by
  simp only [decode, h]

/-- Bit 7 of an address byte is set iff the byte is at least 128. -/
theorem addrBit7_eq (a : Byte) : addrBit7 a = decide (128 ≤ a.toNat) := by
  revert a; decide +kernel

theorem addr7_eq (a : Byte) : addr7 a = BitVec.ofNat 7 a.toNat := by
  revert a; decide +kernel

end Sys2Proof
end

