-- ==== Sys2Proof/Laws/Memory.lean ====
section
/-! SUPPORT. Memories: a read after a write, and that every memory operation keeps the canonical form. -/

namespace Sys2Proof.Machine

variable {size : Nat}

namespace Memory

/-! ### Reading after writing -/

theorem lookup_write_self (m : Memory) (a : Nat) (v : Byte) : (m.write a v).lookup a = some v := by
  induction m with
  | nil => simp [write, lookup]
  | cons c m ih =>
    obtain ⟨b, w⟩ := c
    unfold write
    split
    · simp [lookup]
    · split
      · simp [lookup]
      · simpa [lookup, ‹¬a = b›] using ih

theorem lookup_write_other (m : Memory) {a b : Nat} (v : Byte) (h : b ≠ a) : (m.write a v).lookup b = m.lookup b := by
  induction m with
  | nil => simp [write, lookup, h]
  | cons c m ih =>
    obtain ⟨d, w⟩ := c
    unfold write
    split
    · simp [lookup, h]
    · split
      · subst_vars; simp [lookup, h]
      · simp [lookup, ih]

theorem lookup_write (m : Memory) (a b : Nat) (v : Byte) :
    (m.write a v).lookup b = if b = a then some v else m.lookup b := by
  split
  · subst_vars; exact lookup_write_self m _ v
  · exact lookup_write_other m v ‹_›

@[simp] theorem read_write_self (base : Nat → Byte) (m : Memory) (a : Nat) (v : Byte) : (m.write a v).read base a = v := by
  simp [read, lookup_write_self]

theorem read_write_other (base : Nat → Byte) (m : Memory) {a b : Nat} (v : Byte) (h : b ≠ a) :
    (m.write a v).read base b = m.read base b := by
  simp [read, lookup_write_other m v h]

theorem read_write (base : Nat → Byte) (m : Memory) (a b : Nat) (v : Byte) :
    (m.write a v).read base b = if b = a then v else m.read base b := by
  split
  · subst_vars; simp
  · exact read_write_other base m v ‹_›

@[simp] theorem read_nil (base : Nat → Byte) (a : Nat) : read base [] a = base a := rfl

/-! ### Canonical form -/

theorem wfFrom_mono {lo lo' : Nat} {m : Memory} (h : lo' ≤ lo) (hm : m.wfFrom size lo = true) :
    m.wfFrom size lo' = true := by
  cases m with
  | nil => rfl
  | cons c m =>
    simp only [wfFrom, Bool.and_eq_true, decide_eq_true_eq] at hm ⊢
    exact ⟨⟨by omega, hm.1.2⟩, hm.2⟩

theorem write_wfFrom {lo a : Nat} {m : Memory} (v : Byte) (hlo : lo ≤ a) (ha : a < size) (hm : m.wfFrom size lo = true) :
    (m.write a v).wfFrom size lo = true := by
  induction m generalizing lo with
  | nil => simp [write, wfFrom, hlo, ha]
  | cons c m ih =>
    obtain ⟨b, w⟩ := c
    simp only [wfFrom, Bool.and_eq_true, decide_eq_true_eq] at hm
    unfold write
    split
    · simp only [wfFrom, Bool.and_eq_true, decide_eq_true_eq]
      exact ⟨⟨hlo, ha⟩, ⟨by omega, hm.1.2⟩, hm.2⟩
    · split
      · simp only [wfFrom, Bool.and_eq_true, decide_eq_true_eq]
        subst_vars
        exact ⟨⟨hlo, ha⟩, hm.2⟩
      · simp only [wfFrom, Bool.and_eq_true, decide_eq_true_eq]
        exact ⟨hm.1, ih (by omega) hm.2⟩

/-- A write inside the memory keeps the canonical form. -/
theorem write_wf {a : Nat} {m : Memory} (v : Byte) (ha : a < size) (hm : m.wf size = true) : (m.write a v).wf size = true :=
  write_wfFrom v (Nat.zero_le a) ha hm

@[simp] theorem wf_nil : wf size [] = true := rfl

theorem lookup_none_below {lo a : Nat} {m : Memory} (hm : m.wfFrom size lo = true) (ha : a < lo) : m.lookup a = none := by
  induction m generalizing lo with
  | nil => rfl
  | cons c m ih =>
    obtain ⟨b, w⟩ := c
    simp only [wfFrom, Bool.and_eq_true, decide_eq_true_eq] at hm
    have hne : a ≠ b := by omega
    simpa [lookup, hne] using ih hm.2 (by omega)

/-- Two canonical memories that list the same bytes are the same list: equal memories are equal data. -/
theorem ext_of_lookup {lo : Nat} {m n : Memory} (hm : m.wfFrom size lo = true) (hn : n.wfFrom size lo = true)
    (h : ∀ a, m.lookup a = n.lookup a) : m = n := by
  induction m generalizing lo n with
  | nil =>
    cases n with
    | nil => rfl
    | cons d n => simpa [lookup] using h d.1
  | cons c m ih =>
    obtain ⟨b, v⟩ := c
    cases n with
    | nil => simpa [lookup] using h b
    | cons d n =>
      obtain ⟨e, w⟩ := d
      simp only [wfFrom, Bool.and_eq_true, decide_eq_true_eq] at hm hn
      have hbe : b = e := by
        rcases Nat.lt_trichotomy b e with hlt | heq | hgt
        · have := h b
          rw [lookup_none_below (lo := e) (m := (e, w) :: n) (size := size)
            (by simp only [wfFrom, Bool.and_eq_true, decide_eq_true_eq]; exact ⟨⟨Nat.le_refl e, hn.1.2⟩, hn.2⟩) hlt] at this
          simp [lookup] at this
        · exact heq
        · have := h e
          rw [lookup_none_below (lo := b) (m := (b, v) :: m) (size := size)
            (by simp only [wfFrom, Bool.and_eq_true, decide_eq_true_eq]; exact ⟨⟨Nat.le_refl b, hm.1.2⟩, hm.2⟩) hgt] at this
          simp [lookup] at this
      subst hbe
      have hvw : v = w := by simpa [lookup] using h b
      subst hvw
      rw [ih hm.2 hn.2]
      intro a
      rcases Nat.lt_or_ge b a with hab | hab
      · have hne : a ≠ b := by omega
        simpa [lookup, hne] using h a
      · rw [lookup_none_below hm.2 (by omega), lookup_none_below hn.2 (by omega)]

/-! ### A filled memory -/

theorem wfFrom_filled_aux (v : Byte) (lo n : Nat) (h : lo + n ≤ size) :
    Memory.wfFrom size lo ((List.range' lo n).map fun a => (a, v)) = true := by
  induction n generalizing lo with
  | zero => rfl
  | succ n ih =>
    simp only [List.range'_succ, List.map_cons, wfFrom, Bool.and_eq_true, decide_eq_true_eq]
    exact ⟨by omega, ih (lo + 1) (by omega)⟩

theorem filled_wf (n : Nat) (v : Byte) : (filled n v).wf n = true := by
  simpa [filled, wf, List.range_eq_range'] using wfFrom_filled_aux v 0 n (by omega)

theorem lookup_map_range' (v : Byte) (lo n a : Nat) :
    Memory.lookup ((List.range' lo n).map fun a => (a, v)) a = if lo ≤ a ∧ a < lo + n then some v else none := by
  induction n generalizing lo with
  | zero => simp [lookup]
  | succ n ih =>
    simp only [List.range'_succ, List.map_cons, lookup, ih]
    split_ifs <;> first | rfl | omega

theorem lookup_filled (n : Nat) (v : Byte) (a : Nat) : (filled n v).lookup a = if a < n then some v else none := by
  simpa [filled, List.range_eq_range'] using lookup_map_range' v 0 n a

theorem read_filled (base : Nat → Byte) (n : Nat) (v : Byte) {a : Nat} (h : a < n) : (filled n v).read base a = v := by
  simp [read, lookup_filled, h]

end Memory

end Sys2Proof.Machine
end

