-- ==== Sys2Proof/Laws/State.lean ====
section
/-! SUPPORT. What each shared state update does to each field, one lemma a field, true by rfl. -/

namespace Sys2Proof.Machine

/-! ### endOk -/

@[simp] theorem endOk_ts (s : State) : (endOk s).ts = s.ts := rfl
@[simp] theorem endOk_addr (s : State) : (endOk s).addr = s.addr := rfl
@[simp] theorem endOk_chunkLimit (s : State) : (endOk s).chunkLimit = s.chunkLimit := rfl
@[simp] theorem endOk_lastErr (s : State) : (endOk s).lastErr = .ok := rfl
@[simp] theorem endOk_errLog (s : State) : (endOk s).errLog = s.errLog := rfl
@[simp] theorem endOk_imgW (s : State) : (endOk s).imgW = s.imgW := rfl
@[simp] theorem endOk_imgH (s : State) : (endOk s).imgH = s.imgH := rfl
@[simp] theorem endOk_imgFmt (s : State) : (endOk s).imgFmt = s.imgFmt := rfl
@[simp] theorem endOk_fb (s : State) : (endOk s).fb = s.fb := rfl
@[simp] theorem endOk_img (s : State) : (endOk s).img = s.img := rfl
@[simp] theorem endOk_font (s : State) : (endOk s).font = s.font := rfl
@[simp] theorem endOk_bayer (s : State) : (endOk s).bayer = s.bayer := rfl
@[simp] theorem endOk_initSeq (s : State) : (endOk s).initSeq = s.initSeq := rfl
@[simp] theorem endOk_seq (s : State) : (endOk s).seq = s.seq := rfl
@[simp] theorem endOk_busLog (s : State) : (endOk s).busLog = s.busLog := rfl
@[simp] theorem endOk_dev (s : State) : (endOk s).dev = s.dev := rfl
@[simp] theorem endOk_inputs (s : State) : (endOk s).inputs = s.inputs := rfl
@[simp] theorem endOk_replies (s : State) : (endOk s).replies = s.replies := rfl
@[simp] theorem endOk_replyDraws (s : State) : (endOk s).replyDraws = s.replyDraws := rfl
@[simp] theorem endOk_resets (s : State) : (endOk s).resets = s.resets := rfl

/-! ### raise -/

@[simp] theorem raise_ts (r : Result) (s : State) : (raise r s).ts = s.ts := rfl
@[simp] theorem raise_addr (r : Result) (s : State) : (raise r s).addr = s.addr := rfl
@[simp] theorem raise_chunkLimit (r : Result) (s : State) : (raise r s).chunkLimit = s.chunkLimit := rfl
@[simp] theorem raise_lastErr (r : Result) (s : State) : (raise r s).lastErr = r := rfl
@[simp] theorem raise_errLog (r : Result) (s : State) : (raise r s).errLog = stickyBit s.errLog r := rfl
@[simp] theorem raise_imgW (r : Result) (s : State) : (raise r s).imgW = s.imgW := rfl
@[simp] theorem raise_imgH (r : Result) (s : State) : (raise r s).imgH = s.imgH := rfl
@[simp] theorem raise_imgFmt (r : Result) (s : State) : (raise r s).imgFmt = s.imgFmt := rfl
@[simp] theorem raise_fb (r : Result) (s : State) : (raise r s).fb = s.fb := rfl
@[simp] theorem raise_img (r : Result) (s : State) : (raise r s).img = s.img := rfl
@[simp] theorem raise_font (r : Result) (s : State) : (raise r s).font = s.font := rfl
@[simp] theorem raise_bayer (r : Result) (s : State) : (raise r s).bayer = s.bayer := rfl
@[simp] theorem raise_initSeq (r : Result) (s : State) : (raise r s).initSeq = s.initSeq := rfl
@[simp] theorem raise_seq (r : Result) (s : State) : (raise r s).seq = s.seq := rfl
@[simp] theorem raise_busLog (r : Result) (s : State) : (raise r s).busLog = s.busLog := rfl
@[simp] theorem raise_dev (r : Result) (s : State) : (raise r s).dev = s.dev := rfl
@[simp] theorem raise_inputs (r : Result) (s : State) : (raise r s).inputs = s.inputs := rfl
@[simp] theorem raise_replies (r : Result) (s : State) : (raise r s).replies = s.replies := rfl
@[simp] theorem raise_replyDraws (r : Result) (s : State) : (raise r s).replyDraws = s.replyDraws := rfl
@[simp] theorem raise_resets (r : Result) (s : State) : (raise r s).resets = s.resets := rfl

/-! ### drawn -/

@[simp] theorem drawn_ts (ps : List Point) (s : State) : (s.drawn ps).ts = s.ts := rfl
@[simp] theorem drawn_addr (ps : List Point) (s : State) : (s.drawn ps).addr = s.addr := rfl
@[simp] theorem drawn_chunkLimit (ps : List Point) (s : State) : (s.drawn ps).chunkLimit = s.chunkLimit := rfl
@[simp] theorem drawn_lastErr (ps : List Point) (s : State) : (s.drawn ps).lastErr = s.lastErr := rfl
@[simp] theorem drawn_errLog (ps : List Point) (s : State) : (s.drawn ps).errLog = s.errLog := rfl
@[simp] theorem drawn_imgW (ps : List Point) (s : State) : (s.drawn ps).imgW = s.imgW := rfl
@[simp] theorem drawn_imgH (ps : List Point) (s : State) : (s.drawn ps).imgH = s.imgH := rfl
@[simp] theorem drawn_imgFmt (ps : List Point) (s : State) : (s.drawn ps).imgFmt = s.imgFmt := rfl
@[simp] theorem drawn_fb (ps : List Point) (s : State) : (s.drawn ps).fb = s.fb.plotAll (Config.powerOnFb s.resets) ps := rfl
@[simp] theorem drawn_img (ps : List Point) (s : State) : (s.drawn ps).img = s.img := rfl
@[simp] theorem drawn_font (ps : List Point) (s : State) : (s.drawn ps).font = s.font := rfl
@[simp] theorem drawn_bayer (ps : List Point) (s : State) : (s.drawn ps).bayer = s.bayer := rfl
@[simp] theorem drawn_initSeq (ps : List Point) (s : State) : (s.drawn ps).initSeq = s.initSeq := rfl
@[simp] theorem drawn_seq (ps : List Point) (s : State) : (s.drawn ps).seq = s.seq := rfl
@[simp] theorem drawn_busLog (ps : List Point) (s : State) : (s.drawn ps).busLog = s.busLog := rfl
@[simp] theorem drawn_dev (ps : List Point) (s : State) : (s.drawn ps).dev = s.dev := rfl
@[simp] theorem drawn_inputs (ps : List Point) (s : State) : (s.drawn ps).inputs = s.inputs := rfl
@[simp] theorem drawn_replies (ps : List Point) (s : State) : (s.drawn ps).replies = s.replies := rfl
@[simp] theorem drawn_replyDraws (ps : List Point) (s : State) : (s.drawn ps).replyDraws = s.replyDraws := rfl
@[simp] theorem drawn_resets (ps : List Point) (s : State) : (s.drawn ps).resets = s.resets := rfl

/-! ### answerTaken -/

@[simp] theorem answerTaken_ts (s : State) : (s.answerTaken).ts = s.ts := rfl
@[simp] theorem answerTaken_addr (s : State) : (s.answerTaken).addr = s.addr := rfl
@[simp] theorem answerTaken_chunkLimit (s : State) : (s.answerTaken).chunkLimit = s.chunkLimit := rfl
@[simp] theorem answerTaken_lastErr (s : State) : (s.answerTaken).lastErr = s.lastErr := rfl
@[simp] theorem answerTaken_errLog (s : State) : (s.answerTaken).errLog = s.errLog := rfl
@[simp] theorem answerTaken_imgW (s : State) : (s.answerTaken).imgW = s.imgW := rfl
@[simp] theorem answerTaken_imgH (s : State) : (s.answerTaken).imgH = s.imgH := rfl
@[simp] theorem answerTaken_imgFmt (s : State) : (s.answerTaken).imgFmt = s.imgFmt := rfl
@[simp] theorem answerTaken_fb (s : State) : (s.answerTaken).fb = s.fb := rfl
@[simp] theorem answerTaken_img (s : State) : (s.answerTaken).img = s.img := rfl
@[simp] theorem answerTaken_font (s : State) : (s.answerTaken).font = s.font := rfl
@[simp] theorem answerTaken_bayer (s : State) : (s.answerTaken).bayer = s.bayer := rfl
@[simp] theorem answerTaken_initSeq (s : State) : (s.answerTaken).initSeq = s.initSeq := rfl
@[simp] theorem answerTaken_seq (s : State) : (s.answerTaken).seq = s.seq := rfl
@[simp] theorem answerTaken_busLog (s : State) : (s.answerTaken).busLog = s.busLog := rfl
@[simp] theorem answerTaken_dev (s : State) : (s.answerTaken).dev = s.dev := rfl
@[simp] theorem answerTaken_inputs (s : State) : (s.answerTaken).inputs = s.inputs := rfl
@[simp] theorem answerTaken_replies (s : State) : (s.answerTaken).replies = s.replies.tail := rfl
@[simp] theorem answerTaken_replyDraws (s : State) : (s.answerTaken).replyDraws = if s.replies.isEmpty then s.replyDraws + 1 else s.replyDraws := rfl
@[simp] theorem answerTaken_resets (s : State) : (s.answerTaken).resets = s.resets := rfl

/-! ### busOpened -/

@[simp] theorem busOpened_ts (a : BitVec 7) (ans : BusAnswer) (s : State) : (busOpened a ans s).ts = s.ts := rfl
@[simp] theorem busOpened_addr (a : BitVec 7) (ans : BusAnswer) (s : State) : (busOpened a ans s).addr = s.addr := rfl
@[simp] theorem busOpened_chunkLimit (a : BitVec 7) (ans : BusAnswer) (s : State) : (busOpened a ans s).chunkLimit = s.chunkLimit := rfl
@[simp] theorem busOpened_lastErr (a : BitVec 7) (ans : BusAnswer) (s : State) : (busOpened a ans s).lastErr = s.lastErr := rfl
@[simp] theorem busOpened_errLog (a : BitVec 7) (ans : BusAnswer) (s : State) : (busOpened a ans s).errLog = s.errLog := rfl
@[simp] theorem busOpened_imgW (a : BitVec 7) (ans : BusAnswer) (s : State) : (busOpened a ans s).imgW = s.imgW := rfl
@[simp] theorem busOpened_imgH (a : BitVec 7) (ans : BusAnswer) (s : State) : (busOpened a ans s).imgH = s.imgH := rfl
@[simp] theorem busOpened_imgFmt (a : BitVec 7) (ans : BusAnswer) (s : State) : (busOpened a ans s).imgFmt = s.imgFmt := rfl
@[simp] theorem busOpened_fb (a : BitVec 7) (ans : BusAnswer) (s : State) : (busOpened a ans s).fb = s.fb := rfl
@[simp] theorem busOpened_img (a : BitVec 7) (ans : BusAnswer) (s : State) : (busOpened a ans s).img = s.img := rfl
@[simp] theorem busOpened_font (a : BitVec 7) (ans : BusAnswer) (s : State) : (busOpened a ans s).font = s.font := rfl
@[simp] theorem busOpened_bayer (a : BitVec 7) (ans : BusAnswer) (s : State) : (busOpened a ans s).bayer = s.bayer := rfl
@[simp] theorem busOpened_initSeq (a : BitVec 7) (ans : BusAnswer) (s : State) : (busOpened a ans s).initSeq = s.initSeq := rfl
@[simp] theorem busOpened_seq (a : BitVec 7) (ans : BusAnswer) (s : State) : (busOpened a ans s).seq = s.seq := rfl
@[simp] theorem busOpened_busLog (a : BitVec 7) (ans : BusAnswer) (s : State) : (busOpened a ans s).busLog = s.busLog ++ [.opened a ans] := rfl
@[simp] theorem busOpened_dev (a : BitVec 7) (ans : BusAnswer) (s : State) : (busOpened a ans s).dev = s.dev := rfl
@[simp] theorem busOpened_inputs (a : BitVec 7) (ans : BusAnswer) (s : State) : (busOpened a ans s).inputs = s.inputs := rfl
@[simp] theorem busOpened_replies (a : BitVec 7) (ans : BusAnswer) (s : State) : (busOpened a ans s).replies = s.replies.tail := rfl
@[simp] theorem busOpened_replyDraws (a : BitVec 7) (ans : BusAnswer) (s : State) : (busOpened a ans s).replyDraws = if s.replies.isEmpty then s.replyDraws + 1 else s.replyDraws := rfl
@[simp] theorem busOpened_resets (a : BitVec 7) (ans : BusAnswer) (s : State) : (busOpened a ans s).resets = s.resets := rfl

/-! ### busWritten -/

@[simp] theorem busWritten_ts (bytes : List Byte) (ans : BusAnswer) (s : State) : (busWritten bytes ans s).ts = s.ts := rfl
@[simp] theorem busWritten_addr (bytes : List Byte) (ans : BusAnswer) (s : State) : (busWritten bytes ans s).addr = s.addr := rfl
@[simp] theorem busWritten_chunkLimit (bytes : List Byte) (ans : BusAnswer) (s : State) : (busWritten bytes ans s).chunkLimit = s.chunkLimit := rfl
@[simp] theorem busWritten_lastErr (bytes : List Byte) (ans : BusAnswer) (s : State) : (busWritten bytes ans s).lastErr = s.lastErr := rfl
@[simp] theorem busWritten_errLog (bytes : List Byte) (ans : BusAnswer) (s : State) : (busWritten bytes ans s).errLog = s.errLog := rfl
@[simp] theorem busWritten_imgW (bytes : List Byte) (ans : BusAnswer) (s : State) : (busWritten bytes ans s).imgW = s.imgW := rfl
@[simp] theorem busWritten_imgH (bytes : List Byte) (ans : BusAnswer) (s : State) : (busWritten bytes ans s).imgH = s.imgH := rfl
@[simp] theorem busWritten_imgFmt (bytes : List Byte) (ans : BusAnswer) (s : State) : (busWritten bytes ans s).imgFmt = s.imgFmt := rfl
@[simp] theorem busWritten_fb (bytes : List Byte) (ans : BusAnswer) (s : State) : (busWritten bytes ans s).fb = s.fb := rfl
@[simp] theorem busWritten_img (bytes : List Byte) (ans : BusAnswer) (s : State) : (busWritten bytes ans s).img = s.img := rfl
@[simp] theorem busWritten_font (bytes : List Byte) (ans : BusAnswer) (s : State) : (busWritten bytes ans s).font = s.font := rfl
@[simp] theorem busWritten_bayer (bytes : List Byte) (ans : BusAnswer) (s : State) : (busWritten bytes ans s).bayer = s.bayer := rfl
@[simp] theorem busWritten_initSeq (bytes : List Byte) (ans : BusAnswer) (s : State) : (busWritten bytes ans s).initSeq = s.initSeq := rfl
@[simp] theorem busWritten_seq (bytes : List Byte) (ans : BusAnswer) (s : State) : (busWritten bytes ans s).seq = s.seq := rfl
@[simp] theorem busWritten_busLog (bytes : List Byte) (ans : BusAnswer) (s : State) : (busWritten bytes ans s).busLog = s.busLog ++ [.wrote bytes ans] := rfl
@[simp] theorem busWritten_inputs (bytes : List Byte) (ans : BusAnswer) (s : State) : (busWritten bytes ans s).inputs = s.inputs := rfl
@[simp] theorem busWritten_replies (bytes : List Byte) (ans : BusAnswer) (s : State) : (busWritten bytes ans s).replies = s.replies.tail := rfl
@[simp] theorem busWritten_replyDraws (bytes : List Byte) (ans : BusAnswer) (s : State) : (busWritten bytes ans s).replyDraws = if s.replies.isEmpty then s.replyDraws + 1 else s.replyDraws := rfl
@[simp] theorem busWritten_resets (bytes : List Byte) (ans : BusAnswer) (s : State) : (busWritten bytes ans s).resets = s.resets := rfl

/-! ### busClosed -/

@[simp] theorem busClosed_ts (s : State) : (busClosed s).ts = s.ts := rfl
@[simp] theorem busClosed_addr (s : State) : (busClosed s).addr = s.addr := rfl
@[simp] theorem busClosed_chunkLimit (s : State) : (busClosed s).chunkLimit = s.chunkLimit := rfl
@[simp] theorem busClosed_lastErr (s : State) : (busClosed s).lastErr = s.lastErr := rfl
@[simp] theorem busClosed_errLog (s : State) : (busClosed s).errLog = s.errLog := rfl
@[simp] theorem busClosed_imgW (s : State) : (busClosed s).imgW = s.imgW := rfl
@[simp] theorem busClosed_imgH (s : State) : (busClosed s).imgH = s.imgH := rfl
@[simp] theorem busClosed_imgFmt (s : State) : (busClosed s).imgFmt = s.imgFmt := rfl
@[simp] theorem busClosed_fb (s : State) : (busClosed s).fb = s.fb := rfl
@[simp] theorem busClosed_img (s : State) : (busClosed s).img = s.img := rfl
@[simp] theorem busClosed_font (s : State) : (busClosed s).font = s.font := rfl
@[simp] theorem busClosed_bayer (s : State) : (busClosed s).bayer = s.bayer := rfl
@[simp] theorem busClosed_initSeq (s : State) : (busClosed s).initSeq = s.initSeq := rfl
@[simp] theorem busClosed_seq (s : State) : (busClosed s).seq = s.seq := rfl
@[simp] theorem busClosed_busLog (s : State) : (busClosed s).busLog = s.busLog ++ [.closed] := rfl
@[simp] theorem busClosed_dev (s : State) : (busClosed s).dev = s.dev := rfl
@[simp] theorem busClosed_inputs (s : State) : (busClosed s).inputs = s.inputs := rfl
@[simp] theorem busClosed_replies (s : State) : (busClosed s).replies = s.replies := rfl
@[simp] theorem busClosed_replyDraws (s : State) : (busClosed s).replyDraws = s.replyDraws := rfl
@[simp] theorem busClosed_resets (s : State) : (busClosed s).resets = s.resets := rfl

/-! ### busDelivered -/

@[simp] theorem busDelivered_ts (bytes : List Byte) (s : State) : (busDelivered bytes s).ts = s.ts := rfl
@[simp] theorem busDelivered_addr (bytes : List Byte) (s : State) : (busDelivered bytes s).addr = s.addr := rfl
@[simp] theorem busDelivered_chunkLimit (bytes : List Byte) (s : State) : (busDelivered bytes s).chunkLimit = s.chunkLimit := rfl
@[simp] theorem busDelivered_lastErr (bytes : List Byte) (s : State) : (busDelivered bytes s).lastErr = s.lastErr := rfl
@[simp] theorem busDelivered_errLog (bytes : List Byte) (s : State) : (busDelivered bytes s).errLog = s.errLog := rfl
@[simp] theorem busDelivered_imgW (bytes : List Byte) (s : State) : (busDelivered bytes s).imgW = s.imgW := rfl
@[simp] theorem busDelivered_imgH (bytes : List Byte) (s : State) : (busDelivered bytes s).imgH = s.imgH := rfl
@[simp] theorem busDelivered_imgFmt (bytes : List Byte) (s : State) : (busDelivered bytes s).imgFmt = s.imgFmt := rfl
@[simp] theorem busDelivered_fb (bytes : List Byte) (s : State) : (busDelivered bytes s).fb = s.fb := rfl
@[simp] theorem busDelivered_img (bytes : List Byte) (s : State) : (busDelivered bytes s).img = s.img := rfl
@[simp] theorem busDelivered_font (bytes : List Byte) (s : State) : (busDelivered bytes s).font = s.font := rfl
@[simp] theorem busDelivered_bayer (bytes : List Byte) (s : State) : (busDelivered bytes s).bayer = s.bayer := rfl
@[simp] theorem busDelivered_initSeq (bytes : List Byte) (s : State) : (busDelivered bytes s).initSeq = s.initSeq := rfl
@[simp] theorem busDelivered_seq (bytes : List Byte) (s : State) : (busDelivered bytes s).seq = s.seq := rfl
@[simp] theorem busDelivered_busLog (bytes : List Byte) (s : State) : (busDelivered bytes s).busLog = s.busLog ++ [.wrote bytes .ok] := rfl
@[simp] theorem busDelivered_dev (bytes : List Byte) (s : State) : (busDelivered bytes s).dev = s.dev.receive bytes := rfl
@[simp] theorem busDelivered_inputs (bytes : List Byte) (s : State) : (busDelivered bytes s).inputs = s.inputs := rfl
@[simp] theorem busDelivered_replies (bytes : List Byte) (s : State) : (busDelivered bytes s).replies = s.replies := rfl
@[simp] theorem busDelivered_replyDraws (bytes : List Byte) (s : State) : (busDelivered bytes s).replyDraws = s.replyDraws := rfl
@[simp] theorem busDelivered_resets (bytes : List Byte) (s : State) : (busDelivered bytes s).resets = s.resets := rfl

/-! ### imgWrite -/

@[simp] theorem imgWrite_ts (a : BitVec 15) (v : Byte) (s : State) : (imgWrite s a v).ts = s.ts := rfl
@[simp] theorem imgWrite_addr (a : BitVec 15) (v : Byte) (s : State) : (imgWrite s a v).addr = s.addr := rfl
@[simp] theorem imgWrite_chunkLimit (a : BitVec 15) (v : Byte) (s : State) : (imgWrite s a v).chunkLimit = s.chunkLimit := rfl
@[simp] theorem imgWrite_lastErr (a : BitVec 15) (v : Byte) (s : State) : (imgWrite s a v).lastErr = s.lastErr := rfl
@[simp] theorem imgWrite_errLog (a : BitVec 15) (v : Byte) (s : State) : (imgWrite s a v).errLog = s.errLog := rfl
@[simp] theorem imgWrite_imgW (a : BitVec 15) (v : Byte) (s : State) : (imgWrite s a v).imgW = s.imgW := rfl
@[simp] theorem imgWrite_imgH (a : BitVec 15) (v : Byte) (s : State) : (imgWrite s a v).imgH = s.imgH := rfl
@[simp] theorem imgWrite_imgFmt (a : BitVec 15) (v : Byte) (s : State) : (imgWrite s a v).imgFmt = s.imgFmt := rfl
@[simp] theorem imgWrite_fb (a : BitVec 15) (v : Byte) (s : State) : (imgWrite s a v).fb = s.fb := rfl
@[simp] theorem imgWrite_img (a : BitVec 15) (v : Byte) (s : State) : (imgWrite s a v).img = s.img.write a.toNat v := rfl
@[simp] theorem imgWrite_font (a : BitVec 15) (v : Byte) (s : State) : (imgWrite s a v).font = s.font := rfl
@[simp] theorem imgWrite_bayer (a : BitVec 15) (v : Byte) (s : State) : (imgWrite s a v).bayer = s.bayer := rfl
@[simp] theorem imgWrite_initSeq (a : BitVec 15) (v : Byte) (s : State) : (imgWrite s a v).initSeq = s.initSeq := rfl
@[simp] theorem imgWrite_seq (a : BitVec 15) (v : Byte) (s : State) : (imgWrite s a v).seq = s.seq := rfl
@[simp] theorem imgWrite_busLog (a : BitVec 15) (v : Byte) (s : State) : (imgWrite s a v).busLog = s.busLog := rfl
@[simp] theorem imgWrite_dev (a : BitVec 15) (v : Byte) (s : State) : (imgWrite s a v).dev = s.dev := rfl
@[simp] theorem imgWrite_inputs (a : BitVec 15) (v : Byte) (s : State) : (imgWrite s a v).inputs = s.inputs := rfl
@[simp] theorem imgWrite_replies (a : BitVec 15) (v : Byte) (s : State) : (imgWrite s a v).replies = s.replies := rfl
@[simp] theorem imgWrite_replyDraws (a : BitVec 15) (v : Byte) (s : State) : (imgWrite s a v).replyDraws = s.replyDraws := rfl
@[simp] theorem imgWrite_resets (a : BitVec 15) (v : Byte) (s : State) : (imgWrite s a v).resets = s.resets := rfl

@[simp] theorem busWritten_dev_ok (bytes : List Byte) (s : State) : (busWritten bytes .ok s).dev = s.dev.receive bytes := rfl
@[simp] theorem busWritten_dev_fail (bytes : List Byte) (s : State) : (busWritten bytes .fail s).dev = s.dev.lost := rfl

/-! ### hostRead: within a space its contents, outside it a refusal (R38, R68) -/

theorem hostRead_fb (s : State) {i : Nat} (h : i < Config.fbSize) : hostRead s .fb i = .ok ((s.fbByte i).setWidth 16) := if_pos h
theorem hostRead_img (s : State) {i : Nat} (h : i < Config.imgSize) : hostRead s .img i = .ok ((s.imgByte i).setWidth 16) := if_pos h
theorem hostRead_csr (s : State) (n : BitVec 3) : hostRead s .csr n.toNat = .ok (csrRead s n) := by
  have h : n.toNat < 8 := n.isLt
  simp [hostRead, h]
theorem hostRead_outside (s : State) {i : Nat} (h : Config.imgSize ≤ i) (sp : Space) : hostRead s sp i = .error .notExpressible := by
  have h : 32768 ≤ i := h
  cases sp <;> simp only [hostRead, Config.fbSize, Config.imgSize]
  all_goals exact if_neg (by omega)

/-! ### csrWrite: only the three image registers (R38) -/

@[simp] theorem csrWrite_ts (s : State) (n : BitVec 3) (v : Half) : (csrWrite s n v).ts = s.ts := by
  unfold csrWrite; repeat' split
  all_goals rfl
@[simp] theorem csrWrite_addr (s : State) (n : BitVec 3) (v : Half) : (csrWrite s n v).addr = s.addr := by
  unfold csrWrite; repeat' split
  all_goals rfl
@[simp] theorem csrWrite_chunkLimit (s : State) (n : BitVec 3) (v : Half) : (csrWrite s n v).chunkLimit = s.chunkLimit := by
  unfold csrWrite; repeat' split
  all_goals rfl
@[simp] theorem csrWrite_lastErr (s : State) (n : BitVec 3) (v : Half) : (csrWrite s n v).lastErr = s.lastErr := by
  unfold csrWrite; repeat' split
  all_goals rfl
@[simp] theorem csrWrite_errLog (s : State) (n : BitVec 3) (v : Half) : (csrWrite s n v).errLog = s.errLog := by
  unfold csrWrite; repeat' split
  all_goals rfl
@[simp] theorem csrWrite_fb (s : State) (n : BitVec 3) (v : Half) : (csrWrite s n v).fb = s.fb := by
  unfold csrWrite; repeat' split
  all_goals rfl
@[simp] theorem csrWrite_img (s : State) (n : BitVec 3) (v : Half) : (csrWrite s n v).img = s.img := by
  unfold csrWrite; repeat' split
  all_goals rfl
@[simp] theorem csrWrite_font (s : State) (n : BitVec 3) (v : Half) : (csrWrite s n v).font = s.font := by
  unfold csrWrite; repeat' split
  all_goals rfl
@[simp] theorem csrWrite_bayer (s : State) (n : BitVec 3) (v : Half) : (csrWrite s n v).bayer = s.bayer := by
  unfold csrWrite; repeat' split
  all_goals rfl
@[simp] theorem csrWrite_initSeq (s : State) (n : BitVec 3) (v : Half) : (csrWrite s n v).initSeq = s.initSeq := by
  unfold csrWrite; repeat' split
  all_goals rfl
@[simp] theorem csrWrite_seq (s : State) (n : BitVec 3) (v : Half) : (csrWrite s n v).seq = s.seq := by
  unfold csrWrite; repeat' split
  all_goals rfl
@[simp] theorem csrWrite_busLog (s : State) (n : BitVec 3) (v : Half) : (csrWrite s n v).busLog = s.busLog := by
  unfold csrWrite; repeat' split
  all_goals rfl
@[simp] theorem csrWrite_dev (s : State) (n : BitVec 3) (v : Half) : (csrWrite s n v).dev = s.dev := by
  unfold csrWrite; repeat' split
  all_goals rfl
@[simp] theorem csrWrite_inputs (s : State) (n : BitVec 3) (v : Half) : (csrWrite s n v).inputs = s.inputs := by
  unfold csrWrite; repeat' split
  all_goals rfl
@[simp] theorem csrWrite_replies (s : State) (n : BitVec 3) (v : Half) : (csrWrite s n v).replies = s.replies := by
  unfold csrWrite; repeat' split
  all_goals rfl
@[simp] theorem csrWrite_replyDraws (s : State) (n : BitVec 3) (v : Half) : (csrWrite s n v).replyDraws = s.replyDraws := by
  unfold csrWrite; repeat' split
  all_goals rfl
@[simp] theorem csrWrite_resets (s : State) (n : BitVec 3) (v : Half) : (csrWrite s n v).resets = s.resets := by
  unfold csrWrite; repeat' split
  all_goals rfl

/-! ### Reads that depend on a field the update leaves alone -/

@[simp] theorem fbByte_endOk (s : State) (a : Nat) : (endOk s).fbByte a = s.fbByte a := rfl
@[simp] theorem fbByte_raise (r : Result) (s : State) (a : Nat) : (raise r s).fbByte a = s.fbByte a := rfl
@[simp] theorem getPixel_endOk (s : State) (q : Point) : (endOk s).getPixel q = s.getPixel q := rfl

end Sys2Proof.Machine
end

