-- ==== Sys2Proof/Laws/Transport.lean ====
section
/-! SUPPORT. The bus port and the two commands that send many transactions: INIT and BLIT are each the sending of one list of
transactions, which stops at the first that is not acknowledged. -/

namespace Sys2Proof.Machine

/-! ### Answers -/

theorem answerAt_congr {s t : State} (hr : s.replies = t.replies) (hd : s.replyDraws = t.replyDraws) (k : Nat) :
    s.answerAt k = t.answerAt k := by simp only [State.answerAt, hr, hd]

theorem answerAt_answerTaken (s : State) (k : Nat) : s.answerTaken.answerAt k = s.answerAt (k + 1) := by
  cases hr : s.replies with
  | nil => simp [State.answerAt, State.answerTaken, hr]; congr 1; omega
  | cons r rs => simp [State.answerAt, State.answerTaken, hr]

theorem answerAt_busWritten (b : List Byte) (a : BusAnswer) (s : State) (k : Nat) :
    (busWritten b a s).answerAt k = s.answerAt (k + 1) := by
  rw [← answerAt_answerTaken]; exact answerAt_congr rfl rfl k

/-! ### Acknowledged transactions -/

@[simp] theorem acknowledged_nil (s : State) : s.acknowledged [] = s := by simp [State.acknowledged]

theorem acknowledged_cons (s : State) (b : List Byte) (bs : List (List Byte)) :
    s.acknowledged (b :: bs) = (busWritten b .ok s).acknowledged bs := by
  simp only [State.acknowledged, busWritten, State.answerTaken, List.map_cons, List.foldl_cons, List.length_cons,
    List.append_assoc, List.singleton_append, List.drop_tail]
  congr 1
  cases s.replies
  · simp; omega
  · simp

/-! ### Sending a list of transactions (R220, R76) -/

/-- Send transactions one at a time, each after the answer ok to the one before; `okEnd` and `failEnd` are the two ways to end. -/
def sendRun (okEnd failEnd : State → State) : List (List Byte) → State → Answer
  | [], s => .next (okEnd s)
  | b :: bs, s =>
    match s.answerAt 0 with
    | none => .fault .busNeverAnswers
    | some .ok => sendRun okEnd failEnd bs (busWritten b .ok s)
    | some .fail => .next (failEnd (busWritten b .fail s))

variable {okEnd failEnd : State → State}

/-- All answers ok: every transaction is acknowledged. -/
theorem sendRun_ok (bs : List (List Byte)) (s : State) (h : allOk s bs.length) :
    sendRun okEnd failEnd bs s = .next (okEnd (s.acknowledged bs)) := by
  induction bs generalizing s with
  | nil => simp [sendRun]
  | cons b bs ih =>
    have h0 : s.answerAt 0 = some .ok := h 0 (by simp)
    have hs : allOk (busWritten b .ok s) bs.length := fun k hk => by
      rw [answerAt_busWritten]; exact h (k + 1) (by simpa using hk)
    simp only [sendRun, h0, ih _ hs, acknowledged_cons]

/-- The `k`-th answer fails: the transactions before it are acknowledged, it is the last one sent (R223). -/
theorem sendRun_fail (bs : List (List Byte)) (s : State) (k : Nat) (hk : k < bs.length) (h : failsAt s k) :
    sendRun okEnd failEnd bs s = .next (failEnd (busWritten bs[k] .fail (s.acknowledged (bs.take k)))) := by
  induction bs generalizing s k with
  | nil => simp at hk
  | cons b bs ih =>
    cases k with
    | zero => simp [sendRun, h.2]
    | succ k =>
      have h0 : s.answerAt 0 = some .ok := h.1 0 (by omega)
      have hs : failsAt (busWritten b .ok s) k :=
        ⟨fun j hj => by rw [answerAt_busWritten]; exact h.1 (j + 1) (by omega), by rw [answerAt_busWritten]; exact h.2⟩
      simp only [sendRun, h0, ih _ k (by simpa using hk) hs, List.getElem_cons_succ, List.take_succ_cons, acknowledged_cons]

/-- The `k`-th call is never answered: the command never ends (U9). -/
theorem sendRun_never (bs : List (List Byte)) (s : State) (k : Nat) (hk : k < bs.length) (h : allOk s k)
    (hn : s.answerAt k = none) : sendRun okEnd failEnd bs s = .fault .busNeverAnswers := by
  induction bs generalizing s k with
  | nil => simp at hk
  | cons b bs ih =>
    cases k with
    | zero => simp [sendRun, hn]
    | succ k =>
      have h0 : s.answerAt 0 = some .ok := h 0 (by omega)
      simp only [sendRun, h0]
      exact ih _ k (by simpa using hk) (fun j hj => by rw [answerAt_busWritten]; exact h (j + 1) (by omega))
        (by rw [answerAt_busWritten]; exact hn)

/-- The next `n` bus calls are all acknowledged, or there is a first that fails, or a first that is never answered. -/
theorem answers_cases (s : State) (n : Nat) :
    allOk s n ∨ (∃ k, k < n ∧ failsAt s k) ∨ ∃ k, k < n ∧ allOk s k ∧ s.answerAt k = none := by
  induction n with
  | zero => exact .inl fun k hk => absurd hk (by omega)
  | succ n ih =>
    rcases ih with hok | ⟨k, hk, hf⟩ | ⟨k, hk, hn⟩
    · rcases ha : s.answerAt n with _ | (_ | _)
      · exact .inr (.inr ⟨n, by omega, hok, ha⟩)
      · refine .inl fun k hk => ?_
        rcases Nat.lt_or_ge k n with h | h
        · exact hok k h
        · rw [show k = n by omega]; exact ha
      · exact .inr (.inl ⟨n, by omega, hok, ha⟩)
    · exact .inr (.inl ⟨k, by omega, hf⟩)
    · exact .inr (.inr ⟨k, by omega, hn⟩)

/-- Everything a sending can end in. -/
theorem sendRun_cases {bs : List (List Byte)} {s t : State} (h : sendRun okEnd failEnd bs s = .next t) :
    (allOk s bs.length ∧ t = okEnd (s.acknowledged bs)) ∨
      ∃ k, ∃ hk : k < bs.length, failsAt s k ∧ t = failEnd (busWritten bs[k] .fail (s.acknowledged (bs.take k))) := by
  rcases answers_cases s bs.length with hok | ⟨k, hk, hf⟩ | ⟨k, hk, hok, hn⟩
  · rw [sendRun_ok bs s hok] at h
    exact .inl ⟨hok, by injection h with h; exact h.symm⟩
  · rw [sendRun_fail bs s k hk hf] at h
    exact .inr ⟨k, hk, hf, by injection h with h; exact h.symm⟩
  · rw [sendRun_never bs s k hk hok hn] at h
    exact absurd h (by simp)

/-- The positions and the transport state that a run passes through are not seen at its end, when the ends overwrite them. -/
theorem sendRun_irrelevant (hok : ∀ s ts q, okEnd { s with ts := ts, seq := q } = okEnd s)
    (hfail : ∀ s ts q, failEnd { s with ts := ts, seq := q } = failEnd s) (bs : List (List Byte)) (s : State)
    (ts : TransportState) (q : SeqPos) :
    sendRun okEnd failEnd bs { s with ts := ts, seq := q } = sendRun okEnd failEnd bs s := by
  induction bs generalizing s with
  | nil => simp [sendRun, hok]
  | cons b bs ih =>
    have ha : State.answerAt { s with ts := ts, seq := q } 0 = s.answerAt 0 := answerAt_congr rfl rfl 0
    simp only [sendRun, ha]
    cases s.answerAt 0 with
    | none => rfl
    | some a =>
      cases a with
      | ok => exact ih (busWritten b .ok s)
      | fail => exact congrArg _ (hfail (busWritten b .fail s) ts q)

/-! ### INIT (R210) -/

/-- How INIT ends when every transaction was acknowledged. -/
def initOk (s : State) : State := endOk { s with ts := .initialized, seq := .start }

/-- How INIT ends at a failing transaction. -/
def initFail (s : State) : State := raise .initFailed { busClosed s with ts := .closed, seq := .start }

/-- The transactions of INIT from position `i` on. -/
def State.initFrom (s : State) (i : Nat) : List (List Byte) := (s.initSeq.toList.drop i).map cmdTransaction

theorem initFrom_step (s : State) {i : Nat} (hi : i < 28) :
    s.initFrom i = cmdTransaction (s.initByte i) :: s.initFrom (i + 1) := by
  have hlen : i < s.initSeq.toList.length := by simpa using hi
  simp only [State.initFrom, State.initByte]
  rw [List.drop_eq_getElem_cons hlen, List.map_cons, List.getD_eq_getElem _ _ hlen]

theorem initFrom_end (s : State) : s.initFrom 28 = [] := by
  have : s.initSeq.toList.length ≤ 28 := by simp
  simp [State.initFrom, List.drop_eq_nil_of_le this]

theorem initRun_eq_sendRun (n i : Nat) (s : State) (hn : n + i = 28) (hpos : 0 < n) (hts : s.ts = .uninitialized)
    (hip : s.seq.ip = i) : initRun n s = sendRun initOk initFail (s.initFrom i) s := by
  induction n generalizing i s with
  | zero => omega
  | succ n ih =>
    have hi : i < 28 := by omega
    rw [initFrom_step s hi]
    simp only [initRun, hts, if_true, sendRun]
    cases s.answerAt 0 with
    | none => rfl
    | some a =>
      cases a with
      | fail =>
        cases n <;> simp [initRun, initMicroStep, initFail, State.initTransaction, hip]
      | ok =>
        by_cases hlast : i + 1 = 28
        · have hn0 : n = 0 := by omega
          subst hn0
          simp [initRun, initMicroStep, initOk, State.initTransaction, hip, hlast, initFrom_end, sendRun]
        · have hstep : initMicroStep .ok s =
              { busWritten (cmdTransaction (s.initByte i)) .ok s with seq := { s.seq with ip := i + 1 } } := by
            simp [initMicroStep, State.initTransaction, hip, hlast]
          change initRun n (initMicroStep .ok s) = _
          rw [hstep, ih (i + 1) _ (by omega) (by omega) (by simpa using hts) rfl]
          have := sendRun_irrelevant (okEnd := initOk) (failEnd := initFail) (fun _ _ _ => rfl) (fun _ _ _ => rfl)
            (s.initFrom (i + 1)) (busWritten (cmdTransaction (s.initByte i)) .ok s)
            (busWritten (cmdTransaction (s.initByte i)) .ok s).ts { s.seq with ip := i + 1 }
          exact this

/-- INIT, in its legal state, is the sending of its 28 transactions (R210). -/
theorem execInit_eq_sendRun (s : State) (h : s.ts = .uninitialized) :
    execInit s = sendRun initOk initFail s.initTransactions s := by
  have := initRun_eq_sendRun 28 0 { s with seq := .start } (by omega) (by omega) h rfl
  unfold execInit
  rw [if_neg (by simp [h]), this]
  exact sendRun_irrelevant (fun _ _ _ => rfl) (fun _ _ _ => rfl) _ s s.ts .start

theorem initTransactions_length (s : State) : s.initTransactions.length = 28 := by simp [State.initTransactions]

/-! ### BLIT (R220, R221, R224) -/

/-- How BLIT ends when every transaction was acknowledged. -/
def blitOk (s : State) : State := endOk { s with ts := .initialized, seq := .start }

/-- How BLIT ends at a failing transaction. -/
def blitFail (s : State) : State := raise .transferFailed { s with ts := .initialized, seq := .start }

theorem chunk_pos {limit : Half} (h : limit ≠ 0) : 0 < chunk limit := by
  have : limit.toNat ≠ 0 := fun h0 => h (BitVec.eq_of_toNat_eq (by simpa using h0))
  simp only [chunk, Config.width]; omega

theorem chunk_le (limit : Half) : chunk limit ≤ 128 := by simp only [chunk, Config.width]; omega

/-- How many data transactions a page has (R221). -/
def chunkCount (limit : Half) : Nat := (128 + chunk limit - 1) / chunk limit

/-- The `j`-th data transaction exists iff its offset is on the page. -/
theorem lt_chunkCount {limit : Half} (h : limit ≠ 0) (j : Nat) : j < chunkCount limit ↔ j * chunk limit < 128 := by
  have hc := chunk_pos h
  rw [chunkCount, ← Nat.succ_le_iff, Nat.le_div_iff_mul_le hc, Nat.succ_mul]
  omega

theorem chunkCount_pos {limit : Half} (h : limit ≠ 0) : 0 < chunkCount limit := by
  rw [lt_chunkCount h]; simp

theorem chunkCount_le {limit : Half} (h : limit ≠ 0) : chunkCount limit ≤ 128 := by
  by_contra hlt
  have := (lt_chunkCount h 128).1 (by omega)
  have := chunk_pos h
  nlinarith

/-- The data transactions of page `p` from the `j`-th on. -/
def State.dataFrom (s : State) (p j : Nat) : List (List Byte) :=
  (List.range' j (chunkCount s.chunkLimit - j)).map fun i => s.chunkTransaction p (i * chunk s.chunkLimit)

/-- The transactions of the pages from `p` on. -/
def State.pagesFrom (s : State) (p : Nat) : List (List Byte) := (List.range' p (8 - p)).flatMap s.pageSeq

/-- The transactions a BLIT has still to send at a position. -/
def State.blitRest (s : State) (q : SeqPos) : List (List Byte) :=
  match q.ph with
  | .pageAddress => s.pagesFrom q.bp
  | .columnLow => cmdTransaction 0x00 :: cmdTransaction 0x10 :: (s.dataFrom q.bp 0 ++ s.pagesFrom (q.bp + 1))
  | .columnHigh => cmdTransaction 0x10 :: (s.dataFrom q.bp 0 ++ s.pagesFrom (q.bp + 1))
  | .data => s.dataFrom q.bp (q.off / chunk s.chunkLimit) ++ s.pagesFrom (q.bp + 1)

/-- A position a BLIT can be at: a page of the display, and in the data phase a multiple of the chunk size on the page. -/
def State.blitAt (s : State) (q : SeqPos) : Prop :=
  q.bp < 8 ∧ (q.ph = .data → ∃ j, q.off = j * chunk s.chunkLimit ∧ q.off < 128)

theorem pageSeq_eq (s : State) (p : Nat) :
    s.pageSeq p = cmdTransaction (pageCommand p) :: cmdTransaction 0x00 :: cmdTransaction 0x10 :: s.dataFrom p 0 := by
  simp [State.pageSeq, State.dataFrom, chunkOffsets, chunkCount, List.range_eq_range', Function.comp_def]

theorem pagesFrom_step (s : State) {p : Nat} (hp : p < 8) : s.pagesFrom p = s.pageSeq p ++ s.pagesFrom (p + 1) := by
  have h : 8 - p = (8 - (p + 1)) + 1 := by omega
  simp only [State.pagesFrom]
  rw [h, List.range'_succ, List.flatMap_cons]

theorem pagesFrom_end (s : State) : s.pagesFrom 8 = [] := by simp [State.pagesFrom]

theorem dataFrom_step (s : State) (p : Nat) {j : Nat} (hj : j < chunkCount s.chunkLimit) :
    s.dataFrom p j = s.chunkTransaction p (j * chunk s.chunkLimit) :: s.dataFrom p (j + 1) := by
  have h : chunkCount s.chunkLimit - j = (chunkCount s.chunkLimit - (j + 1)) + 1 := by omega
  simp only [State.dataFrom]
  rw [h, List.range'_succ, List.map_cons]

theorem dataFrom_end (s : State) (p : Nat) : s.dataFrom p (chunkCount s.chunkLimit) = [] := by simp [State.dataFrom]

/-- One micro-step sends the first of the transactions that are left, and moves to a position where the others are left (R224). -/
theorem blitRest_step (s : State) (hc : s.chunkLimit ≠ 0) (h : s.blitAt s.seq) :
    s.blitRest s.seq = s.blitTransaction :: s.blitRest s.blitAdvance ∧
      (s.blitAdvance.bp = 8 → s.blitRest s.blitAdvance = []) ∧ (s.blitAdvance.bp ≠ 8 → s.blitAt s.blitAdvance) := by
  obtain ⟨hbp, hdata⟩ := h
  have hpos := chunk_pos hc
  cases hph : s.seq.ph with
  | pageAddress =>
    refine ⟨?_, ?_, ?_⟩
    · simp only [State.blitRest, State.blitTransaction, State.blitAdvance, hph]
      rw [pagesFrom_step s hbp, pageSeq_eq]; rfl
    · simp only [State.blitAdvance, hph]; omega
    · simp [State.blitAdvance, hph, State.blitAt, hbp]
  | columnLow =>
    refine ⟨by simp only [State.blitRest, State.blitTransaction, State.blitAdvance, hph], ?_, ?_⟩
    · simp only [State.blitAdvance, hph]; omega
    · simp [State.blitAdvance, hph, State.blitAt, hbp]
  | columnHigh =>
    refine ⟨by simp [State.blitRest, State.blitTransaction, State.blitAdvance, hph], ?_, ?_⟩
    · simp only [State.blitAdvance, hph]; omega
    · simp [State.blitAdvance, hph, State.blitAt, hbp]
  | data =>
    obtain ⟨j, hoff, hlt⟩ := hdata hph
    have hdiv : s.seq.off / chunk s.chunkLimit = j := by rw [hoff, Nat.mul_div_cancel _ hpos]
    have hj : j < chunkCount s.chunkLimit := (lt_chunkCount hc j).2 (hoff ▸ hlt)
    have hnext : s.seq.off + chunk s.chunkLimit = (j + 1) * chunk s.chunkLimit := by rw [hoff, Nat.succ_mul]
    by_cases hend : s.seq.off + chunk s.chunkLimit ≥ 128
    · have hlast : j + 1 = chunkCount s.chunkLimit := by
        have : ¬ j + 1 < chunkCount s.chunkLimit := fun hl => by
          have := (lt_chunkCount hc (j + 1)).1 hl; omega
        omega
      refine ⟨?_, ?_, ?_⟩
      · simp only [State.blitRest, State.blitTransaction, State.blitAdvance, hph, Config.width, hend, if_true, hdiv]
        rw [dataFrom_step s _ hj, hlast, dataFrom_end, ← hoff]; rfl
      · simp only [State.blitAdvance, hph, Config.width, hend, if_true, State.blitRest]
        intro h8
        rw [h8, pagesFrom_end]
      · simp only [State.blitAdvance, hph, Config.width, hend, if_true, State.blitAt]
        exact fun h8 => ⟨by omega, by simp⟩
    · refine ⟨?_, ?_, ?_⟩
      · simp only [State.blitRest, State.blitTransaction, State.blitAdvance, hph, Config.width, hend, if_false, hdiv]
        rw [dataFrom_step s _ hj, ← hoff, hnext, Nat.mul_div_cancel _ hpos]; rfl
      · simp only [State.blitAdvance, hph, Config.width, hend, if_false]; omega
      · simp only [State.blitAdvance, hph, Config.width, hend, if_false, State.blitAt]
        exact fun _ => ⟨hbp, fun _ => ⟨j + 1, hnext, by omega⟩⟩

theorem blitRest_busWritten (s : State) (b : List Byte) (a : BusAnswer) (q : SeqPos) :
    State.blitRest { busWritten b a s with seq := q } = s.blitRest := rfl

theorem blitRun_eq_sendRun (n : Nat) (s : State) (hc : s.chunkLimit ≠ 0) (hts : s.ts = .streaming) (hat : s.blitAt s.seq)
    (hlen : (s.blitRest s.seq).length ≤ n) : blitRun n s = sendRun blitOk blitFail (s.blitRest s.seq) s := by
  induction n generalizing s with
  | zero =>
    have := (blitRest_step s hc hat).1
    rw [this] at hlen
    simp at hlen
  | succ n ih =>
    obtain ⟨hrest, hend, hmore⟩ := blitRest_step s hc hat
    rw [hrest] at hlen ⊢
    simp only [blitRun, hts, if_true, sendRun]
    cases s.answerAt 0 with
    | none => rfl
    | some a =>
      cases a with
      | fail => cases n <;> simp [blitRun, blitMicroStep, blitFail]
      | ok =>
        by_cases h8 : s.blitAdvance.bp = 8
        · rw [hend h8]
          cases n <;> simp [blitRun, blitMicroStep, blitOk, h8, sendRun]
        · have hstep : blitMicroStep .ok s = { busWritten s.blitTransaction .ok s with seq := s.blitAdvance } := by
            simp [blitMicroStep, h8]
          have hnext := ih { busWritten s.blitTransaction .ok s with seq := s.blitAdvance } hc hts (hmore h8)
            (by change (s.blitRest s.blitAdvance).length ≤ n; simpa using hlen)
          simp only [hstep]
          rw [hnext]
          exact sendRun_irrelevant (okEnd := blitOk) (failEnd := blitFail) (fun _ _ _ => rfl) (fun _ _ _ => rfl)
            (s.blitRest s.blitAdvance) (busWritten s.blitTransaction .ok s) (busWritten s.blitTransaction .ok s).ts
            s.blitAdvance

theorem blitSeq_eq_pagesFrom (s : State) : s.blitSeq = s.pagesFrom 0 := by
  simp [State.blitSeq, State.pagesFrom, List.range_eq_range', Config.pages]

theorem pageSeq_length (s : State) (p : Nat) : (s.pageSeq p).length = 3 + chunkCount s.chunkLimit := by
  rw [pageSeq_eq]; simp [State.dataFrom]; omega

/-- A complete BLIT has `P × (3 + ceil(W / c))` transactions (R222). -/
theorem blitSeq_length (s : State) : s.blitSeq.length = 8 * (3 + chunkCount s.chunkLimit) := by
  simp [State.blitSeq, Config.pages, List.length_flatMap, pageSeq_length]
  ring

/-- BLIT, in its legal state, is the sending of `blitSeq` (R220; R224, whose micro-steps the meaning runs). -/
theorem execBlit_eq_sendRun (s : State) (h : s.ts = .initialized) (hc : s.chunkLimit ≠ 0) :
    execBlit s = sendRun blitOk blitFail s.blitSeq s := by
  have hrest : State.blitRest { s with ts := .streaming, seq := .start } SeqPos.start = s.blitSeq := by
    rw [blitSeq_eq_pagesFrom]; rfl
  have hlen : s.blitSeq.length ≤ blitBound := by
    have := chunkCount_le hc
    rw [blitSeq_length, blitBound]; omega
  have hrun := blitRun_eq_sendRun blitBound { s with ts := .streaming, seq := .start } hc rfl
    ⟨by simp [SeqPos.start], by simp [SeqPos.start]⟩ (by simpa only [hrest] using hlen)
  unfold execBlit
  rw [if_neg (by simp [h]), if_neg hc, hrun, hrest]
  exact sendRun_irrelevant (fun _ _ _ => rfl) (fun _ _ _ => rfl) _ s .streaming .start

/-! ### More of the lists sent -/

theorem initTransactions_get (s : State) (k : Nat) (h : k < 28) : s.initTransactions[k]? = some ([0x00, s.initSeq[k]] : List Byte) := by
  rw [State.initTransactions, List.getElem?_map, List.getElem?_eq_getElem (by simpa using h)]
  simp [cmdTransaction]

theorem mem_initTransactions {s : State} {b : List Byte} (h : b ∈ s.initTransactions) : ∃ c, b = [0x00, c] := by
  simp only [State.initTransactions, List.mem_map] at h
  obtain ⟨c, -, rfl⟩ := h; exact ⟨c, rfl⟩

/-- The answers after a list of acknowledged transactions. -/
theorem answerAt_acknowledged (bs : List (List Byte)) (s : State) (k : Nat) :
    (s.acknowledged bs).answerAt k = s.answerAt (k + bs.length) := by
  induction bs generalizing s with
  | nil => simp
  | cons b bs ih =>
    rw [acknowledged_cons, ih, answerAt_busWritten, List.length_cons]; congr 1

theorem answerAt_some {s : State} (h : none ∉ s.replies) (k : Nat) : ∃ a, s.answerAt k = some a := by
  unfold State.answerAt
  split
  · rename_i r hr
    cases r with
    | none => exact absurd (List.mem_of_getElem? hr) h
    | some a => exact ⟨a, rfl⟩
  · exact ⟨_, rfl⟩

theorem sendRun_next {okE failE : State → State} {bs : List (List Byte)} {s : State} (h : none ∉ s.replies) :
    ∃ t, sendRun okE failE bs s = .next t := by
  rcases answers_cases s bs.length with hok | ⟨k, hk, hf⟩ | ⟨k, hk, hok, hn⟩
  · exact ⟨_, sendRun_ok bs s hok⟩
  · exact ⟨_, sendRun_fail bs s k hk hf⟩
  · obtain ⟨a, ha⟩ := answerAt_some h k
    rw [hn] at ha; exact absurd ha (by simp)

end Sys2Proof.Machine
end

