-- ==== Sys2Proof/Laws/Device.lean ====
section
/-! SUPPORT. The reference device (42_transport.md R232): what command bytes and data bytes do to it, and that the boundaries
between data transactions leave no trace (R222). -/

namespace Sys2Proof.Machine

/-! ### Command bytes -/

@[simp] theorem receive_cmd (d : Device) (c : Byte) : d.receive (cmdTransaction c) = d.command c := by
  simp [Device.receive, cmdTransaction]

@[simp] theorem receive_data (d : Device) (l : List Byte) : d.receive (dataTransaction l) = l.foldl Device.putByte d := by
  simp [Device.receive, dataTransaction]

/-- What a command byte can do to the device: move the page or the column pointer, or nothing (R232). -/
theorem command_cases (d : Device) (c : Byte) :
    (0xB0 ≤ c.toNat ∧ c.toNat ≤ 0xB7 ∧ d.command c = { d with page := BitVec.ofNat 3 (c.toNat - 0xB0) }) ∨
      ∃ m, d.command c = { d with col := d.col &&& m } := by
  unfold Device.command
  by_cases h1 : 0xB0 ≤ c.toNat ∧ c.toNat ≤ 0xB7
  · exact .inl ⟨h1.1, h1.2, by rw [if_pos h1]⟩
  · rw [if_neg h1]
    by_cases h2 : c = 0x00
    · exact .inr ⟨0b1110000, by rw [if_pos h2]⟩
    · rw [if_neg h2]
      by_cases h3 : c = 0x10
      · exact .inr ⟨0b0001111, by rw [if_pos h3]⟩
      · exact .inr ⟨0b1111111, by rw [if_neg h3, show ∀ k : BitVec 7, k &&& 0b1111111 = k by decide]⟩

theorem command_page (d : Device) {p : Nat} (hp : p < 8) :
    d.command (pageCommand p) = { d with page := BitVec.ofNat 3 p } := by
  have h : (pageCommand p).toNat = 0xB0 + p := by
    simp [pageCommand, BitVec.toNat_add]; omega
  unfold Device.command
  rw [h, if_pos (by omega), Nat.add_sub_cancel_left]

theorem command_columnLow (d : Device) : d.command 0x00 = { d with col := d.col &&& 0b1110000 } := by
  unfold Device.command
  rw [if_neg (by decide), if_pos rfl]

theorem command_columnHigh (d : Device) : d.command 0x10 = { d with col := d.col &&& 0b0001111 } := by
  unfold Device.command
  rw [if_neg (by decide), if_neg (by decide), if_pos rfl]

/-- The two column commands together reset the column to 0 (R123). -/
theorem command_columns (d : Device) : (d.command 0x00).command 0x10 = { d with col := 0 } := by
  rw [command_columnLow, command_columnHigh]
  have h : ∀ c : BitVec 7, c &&& 0b1110000 &&& 0b0001111 = 0 := by decide
  simp only [h]

/-- A command byte leaves the device memory and the draws alone. -/
theorem command_mem (d : Device) (c : Byte) :
    (d.command c).mem = d.mem ∧ (d.command c).memDraw = d.memDraw ∧ (d.command c).draws = d.draws := by
  rcases command_cases d c with ⟨-, -, h⟩ | ⟨m, h⟩
  · rw [h]; exact ⟨rfl, rfl, rfl⟩
  · rw [h]; exact ⟨rfl, rfl, rfl⟩

theorem byte_command (d : Device) (c : Byte) (a : Nat) : (d.command c).byte a = d.byte a := by
  simp only [Device.byte, (command_mem d c).1, (command_mem d c).2.1]

/-! ### Data bytes -/

theorem putByte_mem (d : Device) (v : Byte) : (d.putByte v).mem = d.mem.write (d.page.toNat * 128 + d.col.toNat) v := by
  unfold Device.putByte; dsimp only; split <;> rfl

theorem putByte_memDraw (d : Device) (v : Byte) : (d.putByte v).memDraw = d.memDraw := by
  unfold Device.putByte; dsimp only; split <;> rfl

theorem byte_putByte (d : Device) (v : Byte) (a : Nat) :
    (d.putByte v).byte a = if a = d.page.toNat * 128 + d.col.toNat then v else d.byte a := by
  simp only [Device.byte, putByte_mem, putByte_memDraw, Memory.read_write]

theorem putByte_next (d : Device) (v : Byte) (h : d.col.toNat < 127) :
    (d.putByte v).page = d.page ∧ (d.putByte v).col.toNat = d.col.toNat + 1 := by
  have hne : d.col ≠ 127 := fun he => by simp [he] at h
  unfold Device.putByte
  dsimp only
  rw [if_neg hne]
  refine ⟨rfl, ?_⟩
  simp [BitVec.toNat_add]; omega

/-- Data bytes that fit on the page from the column on are written one after the other; no other byte of the device changes. -/
theorem byte_putBytes (l : List Byte) (d : Device) (h : d.col.toNat + l.length ≤ 128) (a : Nat) :
    (l.foldl Device.putByte d).byte a =
      (if d.page.toNat * 128 + d.col.toNat ≤ a then l[a - (d.page.toNat * 128 + d.col.toNat)]? else none).getD (d.byte a) := by
  induction l generalizing d with
  | nil => simp
  | cons v l ih =>
    rw [List.foldl_cons]
    rcases Nat.lt_or_ge d.col.toNat 127 with hlt | hge
    · obtain ⟨hp, hc⟩ := putByte_next d v hlt
      rw [ih _ (by rw [hc]; simp at h; omega), hp, hc, byte_putByte]
      rcases Nat.lt_trichotomy a (d.page.toNat * 128 + d.col.toNat) with h1 | h1 | h1
      · have h2 : ¬ d.page.toNat * 128 + (d.col.toNat + 1) ≤ a := by omega
        have h3 : ¬ d.page.toNat * 128 + d.col.toNat ≤ a := by omega
        simp [h2, h3, Nat.ne_of_lt h1]
      · subst h1; simp
      · have h2 : d.page.toNat * 128 + (d.col.toNat + 1) ≤ a := by omega
        have h3 : d.page.toNat * 128 + d.col.toNat ≤ a := by omega
        have h4 : a - (d.page.toNat * 128 + d.col.toNat) = (a - (d.page.toNat * 128 + (d.col.toNat + 1))) + 1 := by omega
        simp [h2, h3, h4, Nat.ne_of_gt h1]
    · have hl : l = [] := by
        simp only [List.length_cons] at h
        exact List.length_eq_zero_iff.1 (by omega)
      subst hl
      rw [List.foldl_nil, byte_putByte]
      rcases Nat.lt_trichotomy a (d.page.toNat * 128 + d.col.toNat) with h1 | h1 | h1
      · have h3 : ¬ d.page.toNat * 128 + d.col.toNat ≤ a := by omega
        simp [h3, Nat.ne_of_lt h1]
      · subst h1; simp
      · have h3 : d.page.toNat * 128 + d.col.toNat ≤ a := by omega
        have h4 : a - (d.page.toNat * 128 + d.col.toNat) ≠ 0 := by omega
        simp [h3, Nat.ne_of_gt h1, h4]

/-- The device memory keeps its canonical form. -/
theorem putByte_wf {d : Device} (v : Byte) (h : d.mem.wf 1024 = true) : (d.putByte v).mem.wf 1024 = true := by
  rw [putByte_mem]
  have := d.page.isLt; have := d.col.isLt
  exact Memory.write_wf v (by omega) h

theorem receive_wf {d : Device} (b : List Byte) (h : d.mem.wf 1024 = true) : (d.receive b).mem.wf 1024 = true := by
  have hfold : ∀ (l : List Byte) (d : Device), d.mem.wf 1024 = true → (l.foldl Device.putByte d).mem.wf 1024 = true := by
    intro l
    induction l with
    | nil => exact fun d h => h
    | cons v l ih => exact fun d h => ih _ (putByte_wf v h)
  unfold Device.receive
  split
  · exact h
  · split_ifs
    · split
      · rw [(command_mem _ _).1]; exact h
      · exact h
    · exact hfold _ _ h
    · exact h

/-! ### Pages -/

theorem pageBytes_length (s : State) (p lo hi : Nat) : (s.pageBytes p lo hi).length = hi - lo := by
  simp [State.pageBytes]

/-- Consecutive runs of a page's bytes join without gap or duplicate (R222). -/
theorem pageBytes_append (s : State) (p : Nat) {lo mid hi : Nat} (h1 : lo ≤ mid) (h2 : mid ≤ hi) :
    s.pageBytes p lo mid ++ s.pageBytes p mid hi = s.pageBytes p lo hi := by
  apply List.ext_getElem
  · simp only [List.length_append, pageBytes_length]; omega
  · intro i hi1 hi2
    simp only [pageBytes_length] at hi2
    rw [List.getElem_append]
    split
    · simp [State.pageBytes]
    · rename_i hlt
      simp only [pageBytes_length] at hlt
      simp only [State.pageBytes, List.getElem_map, List.getElem_range, List.length_map, List.length_range]
      congr 1; omega

/-- Receiving the data transactions of a page from the `j`-th on is receiving the page's bytes from there on (R222). -/
theorem receive_dataFrom (s : State) (hc : s.chunkLimit ≠ 0) (p : Nat) (n j : Nat) (hj : j + n = chunkCount s.chunkLimit)
    (d : Device) : (s.dataFrom p j).foldl Device.receive d =
      (s.pageBytes p (min (j * chunk s.chunkLimit) 128) 128).foldl Device.putByte d := by
  induction n generalizing j d with
  | zero =>
    have hend : ¬ j * chunk s.chunkLimit < 128 := fun hl => by
      have := (lt_chunkCount hc j).2 hl; omega
    have hmin : min (j * chunk s.chunkLimit) 128 = 128 := by omega
    have hj' : j = chunkCount s.chunkLimit := by omega
    have hnil : s.pageBytes p 128 128 = [] := List.length_eq_zero_iff.1 (by rw [pageBytes_length])
    rw [hmin, hnil, hj', dataFrom_end]; rfl
  | succ n ih =>
    have hlt : j * chunk s.chunkLimit < 128 := (lt_chunkCount hc j).1 (by omega)
    have hmin : min (j * chunk s.chunkLimit) 128 = j * chunk s.chunkLimit := by omega
    have hnext : j * chunk s.chunkLimit + chunk s.chunkLimit = (j + 1) * chunk s.chunkLimit := by rw [Nat.succ_mul]
    rw [dataFrom_step s p (by omega), List.foldl_cons, ih (j + 1) (by omega), State.chunkTransaction, receive_data,
      ← List.foldl_append, hmin]
    congr 1
    simp only [Config.width, hnext]
    have := chunk_pos hc
    exact pageBytes_append s p (by omega) (by omega)

/-- Receiving the transactions of a page: the page's bytes are written from column 0 of that page, whatever the pointers were. -/
theorem receive_pageSeq (s : State) (hc : s.chunkLimit ≠ 0) {p : Nat} (hp : p < 8) (d : Device) :
    (s.pageSeq p).foldl Device.receive d =
      (s.pageBytes p 0 128).foldl Device.putByte { d with page := BitVec.ofNat 3 p, col := 0 } := by
  rw [pageSeq_eq]
  simp only [List.foldl_cons, receive_cmd, command_page d hp, command_columns]
  rw [receive_dataFrom s hc p (chunkCount s.chunkLimit) 0 (by omega)]
  simp

/-- A byte of the device after a page has been received: a byte of that page is the framebuffer's, any other is as before. -/
theorem byte_pageSeq (s : State) (hc : s.chunkLimit ≠ 0) {p : Nat} (hp : p < 8) (d : Device) (a : Nat) :
    ((s.pageSeq p).foldl Device.receive d).byte a = if a / 128 = p then s.fbByte a else d.byte a := by
  rw [receive_pageSeq s hc hp, byte_putBytes _ _ (by simp [pageBytes_length])]
  have hpage : (BitVec.ofNat 3 p).toNat = p := by simp; omega
  have hcol : (0 : BitVec 7).toNat = 0 := rfl
  simp only [hpage, hcol]
  have hbyte : Device.byte { d with page := BitVec.ofNat 3 p, col := 0 } a = d.byte a := rfl
  rw [hbyte]
  by_cases h : a / 128 = p
  · have h1 : p * 128 + 0 ≤ a := by omega
    have h2 : a - (p * 128 + 0) < 128 := by omega
    rw [if_pos h1, if_pos h, List.getElem?_eq_getElem (by rw [pageBytes_length]; omega)]
    simp only [State.pageBytes, List.getElem_map, List.getElem_range, Option.getD_some, Config.width]
    congr 1; omega
  · rw [if_neg h]
    split
    · rw [List.getElem?_eq_none (by rw [pageBytes_length]; omega)]; rfl
    · rfl

/-! ### Whole lists of transactions -/

theorem mem_blitSeq {s : State} (hc : s.chunkLimit ≠ 0) {b : List Byte} (h : b ∈ s.blitSeq) :
    (∃ c, b = [0x00, c]) ∨ ∃ p, b = 0x40 :: p ∧ 1 ≤ p.length ∧ p.length ≤ min s.chunkLimit.toNat 128 := by
  simp only [State.blitSeq, List.mem_flatMap] at h
  obtain ⟨p, -, hp⟩ := h
  rw [pageSeq_eq] at hp
  simp only [List.mem_cons] at hp
  rcases hp with rfl | rfl | rfl | hp
  · exact .inl ⟨_, rfl⟩
  · exact .inl ⟨_, rfl⟩
  · exact .inl ⟨_, rfl⟩
  · simp only [State.dataFrom, List.mem_map, List.mem_range'_1] at hp
    obtain ⟨j, hj, rfl⟩ := hp
    have hlt := (lt_chunkCount hc j).1 (by omega)
    have hpos := chunk_pos hc
    refine .inr ⟨s.pageBytes p (j * chunk s.chunkLimit) (min (j * chunk s.chunkLimit + chunk s.chunkLimit) 128), by simp only [State.chunkTransaction, dataTransaction, Config.width, Config.dataCtrl], ?_, ?_⟩
    · rw [pageBytes_length]; omega
    · rw [pageBytes_length]; simp only [chunk, Config.width] at *; omega

theorem chunkTransaction_payload (s : State) (p off : Nat) :
    s.chunkTransaction p off = 0x40 :: s.pageBytes p off (min (off + chunk s.chunkLimit) 128) := rfl

/-- The payloads of the data transactions of a page from the `j`-th on are the bytes from there to the end of the page. -/
theorem payloads_from (s : State) (hc : s.chunkLimit ≠ 0) (p n j : Nat) (hj : j + n = chunkCount s.chunkLimit) :
    (s.dataFrom p j).flatMap List.tail = s.pageBytes p (min (j * chunk s.chunkLimit) 128) 128 := by
  induction n generalizing j with
  | zero =>
    have hend : ¬ j * chunk s.chunkLimit < 128 := fun hl => by
      have := (lt_chunkCount hc j).2 hl; omega
    have hmin : min (j * chunk s.chunkLimit) 128 = 128 := by omega
    obtain rfl : j = chunkCount s.chunkLimit := by omega
    rw [hmin, dataFrom_end]
    exact (List.length_eq_zero_iff.1 (by rw [pageBytes_length])).symm
  | succ n ih =>
    have hlt : j * chunk s.chunkLimit < 128 := (lt_chunkCount hc j).1 (by omega)
    have hmin : min (j * chunk s.chunkLimit) 128 = j * chunk s.chunkLimit := by omega
    have hnext : j * chunk s.chunkLimit + chunk s.chunkLimit = (j + 1) * chunk s.chunkLimit := by rw [Nat.succ_mul]
    rw [dataFrom_step s p (by omega), List.flatMap_cons, ih (j + 1) (by omega), chunkTransaction_payload, List.tail_cons, hnext, hmin]
    have := chunk_pos hc
    exact pageBytes_append s p (by omega) (by omega)

theorem dataFrom_lengths (s : State) (hc : s.chunkLimit ≠ 0) (p n j : Nat) (hj : j + n = chunkCount s.chunkLimit) :
    ((s.dataFrom p j).map List.length).sum = n + (128 - min (j * chunk s.chunkLimit) 128) := by
  induction n generalizing j with
  | zero =>
    have hend : ¬ j * chunk s.chunkLimit < 128 := fun hl => by
      have := (lt_chunkCount hc j).2 hl; omega
    obtain rfl : j = chunkCount s.chunkLimit := by omega
    rw [dataFrom_end]; simp; omega
  | succ n ih =>
    have hlt : j * chunk s.chunkLimit < 128 := (lt_chunkCount hc j).1 (by omega)
    have hnext : j * chunk s.chunkLimit + chunk s.chunkLimit = (j + 1) * chunk s.chunkLimit := by rw [Nat.succ_mul]
    rw [dataFrom_step s p (by omega), List.map_cons, List.sum_cons, ih (j + 1) (by omega), chunkTransaction_payload, List.length_cons, pageBytes_length, ← hnext]
    have := chunk_pos hc
    omega

/-- After the transactions of the first `n` pages, those pages of the device are the framebuffer's. -/
theorem byte_pages (s : State) (hc : s.chunkLimit ≠ 0) (n : Nat) (hn : n ≤ 8) (d : Device) (a : Nat) :
    (((List.range n).flatMap s.pageSeq).foldl Device.receive d).byte a = if a / 128 < n then s.fbByte a else d.byte a := by
  induction n with
  | zero => simp
  | succ n ih =>
    rw [List.range_succ, List.flatMap_append, List.foldl_append, List.flatMap_singleton, byte_pageSeq s hc (by omega), ih (by omega)]
    by_cases h1 : a / 128 = n
    · rw [if_pos h1, if_pos (by omega)]
    · rw [if_neg h1]
      by_cases h2 : a / 128 < n
      · rw [if_pos h2, if_pos (by omega)]
      · rw [if_neg h2, if_neg (by omega)]

theorem byte_blitSeq (s : State) (hc : s.chunkLimit ≠ 0) (d : Device) (a : Nat) (ha : a < 1024) :
    (s.blitSeq.foldl Device.receive d).byte a = s.fbByte a := by
  rw [State.blitSeq, byte_pages s hc 8 (Nat.le_refl _), if_pos (by omega)]

theorem putBytes_pointers (l : List Byte) (d : Device) (h : d.col.toNat + l.length ≤ 127) :
    (l.foldl Device.putByte d).page = d.page ∧ (l.foldl Device.putByte d).col.toNat = d.col.toNat + l.length := by
  induction l generalizing d with
  | nil => simp
  | cons v l ih =>
    simp only [List.length_cons] at h
    obtain ⟨hp, hc⟩ := putByte_next d v (by omega)
    obtain ⟨h1, h2⟩ := ih (d.putByte v) (by omega)
    rw [List.foldl_cons, h1, h2, hp, hc, List.length_cons]
    exact ⟨rfl, by omega⟩

theorem busDelivered_cmd (c : Byte) (s : State) : busDelivered (cmdTransaction c) s =
    { s with busLog := s.busLog ++ [.wrote [0x00, c] .ok], dev := s.dev.command c } := by
  simp only [busDelivered, receive_cmd]; rfl

end Sys2Proof.Machine
end

