-- ==== Sys2Proof/Laws/Pixels.lean ====
section
/-! SUPPORT. Pixels: where a pixel stands in the framebuffer, and everything that plotting a list of points does. -/

namespace Sys2Proof.Machine

theorem onDisplay_iff (q : Point) : onDisplay q = true ↔ 0 ≤ q.1 ∧ q.1 < 128 ∧ 0 ≤ q.2 ∧ q.2 < 64 := by
  simp [onDisplay, and_assoc]

theorem pixelAddr_lt {q : Point} (h : onDisplay q = true) : pixelAddr q < 1024 := by
  rw [onDisplay_iff] at h; simp only [pixelAddr, Config.width]; omega

theorem pixelBit_lt (q : Point) : pixelBit q < 8 := by simp only [pixelBit]; omega

/-- Two pixels on the display that share byte and bit are the same pixel. -/
theorem pixel_ext {p q : Point} (hp : onDisplay p = true) (hq : onDisplay q = true) (ha : pixelAddr p = pixelAddr q)
    (hb : pixelBit p = pixelBit q) : p = q := by
  rw [onDisplay_iff] at hp hq
  simp only [pixelAddr, pixelBit, Config.width] at ha hb
  ext <;> omega

/-- The pixel that bit `b` of byte `a` is (R24). -/
def pixelOf (a b : Nat) : Point := ((a % 128 : Nat), (a / 128 * 8 + b : Nat))

theorem pixelOf_onDisplay {a b : Nat} (ha : a < 1024) (hb : b < 8) : onDisplay (pixelOf a b) = true := by
  rw [onDisplay_iff]; simp only [pixelOf]; omega

theorem pixelAddr_pixelOf (a : Nat) {b : Nat} (hb : b < 8) : pixelAddr (pixelOf a b) = a := by
  simp only [pixelAddr, pixelOf, Config.width]; omega

theorem pixelBit_pixelOf (a : Nat) {b : Nat} (hb : b < 8) : pixelBit (pixelOf a b) = b := by
  simp only [pixelBit, pixelOf]; omega

/-! ### One plot -/

namespace Memory

variable (base : Nat → Byte)

theorem plot_off (m : Memory) {q : Point} (h : onDisplay q = false) : m.plot base q = m := by simp [plot, h]

/-- Every byte after a plot: the pixel's own byte gains its bit, every other byte is as before (R142). -/
theorem read_plot (m : Memory) (q : Point) (a : Nat) :
    (m.plot base q).read base a =
      if onDisplay q = true ∧ a = pixelAddr q then m.read base a ||| BitVec.twoPow 8 (pixelBit q) else m.read base a := by
  by_cases h : onDisplay q = true
  · simp only [plot, h, if_true, true_and, read_write]
    split
    · subst_vars; rfl
    · rfl
  · simp [plot, h]

theorem plot_wf {m : Memory} (q : Point) (h : m.wf 1024 = true) : (m.plot base q).wf 1024 = true := by
  unfold plot
  split
  · exact write_wf _ (pixelAddr_lt ‹_›) h
  · exact h

/-! ### A list of plots -/

theorem plotAll_append (m : Memory) (ps qs : List Point) :
    m.plotAll base (ps ++ qs) = (m.plotAll base ps).plotAll base qs := by simp [plotAll]

@[simp] theorem plotAll_nil (m : Memory) : m.plotAll base [] = m := rfl

theorem plotAll_cons (m : Memory) (p : Point) (ps : List Point) :
    m.plotAll base (p :: ps) = (m.plot base p).plotAll base ps := rfl

theorem plotAll_wf {m : Memory} (ps : List Point) (h : m.wf 1024 = true) : (m.plotAll base ps).wf 1024 = true := by
  induction ps generalizing m with
  | nil => exact h
  | cons p ps ih => exact ih (plot_wf base p h)

/-- Every bit of every byte after plotting a list of points: it was on before, or one of the points on the display is it. -/
theorem getLsbD_read_plotAll (m : Memory) (ps : List Point) (a b : Nat) :
    ((m.plotAll base ps).read base a).getLsbD b =
      ((m.read base a).getLsbD b ||
        decide (∃ p ∈ ps, onDisplay p = true ∧ pixelAddr p = a ∧ pixelBit p = b)) := by
  induction ps generalizing m with
  | nil => simp
  | cons p ps ih =>
    have hsplit : (∃ q ∈ p :: ps, onDisplay q = true ∧ pixelAddr q = a ∧ pixelBit q = b) ↔
        (onDisplay p = true ∧ pixelAddr p = a ∧ pixelBit p = b) ∨
          ∃ q ∈ ps, onDisplay q = true ∧ pixelAddr q = a ∧ pixelBit q = b := by
      simp only [List.mem_cons, exists_eq_or_imp]
    rw [plotAll_cons, ih, read_plot]
    simp only [hsplit, Bool.decide_or, ← Bool.or_assoc]
    congr 1
    by_cases h : onDisplay p = true ∧ a = pixelAddr p
    · simp only [h, and_self, if_true, BitVec.getLsbD_or, BitVec.getLsbD_twoPow, pixelBit_lt, decide_true,
        Bool.true_and, true_and]
    · have h' : ¬ (onDisplay p = true ∧ pixelAddr p = a ∧ pixelBit p = b) := fun ⟨h1, h2, _⟩ => h ⟨h1, h2.symm⟩
      simp only [h, h', if_false, decide_false, Bool.or_false]

/-- A byte that holds no plotted pixel is as before. -/
theorem read_plotAll_other (m : Memory) (ps : List Point) (a : Nat)
    (h : ∀ p ∈ ps, onDisplay p = true → pixelAddr p ≠ a) : (m.plotAll base ps).read base a = m.read base a := by
  induction ps generalizing m with
  | nil => rfl
  | cons p ps ih =>
    rw [plotAll_cons, ih _ fun q hq => h q (List.mem_cons_of_mem _ hq), read_plot]
    exact if_neg fun hp => h p List.mem_cons_self hp.1 hp.2.symm

end Memory

/-! ### The framebuffer of a state -/

@[simp] theorem fbByte_drawn_raise (r : Result) (s : State) (ps : List Point) (a : Nat) :
    ((raise r s).drawn ps).fbByte a = (s.drawn ps).fbByte a := rfl

/-- A pixel after drawing: it was on before, or it is one of the points (R142, R151 f). -/
theorem getPixel_drawn (s : State) (ps : List Point) {q : Point} (hq : onDisplay q = true) :
    (s.drawn ps).getPixel q = (s.getPixel q || decide (q ∈ ps)) := by
  have h : (∃ p ∈ ps, onDisplay p = true ∧ pixelAddr p = pixelAddr q ∧ pixelBit p = pixelBit q) ↔ q ∈ ps := by
    constructor
    · rintro ⟨p, hp, hd, ha, hb⟩
      exact pixel_ext hd hq ha hb ▸ hp
    · exact fun hp => ⟨q, hp, hq, rfl, rfl⟩
  simp only [State.getPixel, State.fbByte, State.drawn]
  rw [Memory.getLsbD_read_plotAll]
  simp only [h]

/-- Every byte of the framebuffer is the byte of its eight pixels (R24, R25). -/
theorem getLsbD_fbByte (s : State) (a : Nat) {b : Nat} (hb : b < 8) :
    (s.fbByte a).getLsbD b = s.getPixel (pixelOf a b) := by
  simp [State.getPixel, pixelAddr_pixelOf a hb, pixelBit_pixelOf a hb]

/-- Two framebuffers with the same pixels have the same bytes. -/
theorem fbByte_ext {s t : State} (h : ∀ q, onDisplay q = true → s.getPixel q = t.getPixel q) {a : Nat} (ha : a < 1024) :
    s.fbByte a = t.fbByte a := by
  apply BitVec.eq_of_getLsbD_eq
  intro b hb
  rw [getLsbD_fbByte s a hb, getLsbD_fbByte t a hb]
  exact h _ (pixelOf_onDisplay ha hb)

/-- A byte that holds no drawn pixel is as before. -/
theorem fbByte_drawn_other (s : State) (ps : List Point) {a : Nat}
    (h : ∀ p ∈ ps, onDisplay p = true → pixelAddr p ≠ a) : (s.drawn ps).fbByte a = s.fbByte a :=
  Memory.read_plotAll_other _ _ _ _ h

theorem fbByte_drawn_outside (s : State) (ps : List Point) {a : Nat} (ha : 1024 ≤ a) :
    (s.drawn ps).fbByte a = s.fbByte a :=
  fbByte_drawn_other s ps fun _ _ hd heq => by have := pixelAddr_lt hd; omega

theorem drawn_append (s : State) (ps qs : List Point) : (s.drawn ps).drawn qs = s.drawn (ps ++ qs) := by
  simp [State.drawn, Memory.plotAll_append]

@[simp] theorem drawn_nil (s : State) : s.drawn [] = s := rfl

end Sys2Proof.Machine
end

