-- ==== Sys2Proof/Laws/Draw.lean ====
section
/-! SUPPORT. Which points each drawing command plots, said once for each list of points. -/

namespace Sys2Proof.Machine

/-! ### RECT -/

theorem mem_rowSpan {x y : Int} {n : Nat} {q : Point} : q ∈ rowSpan x y n ↔ x ≤ q.1 ∧ q.1 < x + n ∧ q.2 = y := by
  obtain ⟨u, v⟩ := q
  simp only [rowSpan, List.mem_map, List.mem_range, Prod.mk.injEq]
  constructor
  · rintro ⟨i, hi, rfl, rfl⟩; omega
  · rintro ⟨h1, h2, rfl⟩; exact ⟨(u - x).toNat, by omega, by omega, rfl⟩

theorem mem_colSpan {x y : Int} {n : Nat} {q : Point} : q ∈ colSpan x y n ↔ q.1 = x ∧ y ≤ q.2 ∧ q.2 < y + n := by
  obtain ⟨u, v⟩ := q
  simp only [colSpan, List.mem_map, List.mem_range, Prod.mk.injEq]
  constructor
  · rintro ⟨i, hi, rfl, rfl⟩; omega
  · rintro ⟨rfl, h1, h2⟩; exact ⟨(v - y).toNat, by omega, rfl, by omega⟩

/-! ### GLYPH -/

/-- The points of a glyph: its on bits, at their columns and rows (R160). -/
theorem mem_glyphPoints {s : State} {x y : Int} {ch : Byte} {q : Point} :
    q ∈ glyphPoints s x y ch ↔
      (32 ≤ ch.toNat ∧ ch.toNat ≤ 127) ∧
        ∃ c r : Nat, c < 5 ∧ r < 7 ∧ s.glyphBit ch c r = true ∧ q = (x + (c : Int), y + (r : Int)) := by
  unfold glyphPoints
  split
  · rename_i h
    simp only [List.mem_flatMap, List.mem_range, List.mem_filterMap, Option.ite_none_right_eq_some, Option.some.injEq]
    constructor
    · rintro ⟨c, hc, r, hr, hb, rfl⟩; exact ⟨h, c, r, hc, hr, hb, rfl⟩
    · rintro ⟨-, c, r, hc, hr, hb, rfl⟩; exact ⟨c, hc, r, hr, hb, rfl⟩
  · rename_i h
    simp only [List.not_mem_nil, false_iff, not_and]
    exact fun hc => absurd hc h

/-- Drawing does not change what a glyph looks like: the font is read-only (R27). -/
@[simp] theorem glyphPoints_drawn (s : State) (ps : List Point) : glyphPoints (s.drawn ps) = glyphPoints s := rfl

@[simp] theorem glyphPoints_endOk (s : State) : glyphPoints (endOk s) = glyphPoints s := rfl

/-! ### TEXT -/

@[simp] theorem textPoints_nil (s : State) (x cx cy : Int) : textPoints s x cx cy [] = [] := by simp [textPoints]

theorem textPoints_newline (s : State) (x cx cy : Int) (str : List Byte) :
    textPoints s x cx cy (newline :: str) = textPoints s x x (cy + 8) str := by simp [textPoints]

theorem textPoints_char (s : State) (x cx cy : Int) {ch : Byte} (h : ch ≠ newline) (str : List Byte) :
    textPoints s x cx cy (ch :: str) = glyphPoints s cx cy ch ++ textPoints s x (cx + 6) cy str := by
  simp [textPoints, h]

theorem glyphPoints_congr {s t : State} (h : s.font = t.font) : glyphPoints s = glyphPoints t := by
  have hb : s.glyphBit = t.glyphBit := by
    funext ch c r
    simp only [State.glyphBit, State.fontByte, h]
  funext x y ch
  simp only [glyphPoints, hb]

theorem textPoints_congr {s t : State} (h : s.font = t.font) (x cx cy : Int) (str : List Byte) :
    textPoints s x cx cy str = textPoints t x cx cy str := by
  have hg := glyphPoints_congr h
  induction str generalizing cx cy with
  | nil => simp
  | cons ch str ih => simp only [textPoints, hg, ih]

@[simp] theorem textPoints_drawn (s : State) (ps : List Point) : textPoints (s.drawn ps) = textPoints s := by
  funext x cx cy str; exact textPoints_congr (by rfl) x cx cy str

@[simp] theorem textPoints_endOk (s : State) : textPoints (endOk s) = textPoints s := by
  funext x cx cy str; exact textPoints_congr (by rfl) x cx cy str

/-- A string without a newline moves the cursor right by 6 for each character (R165). -/
theorem textPoints_append (s : State) (x cx cy : Int) (s1 s2 : List Byte) (h : newline ∉ s1) :
    textPoints s x cx cy (s1 ++ s2) = textPoints s x cx cy s1 ++ textPoints s x (cx + 6 * s1.length) cy s2 := by
  induction s1 generalizing cx with
  | nil => simp
  | cons ch s1 ih =>
    simp only [List.mem_cons, not_or] at h
    rw [List.cons_append, textPoints_char s x cx cy (Ne.symm h.1), textPoints_char s x cx cy (Ne.symm h.1), ih _ h.2,
      List.append_assoc]
    congr 3
    simp only [List.length_cons, Nat.cast_add, Nat.cast_one]
    ring

/-- Without a newline the column to return to does not matter. -/
theorem textPoints_no_newline (s : State) (x x' cx cy : Int) (str : List Byte) (h : newline ∉ str) :
    textPoints s x cx cy str = textPoints s x' cx cy str := by
  induction str generalizing cx with
  | nil => simp
  | cons ch str ih =>
    simp only [List.mem_cons, not_or] at h
    rw [textPoints_char s x cx cy (Ne.symm h.1), textPoints_char s x' cx cy (Ne.symm h.1), ih _ h.2]

/-! ### DITHER -/

theorem mem_ditherPoints {s : State} {q : Point} :
    q ∈ ditherPoints s ↔ ∃ x y : Nat, x < 128 ∧ y < 64 ∧ s.dithersOn x y = true ∧ q = ((x : Int), (y : Int)) := by
  simp only [ditherPoints, List.mem_flatMap, List.mem_range, List.mem_filterMap, Option.ite_none_right_eq_some,
    Option.some.injEq]
  constructor
  · rintro ⟨y, hy, x, hx, hb, rfl⟩; exact ⟨x, y, hx, hy, hb, rfl⟩
  · rintro ⟨x, y, hx, hy, hb, rfl⟩; exact ⟨y, hy, x, hx, hb, rfl⟩

@[simp] theorem ditherPoints_drawn (s : State) (ps : List Point) : ditherPoints (s.drawn ps) = ditherPoints s := rfl

@[simp] theorem ditherPoints_endOk (s : State) : ditherPoints (endOk s) = ditherPoints s := rfl

/-- A cell of the threshold matrix is at most 15 (R183). -/
theorem bayerCell_lt (s : State) (r c : Nat) : s.bayerCell r c < 16 := (s.bayer[(r % 4) * 4 + c % 4]'(by omega)).isLt

theorem luma_le (p : Sample) : luma p ≤ 255 := by
  have := p.r.isLt; have := p.g.isLt; have := p.b.isLt
  simp only [luma]; omega

theorem shade_le_luma (p : Sample) : shade p ≤ luma p := by
  have ha : p.a.toNat ≤ 255 := by have := p.a.isLt; omega
  simp only [shade]
  calc luma p * p.a.toNat / 255 ≤ luma p * 255 / 255 := Nat.div_le_div_right (Nat.mul_le_mul_left _ ha)
    _ = luma p := Nat.mul_div_cancel _ (by decide)

theorem sizeMismatch_iff (s : State) : s.sizeMismatch = true ↔ s.imgW ≠ 128 ∨ s.imgH ≠ 64 := by
  have h1 : s.imgW.toNat = 128 ↔ s.imgW = 128 := ⟨fun h => BitVec.eq_of_toNat_eq h, fun h => by rw [h]; rfl⟩
  have h2 : s.imgH.toNat = 64 ↔ s.imgH = 64 := ⟨fun h => BitVec.eq_of_toNat_eq h, fun h => by rw [h]; rfl⟩
  simp only [State.sizeMismatch, Config.width, Config.height, h1, h2, Bool.not_eq_true', Bool.and_eq_false_iff, decide_eq_false_iff_not]

/-! ### Counting on the tiles of the display (R189) -/

/-- A predicate of period `m` holds `n` times as often on `n` periods as on one. -/
theorem countP_range_periodic (p : Nat → Bool) (m n : Nat) (h : ∀ k, p (k + m) = p k) :
    (List.range (n * m)).countP p = n * (List.range m).countP p := by
  induction n with
  | zero => simp
  | succ n ih =>
    have hper : ∀ j k, p (j * m + k) = p k := by
      intro j
      induction j with
      | zero => intro k; simp
      | succ j ihj => intro k; rw [Nat.succ_mul, Nat.add_assoc, Nat.add_comm m k, ← Nat.add_assoc, h, ihj]
    rw [Nat.succ_mul, List.range_add, List.countP_append, ih, List.countP_map, Nat.succ_mul]
    congr 1
    apply List.countP_congr
    intro k _
    simp [Function.comp, hper]

theorem sum_range_periodic (f : Nat → Nat) (m n : Nat) (h : ∀ k, f (k + m) = f k) :
    ((List.range (n * m)).map f).sum = n * ((List.range m).map f).sum := by
  induction n with
  | zero => simp
  | succ n ih =>
    have hper : ∀ j k, f (j * m + k) = f k := by
      intro j
      induction j with
      | zero => intro k; simp
      | succ j ihj => intro k; rw [Nat.succ_mul, Nat.add_assoc, Nat.add_comm m k, ← Nat.add_assoc, h, ihj]
    rw [Nat.succ_mul, List.range_add, List.map_append, List.sum_append, ih, List.map_map, Nat.succ_mul]
    congr 2
    apply List.map_congr_left
    intro k _
    simp [Function.comp, hper]

end Sys2Proof.Machine
end

