-- ==== Sys2Proof/Laws/Drawing.lean ====
section
/-! SUPPORT. What a drawing command does, said once: it plots its list of points, which depends on the tables, the image and the
operands alone. -/

namespace Sys2Proof.Machine

open Sys2Proof

theorem onlyDrew_drawOk (ps : List Point) (s : State) : onlyDrew s (drawOk ps s) := rfl

theorem onlyDrew_cleared (s : State) : onlyDrew s (cleared s) := by
  simp only [onlyDrew, cleared, endOk]

theorem fbByte_cleared (s : State) {a : Nat} (ha : a < 1024) : (cleared s).fbByte a = 0 := by
  have h : (cleared s).fb = Memory.filled Config.fbSize 0 := by simp only [cleared, endOk]
  simp only [State.fbByte, h]
  exact Memory.read_filled _ _ _ ha

/-- Plotting a list of points turns on exactly the points of it that are on the display (R142, R151 f). -/
theorem turnsOn_drawOk {s : State} {ps : List Point} {on : Point → Prop} (h : ∀ q, q ∈ ps ↔ on q) :
    turnsOn s (drawOk ps s) on := by
  refine ⟨fun q hq => ?_, fun a ha => ?_⟩
  · have := getPixel_drawn s ps hq
    rw [show (drawOk ps s).getPixel q = (s.drawn ps).getPixel q from rfl, this, Bool.or_eq_true, decide_eq_true_iff, h q]
  · exact fbByte_drawn_other s ps fun p hp hd => ha p hd ((h p).1 hp)

/-- Every byte after plotting: two lists with the same points on the display leave the same bytes. -/
theorem fbByte_drawn_congr {s t : State} (hst : ∀ a, s.fbByte a = t.fbByte a) {ps qs : List Point}
    (h : ∀ q, onDisplay q = true → (q ∈ ps ↔ q ∈ qs)) (a : Nat) : (s.drawn ps).fbByte a = (t.drawn qs).fbByte a := by
  rcases Nat.lt_or_ge a 1024 with ha | ha
  · refine fbByte_ext (fun q hq => ?_) ha
    rw [getPixel_drawn s ps hq, getPixel_drawn t qs hq]
    simp only [State.getPixel, hst, h q hq]
  · rw [fbByte_drawn_outside s ps ha, fbByte_drawn_outside t qs ha, hst]

/-- The points a drawing command plots. -/
def drawPoints : Instr → State → List Point
  | .setPixel x y, _ => [(x, y)]
  | .line x0 y0 x1 y1, _ => linePoints x0 y0 x1 y1
  | .rect x y w h, _ => rectPoints x y w h
  | .glyph x y ch, s => glyphPoints s x y ch
  | .text x y str, s => textPoints s x x y str
  | .drawGlyph x y ch, s => glyphPoints s x y ch
  | .drawText x y str, s => textPoints s x x y str
  | .dither, s => if s.sizeMismatch then [] else ditherPoints s
  | _, _ => []

/-- What drawing reads beside the framebuffer. -/
def SameSources (s t : State) : Prop :=
  t.font = s.font ∧ t.img = s.img ∧ t.imgW = s.imgW ∧ t.imgH = s.imgH ∧ t.imgFmt = s.imgFmt ∧ t.bayer = s.bayer ∧ t.resets = s.resets

theorem drawPoints_congr {s t : State} (h : SameSources s t) (i : Instr) : drawPoints i t = drawPoints i s := by
  obtain ⟨hf, hi, hw, hh, hm, hb, hr⟩ := h
  have hd : ditherPoints t = ditherPoints s := by
    have : t.dithersOn = s.dithersOn := by
      funext x y
      simp only [State.dithersOn, State.bayerCell, State.sample, State.imgByte, hi, hm, hb, hr]
    simp only [ditherPoints, this]
  have hz : t.sizeMismatch = s.sizeMismatch := by simp only [State.sizeMismatch, hw, hh]
  cases i <;>
    simp only [drawPoints, glyphPoints_congr hf, textPoints_congr hf, hd, hz]

/-- A drawing command answers a next state, in which its points are plotted and what drawing reads is as before. -/
theorem exec_drawing {i : Instr} (hi : isDrawing i = true) (s : State) :
    ∃ t, exec i s = .next t ∧ t.fb = (s.drawn (drawPoints i s)).fb ∧ SameSources s t := by
  cases i
  case dither =>
    by_cases hm : s.sizeMismatch = true
    · refine ⟨raise .dimensionMismatch s, ?_, ?_, rfl, rfl, rfl, rfl, rfl, rfl, rfl⟩
      · change execDither s = _
        rw [execDither, if_pos hm]
      · rw [drawPoints, if_pos hm, drawn_nil]; rfl
    · refine ⟨drawOk (ditherPoints s) s, ?_, ?_, rfl, rfl, rfl, rfl, rfl, rfl, rfl⟩
      · change execDither s = _
        rw [execDither, if_neg hm]
      · rw [drawPoints, if_neg hm]; rfl
  case setPixel x y => exact ⟨drawOk [(x, y)] s, rfl, rfl, rfl, rfl, rfl, rfl, rfl, rfl, rfl⟩
  case line x0 y0 x1 y1 =>
    refine ⟨drawOk (linePoints x0 y0 x1 y1) s, rfl, ?_, rfl, rfl, rfl, rfl, rfl, rfl, rfl⟩
    rw [drawPoints]; rfl
  case rect x y w h => exact ⟨drawOk (rectPoints x y w h) s, rfl, rfl, rfl, rfl, rfl, rfl, rfl, rfl, rfl⟩
  case glyph x y ch => exact ⟨drawOk (glyphPoints s x y ch) s, rfl, rfl, rfl, rfl, rfl, rfl, rfl, rfl, rfl⟩
  case drawGlyph x y ch => exact ⟨drawOk (glyphPoints s x y ch) s, rfl, rfl, rfl, rfl, rfl, rfl, rfl, rfl, rfl⟩
  case text x y str => exact ⟨drawOk (textPoints s x x y str) s, rfl, rfl, rfl, rfl, rfl, rfl, rfl, rfl, rfl⟩
  case drawText x y str => exact ⟨drawOk (textPoints s x x y str) s, rfl, rfl, rfl, rfl, rfl, rfl, rfl, rfl, rfl⟩
  all_goals exact absurd hi Bool.false_ne_true

/-- Equal framebuffer lists over the same power-on contents are equal framebuffers. -/
theorem fbByte_of_fb {s t : State} (hf : t.fb = s.fb) (hr : t.resets = s.resets) (a : Nat) : t.fbByte a = s.fbByte a := by
  simp only [State.fbByte, hf, hr]

end Sys2Proof.Machine
end

