-- ==== Sys2Proof/Laws/Line.lean ====
section
/-! SUPPORT. The loop of LINE (40_framebuffer.md R150), one iteration after the other: along the major axis it moves each time, along
the minor axis exactly when the nearest integer to the exact line moves on. -/

namespace Sys2Proof.Machine

/-- How a floor moves on when its numerator grows by no more than the divisor. -/
theorem floor_step {m a b : Nat} (hm : 0 < m) (hb : b ≤ m) :
    (a + b) / m = if m * (a / m + 1) ≤ a + b then a / m + 1 else a / m := by
  have h1 : m * (a / m) ≤ a := Nat.mul_div_le a m
  have h2 : a < m * (a / m + 1) := Nat.lt_mul_div_succ a hm
  split
  · rename_i h
    refine Nat.div_eq_of_lt_le ?_ ?_ <;> rw [Nat.mul_comm] <;> try exact h
    rw [Nat.mul_add m (a / m + 1)]; omega
  · rename_i h
    refine Nat.div_eq_of_lt_le ?_ ?_ <;> rw [Nat.mul_comm] <;> omega

variable {dx dy : Nat} {sx sy x0 y0 : Int}

/-- From the `k`-th point on, for a line that is at least as wide as it is high. -/
theorem linePointsFrom_wide (hdx : 0 < dx) (h : dy ≤ dx) (hsx : sx = 1 ∨ sx = -1) (m k n : Nat) (hk : k + m = dx)
    (hn : m + 1 ≤ n) :
    linePointsFrom dx (-(dy : Int)) sx sy (x0 + sx * (dx : Int)) (y0 + sy * (dy : Int)) n (x0 + sx * (k : Int))
        (y0 + sy * (((2 * dy * k + dx) / (2 * dx) : Nat) : Int))
        ((dx : Int) - dy + dx * (((2 * dy * k + dx) / (2 * dx) : Nat) : Int) - dy * k) =
      (List.range' k (m + 1)).map fun (j : Nat) =>
        (x0 + sx * (j : Int), y0 + sy * (((2 * dy * j + dx) / (2 * dx) : Nat) : Int)) := by
  induction m generalizing k n with
  | zero =>
    obtain ⟨n, rfl⟩ : ∃ n', n = n' + 1 := ⟨n - 1, by omega⟩
    obtain rfl : k = dx := by omega
    have hend : (2 * dy * k + k) / (2 * k) = dy := by
      refine Nat.div_eq_of_lt_le ?_ ?_
      · nlinarith
      · nlinarith
    rw [linePointsFrom, hend, if_pos ⟨rfl, rfl⟩]
    simp only [Nat.zero_add, List.range'_succ, List.range'_zero, List.map_cons, List.map_nil, hend]
  | succ m ih =>
    obtain ⟨n, rfl⟩ : ∃ n', n = n' + 1 := ⟨n - 1, by omega⟩
    have hne : ¬ (x0 + sx * (k : Int) = x0 + sx * (dx : Int)) := by
      rcases hsx with rfl | rfl <;> omega
    have hfloor := floor_step (m := 2 * dx) (a := 2 * dy * k + dx) (b := 2 * dy) (by omega) (by omega)
    have hnext : 2 * dy * k + dx + 2 * dy = 2 * dy * (k + 1) + dx := by ring
    rw [hnext] at hfloor
    have h1 : 2 * dx * ((2 * dy * k + dx) / (2 * dx)) ≤ 2 * dy * k + dx := Nat.mul_div_le _ _
    have h2 : 2 * dy * k + dx < 2 * dx * ((2 * dy * k + dx) / (2 * dx) + 1) := Nat.lt_mul_div_succ _ (by omega)
    have ih := ih (k + 1) n (by omega) (by omega)
    rw [List.range'_succ, List.map_cons, linePointsFrom, if_neg (fun hc => hne hc.1)]
    rw [hfloor] at ih
    generalize (2 * dy * k + dx) / (2 * dx) = q at *
    have h1' : 2 * (dx * (q : Int)) ≤ 2 * (dy * (k : Int)) + dx := by exact_mod_cast (by nlinarith : 2 * (dx * q) ≤ 2 * (dy * k) + dx)
    have h2' : 2 * (dy * (k : Int)) + dx < 2 * (dx * (q : Int)) + 2 * dx := by
      exact_mod_cast (by nlinarith : 2 * (dy * k) + dx < 2 * (dx * q) + 2 * dx)
    have hx : 2 * ((dx : Int) - dy + dx * q - dy * k) ≥ -(dy : Int) := by omega
    have hy : 2 * ((dx : Int) - dy + dx * q - dy * k) ≤ dx ↔ 2 * dx * (q + 1) ≤ 2 * dy * (k + 1) + dx := by
      constructor
      · intro hle
        have : 2 * (dx * (q : Int)) + 2 * dx ≤ 2 * (dy * (k : Int)) + 2 * dy + dx := by omega
        have : 2 * (dx * q) + 2 * dx ≤ 2 * (dy * k) + 2 * dy + dx := by exact_mod_cast this
        nlinarith
      · intro hle
        have : 2 * (dx * q) + 2 * dx ≤ 2 * (dy * k) + 2 * dy + dx := by nlinarith
        have : 2 * (dx * (q : Int)) + 2 * dx ≤ 2 * (dy * (k : Int)) + 2 * dy + dx := by exact_mod_cast this
        omega
    simp only [hx, if_true, hy]
    rw [← ih]
    congr 1
    by_cases hc : 2 * dx * (q + 1) ≤ 2 * dy * (k + 1) + dx
    · simp only [hc, if_true]
      congr 1 <;> push_cast <;> ring
    · simp only [hc, if_false]
      congr 1 <;> push_cast <;> ring

/-- From the `k`-th point on, for a line that is higher than it is wide. -/
theorem linePointsFrom_tall (h : dx < dy) (hsy : sy = 1 ∨ sy = -1) (m k n : Nat) (hk : k + m = dy) (hn : m + 1 ≤ n) :
    linePointsFrom dx (-(dy : Int)) sx sy (x0 + sx * (dx : Int)) (y0 + sy * (dy : Int)) n
        (x0 + sx * (((2 * dx * k + dy) / (2 * dy) : Nat) : Int)) (y0 + sy * (k : Int))
        ((dx : Int) - dy + dx * k - dy * (((2 * dx * k + dy) / (2 * dy) : Nat) : Int)) =
      (List.range' k (m + 1)).map fun (j : Nat) =>
        (x0 + sx * (((2 * dx * j + dy) / (2 * dy) : Nat) : Int), y0 + sy * (j : Int)) := by
  have hdy : 0 < dy := by omega
  induction m generalizing k n with
  | zero =>
    obtain ⟨n, rfl⟩ : ∃ n', n = n' + 1 := ⟨n - 1, by omega⟩
    obtain rfl : k = dy := by omega
    have hend : (2 * dx * k + k) / (2 * k) = dx := by
      refine Nat.div_eq_of_lt_le ?_ ?_
      · nlinarith
      · nlinarith
    rw [linePointsFrom, hend, if_pos ⟨rfl, rfl⟩]
    simp only [Nat.zero_add, List.range'_succ, List.range'_zero, List.map_cons, List.map_nil, hend]
  | succ m ih =>
    obtain ⟨n, rfl⟩ : ∃ n', n = n' + 1 := ⟨n - 1, by omega⟩
    have hne : ¬ (y0 + sy * (k : Int) = y0 + sy * (dy : Int)) := by
      rcases hsy with rfl | rfl <;> omega
    have hfloor := floor_step (m := 2 * dy) (a := 2 * dx * k + dy) (b := 2 * dx) (by omega) (by omega)
    have hnext : 2 * dx * k + dy + 2 * dx = 2 * dx * (k + 1) + dy := by ring
    rw [hnext] at hfloor
    have h1 : 2 * dy * ((2 * dx * k + dy) / (2 * dy)) ≤ 2 * dx * k + dy := Nat.mul_div_le _ _
    have h2 : 2 * dx * k + dy < 2 * dy * ((2 * dx * k + dy) / (2 * dy) + 1) := Nat.lt_mul_div_succ _ (by omega)
    have ih := ih (k + 1) n (by omega) (by omega)
    rw [List.range'_succ, List.map_cons, linePointsFrom, if_neg (fun hc => hne hc.2)]
    rw [hfloor] at ih
    generalize (2 * dx * k + dy) / (2 * dy) = q at *
    have h1' : 2 * (dy * (q : Int)) ≤ 2 * (dx * (k : Int)) + dy := by exact_mod_cast (by nlinarith : 2 * (dy * q) ≤ 2 * (dx * k) + dy)
    have h2' : 2 * (dx * (k : Int)) + dy < 2 * (dy * (q : Int)) + 2 * dy := by
      exact_mod_cast (by nlinarith : 2 * (dx * k) + dy < 2 * (dy * q) + 2 * dy)
    have hy : 2 * ((dx : Int) - dy + dx * k - dy * q) ≤ dx := by omega
    have hx : 2 * ((dx : Int) - dy + dx * k - dy * q) ≥ -(dy : Int) ↔ 2 * dy * (q + 1) ≤ 2 * dx * (k + 1) + dy := by
      constructor
      · intro hle
        have : 2 * (dy * (q : Int)) + 2 * dy ≤ 2 * (dx * (k : Int)) + 2 * dx + dy := by omega
        have : 2 * (dy * q) + 2 * dy ≤ 2 * (dx * k) + 2 * dx + dy := by exact_mod_cast this
        nlinarith
      · intro hle
        have : 2 * (dy * q) + 2 * dy ≤ 2 * (dx * k) + 2 * dx + dy := by nlinarith
        have : 2 * (dy * (q : Int)) + 2 * dy ≤ 2 * (dx * (k : Int)) + 2 * dx + dy := by exact_mod_cast this
        omega
    simp only [hy, if_true, hx]
    rw [← ih]
    congr 1
    by_cases hc : 2 * dy * (q + 1) ≤ 2 * dx * (k + 1) + dy
    · simp only [hc, if_true]
      congr 1 <;> push_cast <;> ring
    · simp only [hc, if_false]
      congr 1 <;> push_cast <;> ring

end Sys2Proof.Machine
end

