-- ==== Sys2Proof/Laws/PerInstr.lean ====
section
/-! SUPPORT. Statements made of every instruction, one lemma a constructor. Family WordLength: the encoder gives an instruction as
many bytes as the table of 30_encoding.md R101 says (R105), or as R120 and R121 say of a transaction. -/

namespace Sys2Proof.Laws.WordLength

open Sys2Proof Sys2Proof.Machine

/-- The bytes of an instruction are as many as its row says (R101, R105, R120, R121). -/
def Statement (i : Instr) : Prop := i.encode.length = i.length

theorem s16Bytes_length (v : Int) : (s16Bytes v).length = 2 := rfl

theorem u16Bytes_length (v : Half) : (u16Bytes v).length = 2 := rfl

theorem clear : Statement .clear := rfl
theorem setPixel (x y : Int) : Statement (.setPixel x y) := rfl
theorem line (x0 y0 x1 y1 : Int) : Statement (.line x0 y0 x1 y1) := rfl
theorem rect (x y w h : Int) : Statement (.rect x y w h) := rfl
theorem glyph (x y : Int) (ch : Byte) : Statement (.glyph x y ch) := rfl
theorem text (x y : Int) (str : List Byte) : Statement (.text x y str) := by
  simp [Statement, Instr.encode, Instr.length, s16Bytes_length, u16Bytes_length]; omega
theorem dither : Statement .dither := rfl
theorem openBus (addr : Byte) : Statement (.openBus addr) := rfl
theorem init : Statement .init := rfl
theorem blit : Statement .blit := rfl
theorem close : Statement .close := rfl
theorem setChunk (n : Half) : Statement (.setChunk n) := rfl
theorem openDefault : Statement .openDefault := rfl
theorem frame : Statement .frame := rfl
theorem drawGlyph (x y : Int) (ch : Byte) : Statement (.drawGlyph x y ch) := rfl
theorem drawText (x y : Int) (str : List Byte) : Statement (.drawText x y str) := by
  simp [Statement, Instr.encode, Instr.length, s16Bytes_length, u16Bytes_length]; omega
theorem busCmd (c : Byte) : Statement (.busCmd c) := rfl
theorem busData (payload : List Byte) : Statement (.busData payload) := by
  simp [Statement, Instr.encode, Instr.length]; omega
theorem devPageAddr (p : BitVec 3) : Statement (.devPageAddr p) := rfl
theorem devColLow0 : Statement .devColLow0 := rfl
theorem devColHigh0 : Statement .devColHigh0 := rfl
theorem initSeq0 : Statement .initSeq0 := rfl
theorem initSeq1 : Statement .initSeq1 := rfl
theorem initSeq2 : Statement .initSeq2 := rfl
theorem initSeq3 : Statement .initSeq3 := rfl
theorem initSeq4 : Statement .initSeq4 := rfl
theorem initSeq5 : Statement .initSeq5 := rfl
theorem initSeq6 : Statement .initSeq6 := rfl
theorem initSeq7 : Statement .initSeq7 := rfl
theorem initSeq8 : Statement .initSeq8 := rfl
theorem initSeq9 : Statement .initSeq9 := rfl
theorem initSeq10 : Statement .initSeq10 := rfl
theorem initSeq11 : Statement .initSeq11 := rfl
theorem initSeq12 : Statement .initSeq12 := rfl
theorem initSeq13 : Statement .initSeq13 := rfl
theorem initSeq14 : Statement .initSeq14 := rfl
theorem initSeq15 : Statement .initSeq15 := rfl
theorem initSeq16 : Statement .initSeq16 := rfl
theorem initSeq17 : Statement .initSeq17 := rfl
theorem initSeq18 : Statement .initSeq18 := rfl
theorem initSeq19 : Statement .initSeq19 := rfl
theorem initSeq20 : Statement .initSeq20 := rfl
theorem initSeq21 : Statement .initSeq21 := rfl
theorem initSeq22 : Statement .initSeq22 := rfl
theorem initSeq23 : Statement .initSeq23 := rfl
theorem initSeq24 : Statement .initSeq24 := rfl
theorem initSeq25 : Statement .initSeq25 := rfl
theorem initSeq26 : Statement .initSeq26 := rfl
theorem initSeq27 : Statement .initSeq27 := rfl

end Sys2Proof.Laws.WordLength
end

