-- ==== Sys2Proof/Laws/Step.lean ====
section
/-! SUPPORT. Everything an instruction can end in, and everything a step can do: the two inversion lemmas that proofs about the
whole machine cite. -/

namespace Sys2Proof.Machine

open Sys2Proof

/-! ### Instructions -/

theorem openAddr_cases {a : BitVec 7} {s t : State} (h : openAddr a s = .next t) :
    (s.ts ≠ .closed ∧ t = raise .invalidState s) ∨
      (s.ts = .closed ∧ ∃ ans, s.answerAt 0 = some ans ∧ t = openAnswered a ans s) := by
  unfold openAddr at h
  split at h
  · injection h with h; exact .inl ⟨‹_›, h.symm⟩
  · rename_i hts
    split at h
    · exact absurd h (by simp)
    · injection h with h; exact .inr ⟨by simpa using hts, _, ‹_›, h.symm⟩

/-- The errors an instruction can report before it does anything (60_exceptions.md R260). -/
def refusedEarly (i : Instr) (s : State) (r : Result) : Prop :=
  (i = .dither ∧ s.sizeMismatch = true ∧ r = .dimensionMismatch) ∨
    ((∃ a, i = .openBus a ∧ addrBit7 a = true) ∧ r = .illegalCommand) ∨
    (i = .setChunk 0 ∧ r = .illegalCommand) ∨
    ((((∃ a, i = .openBus a ∧ addrBit7 a = false) ∨ i = .openDefault) ∧ s.ts ≠ .closed) ∧ r = .invalidState) ∨
    (i = .init ∧ s.ts ≠ .uninitialized ∧ r = .invalidState) ∨
    (i = .blit ∧ s.ts ≠ .initialized ∧ r = .invalidState)

/-- The transaction of a row of the bus side (30_encoding.md R120, R121, R123, 42_transport.md R212). -/
def busBytes : Instr → State → List Byte
  | .busCmd c, _ => cmdTransaction c
  | .busData payload, _ => dataTransaction payload
  | .devPageAddr p, _ => cmdTransaction (pageAddrByte p)
  | .devColLow0, _ => cmdTransaction 0x00
  | .devColHigh0, _ => cmdTransaction 0x10
  | .initSeq0, s => cmdTransaction (s.initByte 0)
  | .initSeq1, s => cmdTransaction (s.initByte 1)
  | .initSeq2, s => cmdTransaction (s.initByte 2)
  | .initSeq3, s => cmdTransaction (s.initByte 3)
  | .initSeq4, s => cmdTransaction (s.initByte 4)
  | .initSeq5, s => cmdTransaction (s.initByte 5)
  | .initSeq6, s => cmdTransaction (s.initByte 6)
  | .initSeq7, s => cmdTransaction (s.initByte 7)
  | .initSeq8, s => cmdTransaction (s.initByte 8)
  | .initSeq9, s => cmdTransaction (s.initByte 9)
  | .initSeq10, s => cmdTransaction (s.initByte 10)
  | .initSeq11, s => cmdTransaction (s.initByte 11)
  | .initSeq12, s => cmdTransaction (s.initByte 12)
  | .initSeq13, s => cmdTransaction (s.initByte 13)
  | .initSeq14, s => cmdTransaction (s.initByte 14)
  | .initSeq15, s => cmdTransaction (s.initByte 15)
  | .initSeq16, s => cmdTransaction (s.initByte 16)
  | .initSeq17, s => cmdTransaction (s.initByte 17)
  | .initSeq18, s => cmdTransaction (s.initByte 18)
  | .initSeq19, s => cmdTransaction (s.initByte 19)
  | .initSeq20, s => cmdTransaction (s.initByte 20)
  | .initSeq21, s => cmdTransaction (s.initByte 21)
  | .initSeq22, s => cmdTransaction (s.initByte 22)
  | .initSeq23, s => cmdTransaction (s.initByte 23)
  | .initSeq24, s => cmdTransaction (s.initByte 24)
  | .initSeq25, s => cmdTransaction (s.initByte 25)
  | .initSeq26, s => cmdTransaction (s.initByte 26)
  | .initSeq27, s => cmdTransaction (s.initByte 27)
  | _, _ => []

/-- A row of the bus side always completes: its transaction is recorded and the device receives it. -/
theorem exec_busSide {i : Instr} (hi : i.isBusSide = true) (s : State) : exec i s = .next (busDelivered (busBytes i s) s) := by
  cases i <;> first | rfl | exact absurd hi Bool.false_ne_true

/-- Everything an instruction that answers a next state can have done. -/
def Ended (i : Instr) (s t : State) : Prop :=
  (isDrawing i = true ∧ (i = .dither → s.sizeMismatch = false) ∧ t = drawOk (drawPoints i s) s) ∨
    ((i = .clear ∨ i = .frame) ∧ t = cleared s) ∨
    (∃ r, refusedEarly i s r ∧ t = raise r s) ∨
    ((∃ a ans, ((∃ b, i = .openBus b ∧ addrBit7 b = false ∧ a = addr7 b) ∨ (i = .openDefault ∧ a = Config.addrDefault)) ∧
        s.ts = .closed ∧ s.answerAt 0 = some ans ∧ t = openAnswered a ans s)) ∨
    (i = .init ∧ s.ts = .uninitialized ∧ sendRun initOk initFail s.initTransactions s = .next t) ∨
    (i = .blit ∧ s.ts = .initialized ∧ s.chunkLimit ≠ 0 ∧ sendRun blitOk blitFail s.blitSeq s = .next t) ∨
    (i = .close ∧ t = endOk { (if s.ts = .closed then s else busClosed s) with ts := .closed }) ∨
    (∃ n, i = .setChunk n ∧ n ≠ 0 ∧ t = endOk { s with chunkLimit := n }) ∨
    (i.isBusSide = true ∧ t = busDelivered (busBytes i s) s)

theorem ended_early {i : Instr} {s t : State} {r : Result} (hr : refusedEarly i s r)
    (h : Host.Outcome.next (φ := Fault) (ρ := Refusal) (raise r s) = .next t) : Ended i s t := by
  injection h with h
  exact .inr (.inr (.inl ⟨r, hr, h.symm⟩))

theorem execDither_cases {s t : State} (h : execDither s = .next t) : Ended .dither s t := by
  unfold execDither at h
  split at h
  · exact ended_early (.inl ⟨rfl, ‹_›, rfl⟩) h
  · rename_i hm
    injection h with h
    exact .inl ⟨rfl, fun _ => by simpa using hm, by rw [drawPoints, if_neg hm, h]⟩

theorem execOpen_cases {a : Byte} {s t : State} (h : execOpen a s = .next t) : Ended (.openBus a) s t := by
  unfold execOpen at h
  split at h
  · exact ended_early (.inr (.inl ⟨⟨a, rfl, ‹_›⟩, rfl⟩)) h
  · have h7 : addrBit7 a = false := by simpa using ‹¬ addrBit7 a = true›
    rcases openAddr_cases h with ⟨hts, rfl⟩ | ⟨hts, ans, ha, rfl⟩
    · exact ended_early (.inr (.inr (.inr (.inl ⟨⟨.inl ⟨a, rfl, h7⟩, hts⟩, rfl⟩)))) rfl
    · exact .inr (.inr (.inr (.inl ⟨_, ans, .inl ⟨a, rfl, h7, rfl⟩, hts, ha, rfl⟩)))

theorem execOpenDefault_cases {s t : State} (h : execOpenDefault s = .next t) : Ended .openDefault s t := by
  rcases openAddr_cases h with ⟨hts, rfl⟩ | ⟨hts, ans, ha, rfl⟩
  · exact ended_early (.inr (.inr (.inr (.inl ⟨⟨.inr rfl, hts⟩, rfl⟩)))) rfl
  · exact .inr (.inr (.inr (.inl ⟨_, ans, .inr ⟨rfl, rfl⟩, hts, ha, rfl⟩)))

theorem execInit_cases {s t : State} (h : execInit s = .next t) : Ended .init s t := by
  by_cases hts : s.ts = .uninitialized
  · rw [execInit_eq_sendRun s hts] at h
    exact .inr (.inr (.inr (.inr (.inl ⟨rfl, hts, h⟩))))
  · unfold execInit at h
    rw [if_pos hts] at h
    exact ended_early (.inr (.inr (.inr (.inr (.inl ⟨rfl, hts, rfl⟩))))) h

theorem execBlit_cases {s t : State} (h : execBlit s = .next t) : Ended .blit s t := by
  by_cases hts : s.ts = .initialized
  · by_cases hc : s.chunkLimit = 0
    · unfold execBlit at h
      rw [if_neg (by simp [hts]), if_pos hc] at h
      exact absurd h (by simp)
    · rw [execBlit_eq_sendRun s hts hc] at h
      exact .inr (.inr (.inr (.inr (.inr (.inl ⟨rfl, hts, hc, h⟩)))))
  · unfold execBlit at h
    rw [if_pos hts] at h
    exact ended_early (.inr (.inr (.inr (.inr (.inr ⟨rfl, hts, rfl⟩))))) h

theorem execSetChunk_cases {n : Half} {s t : State} (h : execSetChunk n s = .next t) : Ended (.setChunk n) s t := by
  unfold execSetChunk at h
  split at h
  · subst_vars; exact ended_early (.inr (.inr (.inl ⟨rfl, rfl⟩))) h
  · injection h with h
    exact .inr (.inr (.inr (.inr (.inr (.inr (.inr (.inl ⟨n, rfl, ‹_›, h.symm⟩)))))))

/-- Inversion of exec: what every instruction that answers a next state has done. -/
theorem exec_cases {i : Instr} {s t : State} (h : exec i s = .next t) : Ended i s t := by
  cases i
  case clear => injection h with h; exact .inr (.inl ⟨.inl rfl, h.symm⟩)
  case frame => injection h with h; exact .inr (.inl ⟨.inr rfl, h.symm⟩)
  case dither => exact execDither_cases h
  case openBus => exact execOpen_cases h
  case openDefault => exact execOpenDefault_cases h
  case init => exact execInit_cases h
  case blit => exact execBlit_cases h
  case close => injection h with h; exact .inr (.inr (.inr (.inr (.inr (.inr (.inl ⟨rfl, h.symm⟩))))))
  case setChunk => exact execSetChunk_cases h
  case setPixel | line | rect | glyph | text | drawGlyph | drawText =>
    injection h with h; exact .inl ⟨rfl, by simp, by rw [drawPoints, h]⟩
  all_goals
    rw [exec_busSide rfl] at h
    injection h with h
    exact .inr (.inr (.inr (.inr (.inr (.inr (.inr (.inr ⟨rfl, h.symm⟩)))))))

/-- What INIT and BLIT leave alone. -/
def OnlySent (s t : State) : Prop :=
  t = { s with ts := t.ts, lastErr := t.lastErr, errLog := t.errLog, seq := t.seq, busLog := t.busLog, dev := t.dev,
               replies := t.replies, replyDraws := t.replyDraws }

theorem init_sent {bs : List (List Byte)} {s t : State} (h : sendRun initOk initFail bs s = .next t) : OnlySent s t := by
  rcases sendRun_cases h with ⟨-, rfl⟩ | ⟨k, hk, -, rfl⟩ <;> rfl

theorem blit_sent {bs : List (List Byte)} {s t : State} (h : sendRun blitOk blitFail bs s = .next t) : OnlySent s t := by
  rcases sendRun_cases h with ⟨-, rfl⟩ | ⟨k, hk, -, rfl⟩ <;> rfl

/-- Whatever the device receives, its memory keeps the canonical form. -/
theorem receive_all_wf (bs : List (List Byte)) {d : Device} (h : d.mem.wf 1024 = true) :
    (bs.foldl Device.receive d).mem.wf 1024 = true := by
  induction bs generalizing d with
  | nil => exact h
  | cons b bs ih => exact ih (receive_wf b h)

/-- Setting the bit of an error leaves the unused bits of ERRLOG 0 (R30). -/
theorem stickyBit_unused {l : Half} (h : l &&& ~~~errLogMask = 0) {r : Result} (hr : r ≠ .ok) : stickyBit l r &&& ~~~errLogMask = 0 := by
  have h2 : ∀ r : Result, r ≠ .ok → BitVec.twoPow 16 r.code &&& ~~~errLogMask = 0 := by
    intro r hr; cases r <;> first | exact absurd rfl hr | decide
  rw [stickyBit, BitVec.and_comm, BitVec.and_or_distrib_left, BitVec.and_comm, h, BitVec.and_comm, h2 r hr]; rfl

theorem refusedEarly_ne {i : Instr} {s : State} {r : Result} (h : refusedEarly i s r) : r ≠ .ok := by
  rcases h with ⟨-, -, rfl⟩ | ⟨-, rfl⟩ | ⟨-, rfl⟩ | ⟨-, rfl⟩ | ⟨-, -, rfl⟩ | ⟨-, -, rfl⟩ <;> decide

theorem initEntry_exec (k : Fin 28) (s : State) : exec (Instr.initEntry k) s = .next (initEntryDelivered k s) := by
  revert k
  have : ∀ k : Nat, ∀ h : k < 28, exec (Instr.initEntry ⟨k, h⟩) s = .next (initEntryDelivered k s) := by
    intro k h
    interval_cases k <;> rfl
  exact fun k => this k k.isLt

/-- Which bits of the record are set after an error (R35). -/
theorem sticky_bit (l : Half) (r : Result) (k : Nat) (hr : r ≠ .ok) :
    (stickyBit l r).getLsbD k = (l.getLsbD k || (decide (1 ≤ k ∧ k < 16) && k == r.code)) := by
  rw [stickyBit, BitVec.getLsbD_or, BitVec.getLsbD_twoPow]
  congr 1
  have h1 : 1 ≤ r.code ∧ r.code < 16 := by cases r <;> first | exact absurd rfl hr | decide
  by_cases hk : k = r.code
  · subst hk; simp [h1]
  · have h2 : ¬ r.code = k := fun h => hk h.symm
    have h3 : (k == r.code) = false := by simpa using hk
    rw [h3]; simp [h2]

theorem ok_bit (l : Half) (k : Nat) : l.getLsbD k = (l.getLsbD k || (decide (1 ≤ k ∧ k < 16) && k == Result.ok.code)) := by
  by_cases hk : k = 0
  · subst hk; simp
  · simp [Result.code, hk]

/-- An instruction takes answers from the front of the queue only. -/
theorem replies_exec {i : Instr} {s t : State} (h : exec i s = .next t) : ∃ n, t.replies = s.replies.drop n := by
  rcases exec_cases h with ⟨hi, hdm, rfl⟩ | ⟨hi, rfl⟩ | ⟨r, hr, rfl⟩ | ⟨a, ans, hi, hts, ha, rfl⟩ | ⟨rfl, hts, hs⟩ |
    ⟨rfl, hts, hc, hs⟩ | ⟨rfl, rfl⟩ | ⟨n, rfl, hn, rfl⟩ | ⟨hi, rfl⟩
  · exact ⟨0, rfl⟩
  · exact ⟨0, rfl⟩
  · exact ⟨0, rfl⟩
  · exact ⟨1, by cases ans <;> simp [openAnswered, busOpened, State.answerTaken]⟩
  · rcases sendRun_cases hs with ⟨-, rfl⟩ | ⟨k, hk, -, rfl⟩
    · exact ⟨_, rfl⟩
    · exact ⟨(s.initTransactions.take k).length + 1, by simp [initFail, busWritten, State.answerTaken, State.acknowledged, busClosed, List.tail_drop]⟩
  · rcases sendRun_cases hs with ⟨-, rfl⟩ | ⟨k, hk, -, rfl⟩
    · exact ⟨_, rfl⟩
    · exact ⟨(s.blitSeq.take k).length + 1, by simp [blitFail, busWritten, State.answerTaken, State.acknowledged, List.tail_drop]⟩
  · exact ⟨0, by split <;> rfl⟩
  · exact ⟨0, rfl⟩
  · exact ⟨0, rfl⟩

/-! ### Steps -/

theorem step_command {w : List Byte} {rest : List HostInput} {s : State} {i : Instr} (h : s.inputs = .command w :: rest)
    (hd : decode w = .ok i) : step s = exec i { s with inputs := rest } := by
  simp only [step, fetch, h, hd]

theorem step_illegal {w : List Byte} {rest : List HostInput} {s : State} {e : DecodeError}
    (h : s.inputs = .command w :: rest) (hd : decode w = .error e) :
    step s = .next (raise .illegalCommand { s with inputs := rest }) := by
  simp only [step, fetch, h, hd]

theorem step_abstract {i : Instr} {rest : List HostInput} {s : State} (h : s.inputs = .abstract i :: rest)
    (hf : i.operandsFit = true) : step s = exec i { s with inputs := rest } := by
  simp only [step, fetch, h, hf, if_true]

/-- Inversion of step: the move of the host it made. -/
theorem step_cases {s t : State} (h : step s = .next t) :
    (s.inputs = [] ∧ t = s) ∨
      ∃ m rest, s.inputs = m :: rest ∧
        ((∃ i, (m = .abstract i ∨ ∃ w, m = .command w ∧ decode w = .ok i) ∧ exec i { s with inputs := rest } = .next t) ∨
          (∃ w e, m = .command w ∧ decode w = .error e ∧ t = raise .illegalCommand { s with inputs := rest }) ∨
          (∃ n v, m = .writeCsr n v ∧ t = csrWrite { s with inputs := rest } n v) ∨
          (∃ a v, m = .writeImg a v ∧ t = imgWrite { s with inputs := rest } a v) ∨
          (m = .reset ∧ t = resetEvent { s with inputs := rest })) := by
  cases hin : s.inputs with
  | nil =>
    simp only [step, fetch, hin] at h
    injection h with h; exact .inl ⟨rfl, h.symm⟩
  | cons m rest =>
    refine .inr ⟨m, rest, rfl, ?_⟩
    cases m with
    | command w =>
      cases hd : decode w with
      | ok i => rw [step_command hin hd] at h; exact .inl ⟨i, .inr ⟨w, rfl, hd⟩, h⟩
      | error e =>
        rw [step_illegal hin hd] at h
        injection h with h; exact .inr (.inl ⟨w, e, rfl, hd, h.symm⟩)
    | abstract i =>
      by_cases hf : i.operandsFit = true
      · rw [step_abstract hin hf] at h; exact .inl ⟨i, .inl rfl, h⟩
      · simp only [step, fetch, hin, hf] at h
        exact absurd h (by simp)
    | writeCsr n v =>
      simp only [step, fetch, hin] at h
      injection h with h; exact .inr (.inr (.inl ⟨n, v, rfl, h.symm⟩))
    | writeImg a v =>
      simp only [step, fetch, hin] at h
      injection h with h; exact .inr (.inr (.inr (.inl ⟨a, v, rfl, h.symm⟩)))
    | reset =>
      simp only [step, fetch, hin] at h
      injection h with h; exact .inr (.inr (.inr (.inr ⟨rfl, h.symm⟩)))

end Sys2Proof.Machine
end

