-- ==== Sys2Proof/Laws/Text.lean ====
section
/-! SUPPORT. The cursor of TEXT (40_framebuffer.md R165): where each character stands, said once for each of the two ways the cursor
moves. -/

namespace Sys2Proof.Machine

open Sys2Proof

theorem takeWhile_append_stop {α : Type} (p : α → Bool) (l : List α) {a : α} (h : p a = false) :
    (l ++ [a]).takeWhile p = l.takeWhile p := by
  induction l with
  | nil => simp [h]
  | cons b l ih => simp only [List.cons_append, List.takeWhile_cons, ih]

/-- After a newline, columns count from the start of the rest. -/
theorem charColumn_newline (str : List Byte) (k : Nat) : charColumn (10 :: str) (k + 1) = charColumn str k := by
  simp only [charColumn, List.take_succ_cons, List.reverse_cons]
  rw [takeWhile_append_stop _ _ (by decide)]

/-- After another character, columns count one more up to the next newline, and as they did after it. -/
theorem charColumn_char {ch : Byte} (h : ch ≠ 10) (str : List Byte) (k : Nat) :
    charColumn (ch :: str) (k + 1) = if 10 ∈ str.take k then charColumn str k else charColumn str k + 1 := by
  simp only [charColumn, List.take_succ_cons, List.reverse_cons]
  simp only [← List.mem_reverse (as := str.take k)]
  generalize (str.take k).reverse = l
  induction l with
  | nil =>
    have hb : (ch != 10) = true := by simpa using h
    rw [List.nil_append, List.takeWhile_cons, hb]; rfl
  | cons b l ih =>
    rw [List.cons_append, List.takeWhile_cons, List.takeWhile_cons]
    by_cases hb : b = 10
    · subst hb; simp
    · have hb' : (b != 10) = true := by simpa using hb
      rw [hb', if_pos rfl, if_pos rfl, List.length_cons, ih, List.length_cons]
      have hne : ¬ (10 : Byte) = b := fun h => hb h.symm
      simp only [List.mem_cons, hne, false_or]
      split <;> rfl

theorem charLine_newline (str : List Byte) (k : Nat) : charLine (10 :: str) (k + 1) = charLine str k + 1 := by
  simp [charLine]

theorem charLine_char {ch : Byte} (h : ch ≠ 10) (str : List Byte) (k : Nat) : charLine (ch :: str) (k + 1) = charLine str k := by
  simp only [charLine, List.take_succ_cons]
  rw [List.countP_cons_of_neg (by simpa using h)]

/-- The newline is no glyph. -/
theorem not_glyphOn_newline (s : State) (c r : Nat) : ¬ glyphOn s 10 c r := fun h => by
  have := h.1; simp at this

end Sys2Proof.Machine
end

