-- ==== Sys2Proof/Tests/Slice0.lean ====
section
/-! SUPPORT. The model's own tests: the smoke test of well-formedness, words written out from the spec's encodings and what they
decode to, and single steps whose expected results are the vectors of spec/95_test_vectors.md. -/

namespace Sys2Proof.Tests

open Sys2Proof Sys2Proof.Machine

/-! ### Well-formedness refuses each kind of ill-formed operand (R102, R103, R106, R121). -/

theorem test_wf_coordinate_too_large : Instr.wellFormed (.setPixel 32768 0) = false := by decide
theorem test_wf_coordinate_too_small : Instr.wellFormed (.setPixel 0 (-32769)) = false := by decide
theorem test_wf_line_end : Instr.wellFormed (.line 0 0 0 40000) = false := by decide
theorem test_wf_rect_size : Instr.wellFormed (.rect 0 0 (-40000) 1) = false := by decide
theorem test_wf_glyph_column : Instr.wellFormed (.glyph 99999 0 65) = false := by decide
theorem test_wf_text_column : Instr.wellFormed (.text 99999 0 []) = false := by decide
theorem test_wf_text_too_long (str : List Byte) (h : str.length = 65536) : Instr.wellFormed (.text 0 0 str) = false := by
  simp [Instr.wellFormed, Instr.operandsFit, h]
theorem test_wf_address_bit7 : Instr.wellFormed (.openBus 0x80) = false := by decide
theorem test_wf_chunk_zero : Instr.wellFormed (.setChunk 0) = false := by decide
theorem test_wf_payload_empty : Instr.wellFormed (.busData []) = false := by decide
theorem test_wf_payload_too_long : Instr.wellFormed (.busData (List.replicate 129 0)) = false := by decide +kernel
theorem test_wf_good : Instr.wellFormed (.rect (-32768) 32767 0 (-1)) = true := by decide

/-! ### Words written out from the encodings (V1 to V37 of 95_test_vectors.md, R101 to R104). -/

theorem test_decode_clear : decode [0x01] = .ok .clear := by decide
theorem test_decode_setPixel : decode [0x02, 0xFF, 0xFF, 0x05, 0x00] = .ok (.setPixel (-1) 5) := by decide
theorem test_decode_setPixel_ends : decode [0x02, 0x00, 0x80, 0xFF, 0x7F] = .ok (.setPixel (-32768) 32767) := by decide
theorem test_decode_line :
    decode [0x03, 0xFE, 0xFF, 0xFF, 0xFF, 0x02, 0x00, 0x01, 0x00] = .ok (.line (-2) (-1) 2 1) := by decide
theorem test_decode_rect :
    decode [0x04, 0x7E, 0x00, 0x3E, 0x00, 0x04, 0x00, 0x05, 0x00] = .ok (.rect 126 62 4 5) := by decide
theorem test_decode_glyph : decode [0x05, 0x00, 0x00, 0xFD, 0xFF, 0x41] = .ok (.glyph 0 (-3) 0x41) := by decide
theorem test_decode_text :
    decode [0x06, 0x03, 0x00, 0x01, 0x00, 0x03, 0x00, 0x41, 0x0A, 0x42] = .ok (.text 3 1 [0x41, 0x0A, 0x42]) := by decide
theorem test_decode_text_empty : decode [0x06, 0x00, 0x00, 0x00, 0x00, 0x00, 0x00] = .ok (.text 0 0 []) := by decide
theorem test_decode_dither : decode [0x10] = .ok .dither := by decide
theorem test_decode_open : decode [0x20, 0x3C] = .ok (.openBus 0x3C) := by decide
theorem test_decode_init : decode [0x21] = .ok .init := by decide
theorem test_decode_blit : decode [0x22] = .ok .blit := by decide
theorem test_decode_close : decode [0x23] = .ok .close := by decide
theorem test_decode_setChunk : decode [0x24, 0x30, 0x01] = .ok (.setChunk 304) := by decide
theorem test_decode_busCmd : decodeBus [0x00, 0xB2] = some (.busCmd 0xB2) := by decide
theorem test_decode_busData : decodeBus [0x40, 0x11, 0x22, 0x33] = some (.busData [0x11, 0x22, 0x33]) := by decide
theorem test_decode_bus_other_control : decodeBus [0x80, 0x11] = none := by decide
theorem test_decode_device_page : decodeDeviceByte 0xB5 = some (.devPageAddr 5) := by decide
theorem test_decode_device_columns :
    decodeDeviceByte 0x00 = some .devColLow0 ∧ decodeDeviceByte 0x10 = some .devColHigh0 := by decide
theorem test_decode_device_display_off : decodeDeviceByte 0xAE = some .initSeq0 := by decide

/-! ### Illegal words (V40 to V49). -/

theorem test_illegal_opcode_00 : decode [0x00] = .error (.unassignedOpcode 0x00) := by decide
theorem test_illegal_opcode_07 : decode [0x07] = .error (.unassignedOpcode 0x07) := by decide
theorem test_illegal_opcode_25 : decode [0x25] = .error (.unassignedOpcode 0x25) := by decide
theorem test_illegal_address : decode [0x20, 0xBC] = .error .addressBit7 := by decide
theorem test_illegal_chunk : decode [0x24, 0x00, 0x00] = .error .chunkZero := by decide
theorem test_illegal_short : decode [0x02, 0x05, 0x00, 0x05] = .error .truncated := by decide
theorem test_illegal_short_text :
    decode [0x06, 0x00, 0x00, 0x00, 0x00, 0x03, 0x00, 0x41, 0x42] = .error .truncated := by decide
theorem test_illegal_overlong : decode [0x01, 0x21] = .error .overlong := by decide

/-! ### The words of the opcode table, as the host numbers them. -/

theorem test_table_clear : decodeTableWord 8 0x01 = some .clear := by decide
theorem test_table_setPixel : decodeTableWord 40 0x000A000302 = some (.setPixel 3 10) := by decide
theorem test_table_text : decodeTableWord 56 0x06 = some (.text 0 0 []) := by decide
theorem test_table_busCmd : decodeTableWord 16 0x0000 = some (.busCmd 0) := by decide
theorem test_table_busData : decodeTableWord 8 0x40 = some (.busData [0]) := by decide
theorem test_table_pageAddr : decodeTableWord 8 0xB0 = some (.devPageAddr 0) := by decide
theorem test_table_illegal : decodeTableWord 8 0x07 = none := by decide

/-! ### A cleared block with the test font TF (95_test_vectors.md, section 0). -/

/-- The glyphs of the test font that are not blank. -/
def tfGlyph : Nat → List Byte
  | 33 => [0x00, 0x00, 0x5F, 0x00, 0x00]
  | 65 => [0x7E, 0x11, 0x11, 0x11, 0x7E]
  | 66 => [0x7F, 0x49, 0x49, 0x49, 0x36]
  | 126 => [0xFF, 0xFF, 0xFF, 0xFF, 0xFF]
  | _ => [0, 0, 0, 0, 0]

/-- The test font as a memory. -/
def tf : Memory := (List.range 480).map fun a => (a, (tfGlyph (a / 5 + 32)).getD (a % 5) 0)

/-- A block after CLEAR with the test font. -/
def blank : State := { State.reset with fb := Memory.filled 1024 0, font := tf }

/-- The state an instruction ends in, if it answers one. -/
def after (i : Instr) (s : State) : Option State :=
  match exec i s with
  | .next t => some t
  | .fault _ => none
  | .refused _ => none

/-- The framebuffer bytes from address `a` on, after an instruction. -/
def bytesAfter (i : Instr) (s : State) (a n : Nat) : Option (List Byte) :=
  (after i s).map fun t => (List.range n).map fun k => t.fbByte (a + k)

/-- The transport state, last result and error record after an instruction. -/
def statusAfter (i : Instr) (s : State) : Option (Nat × Nat × Half) :=
  (after i s).map fun t => (t.ts.code, t.lastErr.code, t.errLog)

/-! ### Framebuffer commands (V60 to V161). -/

theorem test_clear_a5 :
    bytesAfter .clear { blank with fb := Memory.filled 1024 0xA5 } 1022 2 = some [0, 0] := by decide +kernel
theorem test_setPixel_v64 : bytesAfter (.setPixel 3 10) blank 130 3 = some [0, 4, 0] := by decide +kernel
theorem test_setPixel_v68 :
    bytesAfter (.setPixel 0 1) { blank with fb := Memory.filled 1024 0xA5 } 0 2 = some [0xA7, 0xA5] := by decide +kernel
theorem test_setPixel_clipped : (after (.setPixel 128 0) blank).map (·.fb) = some blank.fb := by decide +kernel
theorem test_line_v94 : linePoints 0 0 4 2 = [(0, 0), (1, 1), (2, 1), (3, 2), (4, 2)] := by decide +kernel
theorem test_line_v95 : linePoints 4 2 0 0 = [(4, 2), (3, 1), (2, 1), (1, 0), (0, 0)] := by decide +kernel
theorem test_rect_v110 : bytesAfter (.rect 2 3 4 3) blank 1 6 = some [0, 0x38, 0x28, 0x28, 0x38, 0] := by decide +kernel
theorem test_rect_v120 : bytesAfter (.rect 126 62 4 4) blank 1021 3 = some [0, 0xC0, 0x40] := by decide +kernel
theorem test_glyph_v132_upper :
    bytesAfter (.glyph 0 2 65) blank 0 5 = some [0xF8, 0x44, 0x44, 0x44, 0xF8] := by decide +kernel
theorem test_glyph_v137 : bytesAfter (.glyph 0 (-3) 65) blank 0 5 = some [0x0F, 0x02, 0x02, 0x02, 0x0F] := by decide +kernel
theorem test_drawGlyph_v140 :
    bytesAfter (.drawGlyph 0 0 126) blank 0 5 = some [0x7F, 0x7F, 0x7F, 0x7F, 0x7F] := by decide +kernel
theorem test_text_v151 :
    bytesAfter (.text 3 1 [65, 10, 66]) blank 131 5 = some [0xFE, 0x92, 0x92, 0x92, 0x6C] := by decide +kernel
theorem test_text_v156 :
    bytesAfter (.drawText 0 0 [65, 200, 10, 0, 66]) blank 134 5 = some [0x7F, 0x49, 0x49, 0x49, 0x36] := by decide +kernel

/-! ### Ditherer (V170 to V218): the per-pixel rule, the layout, the size check. -/

theorem test_luma_v174 : luma ⟨0, 255, 0, 255⟩ = 149 := by decide
theorem test_shade_v192 : luma ⟨10, 20, 30, 200⟩ = 18 ∧ shade ⟨10, 20, 30, 200⟩ = 14 := by decide
theorem test_threshold_strict : ditherOn 8 ⟨128, 128, 128, 255⟩ = false ∧ ditherOn 8 ⟨129, 129, 129, 255⟩ = true := by decide

/-- The image of V212 around its one sample at (5, 2): bytes 1044 to 1047. -/
def v212 : State := { blank with imgFmt := 0, img := [(1044, 177), (1045, 177), (1046, 177), (1047, 255)] }

theorem test_sample_v212 : v212.sample 5 2 = ⟨177, 177, 177, 255⟩ ∧ v212.dithersOn 5 2 = true := by decide
theorem test_sample_rgb :
    ({ blank with imgFmt := 1, img := [(783, 1), (784, 2), (785, 3)] } : State).sample 5 2 = ⟨1, 2, 3, 255⟩ := by decide
theorem test_dither_v217 :
    statusAfter .dither { blank with imgW := 64, imgH := 128 } = some (0, 4, 0x0010) := by decide

/-! ### Transport (V230 to V269). -/

theorem test_open_v230 :
    statusAfter (.openBus 0x3C) { blank with replies := [some .ok] } = some (1, 0, 0) := by decide
theorem test_open_v231 :
    statusAfter (.openBus 0x3C) { blank with replies := [some .fail] } = some (0, 1, 0x0002) := by decide
theorem test_open_wrong_state : statusAfter (.openBus 0x3D) { blank with ts := .uninitialized } = some (1, 5, 0x0020) := by decide
theorem test_openDefault_wrong_state : statusAfter .openDefault { blank with ts := .initialized } = some (2, 5, 0x0020) := by decide
theorem test_open_never_answered : after (.openBus 0x3C) { blank with replies := [none] } = none := by decide

/-- A bound handle whose bus answers `n` calls ok and then one fail. -/
def bound (t : TransportState) (n : Nat) : State :=
  { blank with ts := t, replies := List.replicate n (some .ok) ++ [some .fail] }

theorem test_init_v235 : statusAfter .init (bound .uninitialized 28) = some (2, 0, 0) := by decide +kernel
theorem test_init_v236 :
    ((after .init (bound .uninitialized 9)).map fun t => (t.ts.code, t.lastErr.code, t.errLog, t.busLog.length)) =
      some (0, 2, 0x0004, 11) := by decide +kernel
theorem test_init_bytes :
    ((after .init (bound .uninitialized 28)).map fun t => (t.busLog.take 2, t.busLog.drop 27)) =
      some ([.wrote [0x00, 0xAE] .ok, .wrote [0x00, 0x20] .ok], [.wrote [0x00, 0xAF] .ok]) := by decide +kernel
theorem test_blit_v267_count :
    ((after .blit { bound .initialized 32 with chunkLimit := 1000 }).map fun t => (t.busLog.length, t.lastErr.code)) =
      some (32, 0) := by decide +kernel
theorem test_blit_v263_failure :
    ((after .blit { bound .initialized 10 with chunkLimit := 48 }).map fun t =>
      (t.ts.code, t.lastErr.code, t.errLog, t.busLog.length)) = some (2, 3, 0x0008, 11) := by decide +kernel
theorem test_blitSeq_v262_count : { blank with chunkLimit := 16 }.blitSeq.length = 88 := by decide +kernel
theorem test_close_v244 :
    ((after .close { blank with ts := .initialized }).map fun t => (t.ts.code, t.busLog)) = some (0, [.closed]) := by decide
theorem test_setChunk_v247 : statusAfter (.setChunk 0) blank = some (0, 6, 0x0040) := by decide
theorem test_setChunk_v246 : (after (.setChunk 128) blank).map (·.chunkLimit) = some 128 := by decide

/-- The reference device of V269: memory all zero. -/
def zeroDev : Device := { mem := Memory.filled 1024 0, memDraw := 0, page := 0, col := 9, draws := 1 }

theorem test_device_v269 :
    let d := [[0x00, 0xB2], [0x00, 0x00], [0x00, 0x10], [0x40, 0x11, 0x22, 0x33], [0x40, 0x44]].foldl Device.receive zeroDev
    (d.page, d.col, (List.range 5).map fun k => d.byte (256 + k)) = (2, 4, [0x11, 0x22, 0x33, 0x44, 0]) := by decide +kernel

theorem test_bus_rows :
    ((after (.devPageAddr 3) { blank with dev := zeroDev }).map (·.dev.page)) = some 3 ∧
    ((after .devColHigh0 { blank with dev := { zeroDev with col := 0x35 } }).map (·.dev.col)) = some 5 ∧
    ((after .devColLow0 { blank with dev := { zeroDev with col := 0x35 } }).map (·.dev.col)) = some 0x30 ∧
    ((after .initSeq3 { blank with dev := { zeroDev with page := 6 } }).map (·.dev.page)) = some 0 := by decide

/-! ### Steps from reset: the first word of a program (P1, P5). -/

/-- Whether a step of the machine answers a next state. -/
def steps (s : State) : Bool :=
  match step s with
  | .next _ => true
  | .fault _ => false
  | .refused _ => false

theorem test_step_open_after_reset : steps (State.reset.withFetchWord 16 0x3C20) = true := by decide
theorem test_step_dither_after_reset : steps (State.reset.withFetchWord 8 0x10) = true := by decide
theorem test_step_setPixel_after_reset : steps (State.reset.withFetchWord 40 0x02) = true := by decide
theorem test_step_illegal_word :
    (match step (State.reset.withFetchWord 16 0x8020) with
      | .next t => some (t.lastErr, t.errLog, t.ts)
      | .fault _ => none
      | .refused _ => none) = some (.illegalCommand, 0x0040, .closed) := by decide

/-! ### Witnesses: for every statement with hypotheses, a state and operands that meet all of them together, at the ends of the ranges
its clauses name. -/

theorem witness_DecodeIffEncode :
    (Instr.isCommand (.text (-32768) 32767 [65]) = true ∧ Instr.wellFormed (.text (-32768) 32767 [65]) = true) ∧
    (Instr.isPseudo (.drawText 0 0 [65]) = true ∧ Instr.wellFormed (.drawText 0 0 [65]) = true) := by decide

theorem witness_IllegalWords :
    ((0x00 : Byte) ∉ ([0x01, 0x02, 0x03, 0x04, 0x05, 0x06, 0x10, 0x20, 0x21, 0x22, 0x23, 0x24] : List Byte)) ∧
    ((0x25 : Byte) ∉ ([0x01, 0x02, 0x03, 0x04, 0x05, 0x06, 0x10, 0x20, 0x21, 0x22, 0x23, 0x24] : List Byte)) ∧
    128 ≤ (0x80 : Byte).toNat ∧ 128 ≤ (0xFF : Byte).toNat ∧
    (Instr.isCommand .clear = true ∧ Instr.wellFormed .clear = true ∧ 0 < Instr.clear.length) ∧
    (Instr.isCommand (.text 0 0 [65]) = true ∧ Instr.wellFormed (.text 0 0 [65]) = true ∧ 7 < (Instr.text 0 0 [65]).length) := by
  decide

theorem witness_BusDecodeIffEncode :
    decodeBus [0x00, 0xFF] = some (.busCmd 0xFF) ∧ decodeBus [0x40, 0x01] = some (.busData [0x01]) ∧
    decodeBus (0x40 :: List.replicate 128 7) = some (.busData (List.replicate 128 7)) ∧
    decodeBus (0x40 :: List.replicate 129 7) = none ∧ decodeBus [0x40] = none := by decide +kernel

theorem witness_StepRunsDecoded :
    ({ blank with inputs := [.command [0x01]] } : State).inputs = .command [0x01] :: [] ∧ decode [0x01] = .ok .clear ∧
    ({ blank with inputs := [.abstract .frame] } : State).inputs = .abstract .frame :: [] ∧ Instr.operandsFit .frame = true :=
  ⟨rfl, rfl, rfl, rfl⟩

theorem witness_TableWordRuns :
    (decodeTableWord 8 0x01 = some .clear ∧ Instr.operandsFit .clear = true) ∧
    (decodeTableWord 8 0xB3 = some (.devPageAddr 3) ∧ Instr.operandsFit (.devPageAddr 3) = true) := by decide

theorem witness_IllegalWordStep :
    ({ blank with inputs := [.command [0x20, 0x80]] } : State).inputs = .command [0x20, 0x80] :: [] ∧
    decode [0x20, 0x80] = .error .addressBit7 := ⟨rfl, rfl⟩

theorem witness_HostWrites :
    ({ blank with inputs := [.writeCsr 7 0xFFFF] } : State).inputs = .writeCsr 7 0xFFFF :: [] ∧
    ({ blank with inputs := [.writeCsr 4 0xFFFF] } : State).inputs = .writeCsr 4 0xFFFF :: [] ∧
    ({ blank with inputs := [.writeImg 32767 1] } : State).inputs = .writeImg 32767 1 :: [] := ⟨rfl, rfl, rfl⟩

/-- The invariant holds of the blank block. -/
theorem inv_blank : Inv blank :=
  ⟨by decide +kernel, rfl, by decide +kernel, rfl, by decide, by decide, by decide, rfl, by decide, by decide⟩

theorem inv_inputs {s : State} (h : Inv s) (q : List HostInput) : Inv { s with inputs := q } :=
  ⟨h.fbWf, h.imgWf, h.fontWf, h.devWf, h.errLogBits, h.chunkNonzero, h.notStreaming, h.seqStart, h.initSeqOk, h.bayerOk⟩

theorem inv_lastErr {s : State} (h : Inv s) (r : Result) : Inv { s with lastErr := r } :=
  ⟨h.fbWf, h.imgWf, h.fontWf, h.devWf, h.errLogBits, h.chunkNonzero, h.notStreaming, h.seqStart, h.initSeqOk, h.bayerOk⟩

theorem witness_HostReads :
    (∀ r : Result, Inv { blank with lastErr := r }) ∧ (1023 < 1024 ∧ 1024 ≤ 1024) ∧ (32767 < 32768 ∧ 32768 ≤ 32768) ∧ 8 ≤ 8 :=
  ⟨inv_lastErr inv_blank, by omega⟩

theorem witness_ResetEvent : ({ blank with inputs := [.reset], ts := .initialized } : State).inputs = .reset :: [] := rfl

/-- Two other starting states for the last clause: another font under SETPIXEL, another transport state under GLYPH. -/
theorem witness_FramebufferCommandsNeverFail :
    ((∃ x y, Instr.setPixel 40000 5 = .setPixel x y) ∧ ¬ ((∃ x y ch, Instr.setPixel 40000 5 = .glyph x y ch) ∨
      ∃ x y str, Instr.setPixel 40000 5 = .text x y str) ∧
      ({ State.reset with font := [(0, 1)] } : State).fb = State.reset.fb ∧
      ({ State.reset with font := [(0, 1)] } : State).resets = State.reset.resets) ∧
    ((∃ x y ch, Instr.glyph (-1) 5 65 = .glyph x y ch) ∧
      ({ State.reset with ts := .streaming } : State).fb = State.reset.fb ∧
      ({ State.reset with ts := .streaming } : State).resets = State.reset.resets ∧
      ({ State.reset with ts := .streaming } : State).font = State.reset.font) :=
  ⟨⟨⟨_, _, rfl⟩, by simp, rfl, rfl⟩, ⟨_, _, _, rfl⟩, rfl, rfl, rfl⟩

/-- A block with every pixel on. -/
def lit : State := { blank with fb := Memory.filled 1024 0xFF }

theorem witness_ClearZeroes :
    ∃ t, exec .clear lit = .next t ∧ onDisplay (0, 0) = true ∧ lit.getPixel (0, 0) = true ∧ t.getPixel (0, 0) = false :=
  ⟨cleared lit, rfl, by decide, by decide +kernel, by decide +kernel⟩

theorem witness_SetPixelSetsOneBit :
    (fitsS16 (-32768) = true ∧ fitsS16 32767 = true) ∧
    ((0 : Int) ≤ 0 ∧ (0 : Int) < 128 ∧ (0 : Int) ≤ 63 ∧ (63 : Int) < 64) ∧
    ((0 : Int) ≤ 127 ∧ (127 : Int) < 128 ∧ (0 : Int) ≤ 0 ∧ (0 : Int) < 64) ∧
    ¬ ((0 : Int) ≤ -1 ∧ (-1 : Int) < 128 ∧ (0 : Int) ≤ 5 ∧ (5 : Int) < 64) ∧
    ¬ ((0 : Int) ≤ 128 ∧ (128 : Int) < 128 ∧ (0 : Int) ≤ 0 ∧ (0 : Int) < 64) ∧
    ¬ ((0 : Int) ≤ 0 ∧ (0 : Int) < 128 ∧ (0 : Int) ≤ 64 ∧ (64 : Int) < 64) := by decide

theorem witness_LineIsNearest :
    fitsS16 (-32768) = true ∧ fitsS16 0 = true ∧ fitsS16 32767 = true ∧ fitsS16 1 = true := by decide

theorem witness_LineEndsAndLength :
    fitsS16 (-32768) = true ∧ fitsS16 32767 = true ∧ fitsS16 32767 = true ∧ fitsS16 (-32768) = true := by decide

theorem witness_LineStraight :
    (fitsS16 5 = true ∧ fitsS16 9 = true ∧ fitsS16 (-3) = true) ∧ (5 : Int) = 5 ∧
    ((5 : Int) - 9).natAbs = ((9 : Int) - 5).natAbs := by decide

theorem witness_RectPixelCount : (2 : Int) ≤ 2 ∧ (2 : Int) ≤ 2 ∧ (2 : Int) ≤ 32767 := by decide

theorem witness_GlyphBytes :
    (32 ≤ (127 : Byte).toNat ∧ (127 : Byte).toNat ≤ 127 ∧ 4 < 5 ∧ (0 : Int) ≤ 123 + (4 : Nat) ∧ (123 : Int) + (4 : Nat) < 128 ∧
      (0 : Int) ≤ 57 ∧ (57 : Int) + 6 < 64 ∧ (57 : Int).toNat % 8 ≤ 1) ∧
    (32 ≤ (32 : Byte).toNat ∧ (32 : Byte).toNat ≤ 127 ∧ 0 < 5 ∧ (0 : Int) ≤ 0 + (0 : Nat) ∧ (0 : Int) + (0 : Nat) < 128 ∧
      (0 : Int) ≤ 2 ∧ (2 : Int) + 6 < 64 ∧ 2 ≤ (2 : Int).toNat % 8) := by decide

theorem witness_TextPlots : Instr.text 3 1 [65, 10, 66] = .text 3 1 [65, 10, 66] ∧ 2 < [65, 10, 66].length ∧
    charColumn [65, 10, 66] 2 = 0 ∧ charLine [65, 10, 66] 2 = 1 ∧ charColumn [65, 66, 67] 2 = 2 := by decide

theorem witness_TextSplits : (10 : Byte) ∉ ([65] : List Byte) ∧ (10 : Byte) ∉ ([] : List Byte) := by decide

theorem witness_DrawingIdempotent : isDrawing .dither = true ∧ isDrawing (.drawText 0 0 [65]) = true := by decide

theorem witness_DrawingCommutes : isDrawing .dither = true ∧ isDrawing (.line 0 0 3 1) = true := by decide

/-- A block with every pixel on, about to clear. -/
def allOn : State := { lit with inputs := [.command [0x01]] }

theorem witness_OnlyClearTurnsOff :
    ∃ t, step allOn = .next t ∧ onDisplay (127, 63) = true ∧ allOn.getPixel (127, 63) = true ∧ t.getPixel (127, 63) = false :=
  ⟨cleared { allOn with inputs := [] }, step_command (w := [0x01]) (i := .clear) rfl (by decide), by decide, by decide +kernel, by decide +kernel⟩

theorem witness_DitherThreshold :
    ({ blank with imgW := 128, imgH := 64 } : State).imgW = 128 ∧ ({ blank with imgW := 128, imgH := 64 } : State).imgH = 64 :=
  ⟨rfl, rfl⟩

theorem witness_DitherSizeMismatch :
    ({ blank with imgW := 127, imgH := 64 } : State).imgW ≠ 128 ∧ ({ blank with imgW := 128, imgH := 65 } : State).imgH ≠ 64 := by
  decide

theorem witness_ShadeAndThresholdCorners :
    shade ⟨0, 0, 0, 255⟩ = 0 ∧ shade ⟨1, 1, 1, 255⟩ = 1 ∧ shade ⟨128, 128, 128, 255⟩ = 128 ∧ shade ⟨129, 129, 129, 255⟩ = 129 ∧
    shade ⟨240, 240, 240, 255⟩ = 240 ∧ shade ⟨241, 241, 241, 255⟩ = 241 ∧ (⟨9, 9, 9, 0⟩ : Sample).a = 0 ∧
    ditherOn (15 : BitVec 4).toNat ⟨241, 241, 241, 255⟩ = true ∧ ditherOn (0 : BitVec 4).toNat ⟨1, 1, 1, 255⟩ = true := by decide

/-- A cleared block with a uniform mid-gray image, in the RGB format. -/
def midGray : State := { blank with imgW := 128, imgH := 64, imgFmt := 1, img := Memory.filled 32768 128 }

theorem witness_UniformImageCount :
    midGray.imgW = 128 ∧ midGray.imgH = 64 ∧ (∀ x y : Nat, x < 128 → y < 64 → shade (midGray.sample x y) = 128) ∧
    (∀ a, a < 1024 → midGray.fbByte a = 0) ∧ bayerBalanced midGray.bayer = true ∧
    ∀ c : BitVec 4, midGray.bayer.toList.count c = 1 := by
  have hfb : midGray.fb = Memory.filled 1024 0 := by simp only [midGray, blank]
  have himg : midGray.img = Memory.filled 32768 128 := by simp only [midGray]
  refine ⟨rfl, rfl, fun x y hx hy => ?_, fun a ha => by rw [State.fbByte, hfb, Memory.read_filled _ _ _ ha], by decide, by decide⟩
  have h : ∀ a, a < 32768 → midGray.imgByte a = 128 := fun a ha => by rw [State.imgByte, himg, Memory.read_filled _ _ _ ha]
  have hs : midGray.sample x y = ⟨128, 128, 128, 255⟩ := by
    unfold State.sample
    rw [if_neg (by decide)]
    simp only [Config.width]
    rw [h _ (by omega), h _ (by omega), h _ (by omega)]
  rw [hs]; decide

theorem witness_OpenEveryCase :
    128 ≤ (0x80 : Byte).toNat ∧ ((0x7F : Byte).toNat < 128 ∧ (bound .uninitialized 0).ts ≠ .closed) ∧
    ((0x7F : Byte).toNat < 128 ∧ (bound .closed 1).ts = .closed ∧ (bound .closed 1).answerAt 0 = some .ok) ∧
    ((0x00 : Byte).toNat < 128 ∧ (bound .closed 0).ts = .closed ∧ (bound .closed 0).answerAt 0 = some .fail) := by decide

theorem witness_OpenDefaultBinds :
    ((bound .closed 1).ts = .closed ∧ (bound .closed 1).answerAt 0 = some .ok) ∧
    ((bound .closed 0).ts = .closed ∧ (bound .closed 0).answerAt 0 = some .fail) := by decide

theorem witness_WrongStateRefused :
    ((bound .initialized 0).ts ≠ .closed ∧ ∃ a : Byte, a.toNat < 128 ∧ Instr.openBus 0x3C = .openBus a) ∧
    ((bound .initialized 0).ts ≠ .uninitialized ∧ Instr.init = .init) ∧
    ((bound .closed 0).ts ≠ .initialized ∧ Instr.blit = .blit) :=
  ⟨⟨by decide, 0x3C, by decide, rfl⟩, ⟨by decide, rfl⟩, by decide, rfl⟩

/-- The hypothesis allOk, by evaluation. -/
theorem allOk_of_all {s : State} {n : Nat} (h : (List.range n).all (fun k => s.answerAt k == some .ok) = true) : allOk s n :=
  fun k hk => by simpa using List.all_eq_true.1 h k (List.mem_range.2 hk)

theorem witness_InitSendsTheList : (bound .uninitialized 28).ts = .uninitialized ∧ allOk (bound .uninitialized 28) 28 :=
  ⟨rfl, allOk_of_all (by decide +kernel)⟩

theorem witness_InitStopsAtFailure :
    ((bound .uninitialized 0).ts = .uninitialized ∧ failsAt (bound .uninitialized 0) 0) ∧
    ((bound .uninitialized 27).ts = .uninitialized ∧ failsAt (bound .uninitialized 27) 27) :=
  ⟨⟨rfl, allOk_of_all rfl, rfl⟩, rfl, allOk_of_all (by decide +kernel), by decide +kernel⟩

/-- A session with chunk limit 1000 whose bus answers `n` calls ok and then one fail. -/
def ready (n : Nat) : State := { bound .initialized n with chunkLimit := 1000 }

theorem witness_BlitSequence : (ready 0).chunkLimit ≠ 0 ∧ ({ ready 0 with chunkLimit := 1 } : State).chunkLimit ≠ 0 := by decide

theorem witness_BlitSendsTheFrame :
    (ready 32).ts = .initialized ∧ (ready 32).chunkLimit ≠ 0 ∧ allOk (ready 32) (ready 32).blitSeq.length :=
  ⟨rfl, by decide, allOk_of_all (by decide +kernel)⟩

theorem witness_BlitStopsAtFailure :
    (0 < (ready 0).blitSeq.length ∧ failsAt (ready 0) 0) ∧ (31 < (ready 31).blitSeq.length ∧ failsAt (ready 31) 31) :=
  ⟨⟨by decide +kernel, allOk_of_all rfl, rfl⟩, by decide +kernel, allOk_of_all (by decide +kernel), by decide +kernel⟩

theorem witness_ChunkingTransparent :
    (1 : Half) ≠ 0 ∧ (16 : Half) ≠ 0 ∧ (48 : Half) ≠ 0 ∧ 128 ≤ (128 : Half).toNat ∧ 128 ≤ (65535 : Half).toNat := by decide

theorem witness_BlitCopiesFramebuffer :
    (ready 32).ts = .initialized ∧ (ready 32).chunkLimit ≠ 0 ∧ allOk (ready 32) (ready 32).blitSeq.length :=
  witness_BlitSendsTheFrame

/-- An instruction that the test finds completing answers a next state. -/
theorem next_of_after {i : Instr} {s : State} (h : (after i s).isSome = true) : ∃ t, exec i s = .next t := by
  unfold after at h
  split at h
  · exact ⟨_, ‹_›⟩
  · simp at h
  · simp at h

theorem witness_OnlyTwoControlBytes :
    (Instr.isBusSide .blit = false ∧ ∃ t, exec .blit (ready 32) = .next t) ∧
    (Instr.isBusSide .init = false ∧ ∃ t, exec .init (bound .uninitialized 9) = .next t) :=
  ⟨⟨rfl, next_of_after (by decide +kernel)⟩, rfl, next_of_after (by decide +kernel)⟩

theorem witness_TransactionsStopAtFail :
    (Instr.isBusSide .blit = false ∧ ∃ t, exec .blit (ready 2) = .next t) ∧
    ([.wrote [0x00, 0xB0] .ok, .wrote [0x00, 0x00] .ok, .wrote [0x00, 0x10] .fail] : List BusEvent) =
      [.wrote [0x00, 0xB0] .ok, .wrote [0x00, 0x00] .ok] ++ .wrote [0x00, 0x10] .fail :: [] :=
  ⟨⟨rfl, next_of_after (by decide +kernel)⟩, rfl⟩

/-- A session whose bus answers `n` calls ok and never answers the next. -/
def silent (t : TransportState) (n : Nat) : State :=
  { blank with ts := t, chunkLimit := 128, replies := List.replicate n (some .ok) ++ [none] }

theorem witness_NeverAnsweredNeverEnds :
    (allOk (silent .closed 0) 0 ∧ (silent .closed 0).answerAt 0 = none ∧ (0x3C : Byte).toNat < 128 ∧ (silent .closed 0).ts = .closed) ∧
    (allOk (silent .uninitialized 27) 27 ∧ (silent .uninitialized 27).answerAt 27 = none ∧ 27 < 28) ∧
    (allOk (silent .initialized 31) 31 ∧ (silent .initialized 31).answerAt 31 = none ∧
      31 < (silent .initialized 31).blitSeq.length) :=
  ⟨⟨allOk_of_all rfl, rfl, by decide, rfl⟩, ⟨allOk_of_all (by decide +kernel), by decide +kernel, by decide⟩,
    allOk_of_all (by decide +kernel), by decide +kernel, by decide +kernel⟩

theorem witness_SetChunkStores : (1 : Half) ≠ 0 ∧ (65535 : Half) ≠ 0 := by decide

theorem witness_TransportTransitions :
    (∃ t, exec (.openBus 0x7F) (bound .closed 1) = .next t) ∧ (∃ t, exec .init (bound .uninitialized 9) = .next t) ∧
    (∃ t, exec .blit (ready 31) = .next t) ∧ (∃ t, exec .close blank = .next t) ∧ ∃ t, exec .clear blank = .next t :=
  ⟨next_of_after (by decide), next_of_after (by decide +kernel), next_of_after (by decide +kernel), ⟨_, rfl⟩,
    next_of_after (by decide)⟩

theorem witness_BusDataRow :
    (⟨[], 0, 7, 125, 1⟩ : Device).col.toNat + [(1 : Byte), 2, 3].length ≤ 128 ∧
    (⟨[], 0, 7, 124, 1⟩ : Device).col.toNat + [(1 : Byte), 2, 3].length ≤ 127 := by decide

theorem witness_InitEntryRows : initSeqFixed blank.initSeq = true := by decide

theorem witness_InvKept : Inv blank ∧ ∃ t, step blank = .next t := ⟨inv_blank, blank, rfl⟩

theorem witness_ErrLogRecordsTheResult :
    (Instr.isBusSide (.setChunk 0) = false ∧ ∃ t, exec (.setChunk 0) blank = .next t) ∧
    ∃ t, step { blank with errLog := 0x0040, inputs := [.reset] } = .next t ∧ (0x0040 : Half).getLsbD 6 = true ∧
      t.errLog.getLsbD 6 = false :=
  ⟨⟨rfl, _, rfl⟩, _, rfl, by decide, by decide⟩

theorem witness_ResultsOfCommands :
    (Instr.isBusSide (.openBus 0x3C) = false ∧
      ∃ t, exec (.openBus 0x3C) (bound .closed 0) = .next t ∧ t.lastErr = .deviceUnavailable) ∧
    (Instr.isBusSide (.setChunk 0) = false ∧ ∃ t, exec (.setChunk 0) blank = .next t ∧ t.lastErr = .illegalCommand) :=
  ⟨⟨rfl, _, rfl, rfl⟩, rfl, _, rfl, rfl⟩

theorem witness_WhoWritesWhat :
    (isDrawing .close = false ∧ ∃ t, exec .close blank = .next t ∧ t.lastErr = .ok) ∧
    (Instr.isBusSide (.busCmd 0xB7) = true ∧ ∃ t, exec (.busCmd 0xB7) blank = .next t) ∧
    Instr.isBusSide .dither = false ∧ ∃ t, exec .dither blank = .next t :=
  ⟨⟨rfl, _, rfl, rfl⟩, ⟨rfl, _, rfl⟩, rfl, _, rfl⟩

theorem witness_ErrorsDoNotSteer : ∃ t, exec .init (bound .uninitialized 9) = .next t := next_of_after (by decide +kernel)

theorem witness_RunsGoOn :
    Inv { blank with inputs := [.abstract .frame, .command [0x07]] } ∧
    none ∉ ({ blank with inputs := [.abstract .frame, .command [0x07]] } : State).replies ∧
    ∀ i, HostInput.abstract i ∈ ({ blank with inputs := [.abstract .frame, .command [0x07]] } : State).inputs →
      i.operandsFit = true := by
  refine ⟨inv_inputs inv_blank _, List.not_mem_nil, fun i hi => ?_⟩
  simp at hi
  subst hi; rfl

theorem witness_StartUpShowsTheFrame :
    let s : State := { bound .closed 61 with chunkLimit := 1000 }
    s.ts = .closed ∧ s.chunkLimit ≠ 0 ∧ (0x3C : Byte).toNat < 128 ∧ allOk s (1 + 28 + s.blitSeq.length) :=
  ⟨rfl, by decide, by decide, allOk_of_all (by decide +kernel)⟩

end Sys2Proof.Tests
end

/-! SUPPORT. The state of the block (10_state.md): what the host's moves, reads and writes do, what an instruction keeps and what it
leaves in the error registers, and that every update keeps the invariant. -/

namespace Sys2Proof.Machine

open Sys2Proof

/-! ### The moves of the host that are no instruction -/

theorem step_writeCsr {n : BitVec 3} {v : Half} {rest : List HostInput} {s : State} (h : s.inputs = .writeCsr n v :: rest) :
    step s = .next (csrWrite { s with inputs := rest } n v) := by
  simp only [step, fetch, h]

theorem step_writeImg {a : BitVec 15} {v : Byte} {rest : List HostInput} {s : State} (h : s.inputs = .writeImg a v :: rest) :
    step s = .next (imgWrite { s with inputs := rest } a v) := by
  simp only [step, fetch, h]

theorem step_reset {rest : List HostInput} {s : State} (h : s.inputs = .reset :: rest) :
    step s = .next (resetEvent { s with inputs := rest }) := by
  simp only [step, fetch, h]

/-! ### Registers as the host reads and writes them -/

/-- The eight registers have the numbers 0 to 7 (R30). -/
theorem csr_cases (n : BitVec 3) : n = 0 ∨ n = 1 ∨ n = 2 ∨ n = 3 ∨ n = 4 ∨ n = 5 ∨ n = 6 ∨ n = 7 := by
  revert n; decide

/-- A write changes no field but the three image registers (R38). -/
theorem csrWrite_frame (s : State) (n : BitVec 3) (v : Half) :
    csrWrite s n v =
      { s with imgW := (csrWrite s n v).imgW, imgH := (csrWrite s n v).imgH, imgFmt := (csrWrite s n v).imgFmt } := by
  unfold csrWrite
  split_ifs <;> rfl

theorem csrRead_setImgW (s : State) (v : Half) (k : BitVec 3) :
    csrRead { s with imgW := v } k = if k = 5 then v else csrRead s k := by
  rcases csr_cases k with rfl | rfl | rfl | rfl | rfl | rfl | rfl | rfl <;> rfl

theorem csrRead_setImgH (s : State) (v : Half) (k : BitVec 3) :
    csrRead { s with imgH := v } k = if k = 6 then v else csrRead s k := by
  rcases csr_cases k with rfl | rfl | rfl | rfl | rfl | rfl | rfl | rfl <;> rfl

theorem csrRead_setImgFmt (s : State) (b : BitVec 1) (k : BitVec 3) :
    csrRead { s with imgFmt := b } k = if k = 7 then b.setWidth 16 else csrRead s k := by
  rcases csr_cases k with rfl | rfl | rfl | rfl | rfl | rfl | rfl | rfl <;> rfl

/-- Of a value written to IMG_FMT the host reads back bit 0 (R37). -/
theorem setWidth_bit0 (v : Half) : (v.setWidth 1).setWidth 16 = v &&& 1 := by
  apply BitVec.eq_of_toNat_eq
  have hone : (1 : Half).toNat = 2 ^ 1 - 1 := rfl
  rw [BitVec.toNat_and, hone, Nat.and_two_pow_sub_one_eq_mod, BitVec.toNat_setWidth, BitVec.toNat_setWidth]
  omega

/-- What the host reads after a write: of the three image registers the value, of the others what they held (R30, R38). -/
theorem csrRead_csrWrite (s : State) (n : BitVec 3) (v : Half) (k : BitVec 3) :
    csrRead (csrWrite s n v) k =
      if k = n then (if n.toNat < 5 then csrRead s k else if n = 7 then v &&& 1 else v) else csrRead s k := by
  by_cases h5 : n = 5
  · subst h5; exact csrRead_setImgW s v k
  by_cases h6 : n = 6
  · subst h6; exact csrRead_setImgH s v k
  by_cases h7 : n = 7
  · subst h7; rw [← setWidth_bit0]; exact csrRead_setImgFmt s (v.setWidth 1) k
  · have hlow : n.toNat < 5 := by bv_omega
    rw [if_pos hlow, ite_self, csrWrite, if_neg h5, if_neg h6, if_neg h7]

/-! ### Reading within the spaces and outside them (R38, R68) -/

theorem hostRead_csr_outside (s : State) {i : Nat} (h : 8 ≤ i) : hostRead s .csr i = .error .notExpressible :=
  if_neg (Nat.not_lt.2 h)

theorem hostRead_fb_outside (s : State) {i : Nat} (h : Config.fbSize ≤ i) : hostRead s .fb i = .error .notExpressible :=
  if_neg (Nat.not_lt.2 h)

theorem hostRead_img_outside (s : State) {i : Nat} (h : Config.imgSize ≤ i) : hostRead s .img i = .error .notExpressible :=
  if_neg (Nat.not_lt.2 h)

/-- The number LASTERR reads tells the result (R34, R250). -/
theorem csrRead_lastErr (s : State) (r : Result) : csrRead s 3 = BitVec.ofNat 16 r.code ↔ s.lastErr = r := by
  have hinj : ∀ q : Result, BitVec.ofNat 16 q.code = BitVec.ofNat 16 r.code ↔ q = r := by
    intro q; cases q <;> cases r <;> decide
  exact hinj s.lastErr

/-- The number TS reads tells the transport state (R31). -/
theorem csrRead_ts (s : State) (ts : TransportState) : csrRead s 0 = BitVec.ofNat 16 ts.code ↔ s.ts = ts := by
  have hinj : ∀ q : TransportState, BitVec.ofNat 16 q.code = BitVec.ofNat 16 ts.code ↔ q = ts := by
    intro q; cases q <;> cases ts <;> decide
  exact hinj s.ts

theorem csrRead_lastErr_le (s : State) : (csrRead s 3).toNat ≤ 6 := by
  have hle : ∀ r : Result, (BitVec.ofNat 16 r.code).toNat ≤ 6 := by intro r; cases r <;> decide
  exact hle s.lastErr

/-- TS never reads 3 where Streaming is ruled out. -/
theorem csrRead_ts_lt {s : State} (h : s.ts ≠ .streaming) : (csrRead s 0).toNat < 3 := by
  have hlt : ∀ ts : TransportState, ts ≠ .streaming → (BitVec.ofNat 16 ts.code).toNat < 3 := by
    intro ts; cases ts <;> decide
  exact hlt s.ts h

/-! ### Reset (R44, R45) -/

/-- A reset event releases the handle when one is bound, and sends nothing (R45). -/
theorem resetEvent_busLog (s : State) :
    (resetEvent s).busLog = s.busLog ++ (if s.ts = .closed then [] else [.closed]) := by
  by_cases h : s.ts = .closed <;> simp [resetEvent, h]

/-! ### The invariant under each update of the state -/

theorem inv_reset : Inv State.reset :=
  ⟨rfl, rfl, rfl, rfl, rfl, by decide, by decide, rfl, rfl, rfl⟩

theorem inv_setInputs {s : State} (h : Inv s) (q : List HostInput) : Inv { s with inputs := q } := { h with }

theorem inv_endOk {s : State} (h : Inv s) : Inv (endOk s) := { h with }

theorem inv_raise {s : State} {r : Result} (h : Inv s) (hr : r ≠ .ok) : Inv (raise r s) :=
  { h with errLogBits := stickyBit_unused h.errLogBits hr }

theorem inv_setFb {s : State} {m : Memory} (h : Inv s) (hm : m.wf Config.fbSize = true) : Inv { s with fb := m } :=
  { h with fbWf := hm }

theorem inv_drawOk {s : State} (h : Inv s) (ps : List Point) : Inv (drawOk ps s) :=
  inv_endOk (inv_setFb h (Memory.plotAll_wf _ ps h.fbWf))

theorem inv_cleared {s : State} (h : Inv s) : Inv (cleared s) :=
  inv_endOk (inv_setFb h (Memory.filled_wf Config.fbSize 0))

theorem inv_setChunkLimit {s : State} {n : Half} (h : Inv s) (hn : n ≠ 0) : Inv { s with chunkLimit := n } :=
  { h with chunkNonzero := hn }

/-- A command may end in any transport state but Streaming, with the hidden positions at the start (R201, R41). -/
theorem inv_commandEnd {s : State} {ts : TransportState} (h : Inv s) (hts : ts ≠ .streaming) :
    Inv { s with ts := ts, seq := .start } :=
  { h with notStreaming := hts, seqStart := rfl }

theorem inv_busClosed {s : State} (h : Inv s) : Inv (busClosed s) := { h with }

theorem inv_busDelivered {s : State} (h : Inv s) (b : List Byte) : Inv (busDelivered b s) :=
  { h with devWf := receive_wf b h.devWf }

theorem inv_busWritten_fail {s : State} (h : Inv s) (b : List Byte) : Inv (busWritten b .fail s) :=
  { h with devWf := Memory.wf_nil }

theorem inv_acknowledged {s : State} (h : Inv s) (bs : List (List Byte)) : Inv (s.acknowledged bs) :=
  { h with devWf := receive_all_wf bs h.devWf }

/-- OPEN from Closed: acknowledged it ends in Uninitialized, refused it changes only the error registers (R205). -/
theorem inv_openAnswered {s : State} (h : Inv s) (a : BitVec 7) (ans : BusAnswer) : Inv (openAnswered a ans s) := by
  cases ans with
  | ok => exact { h with notStreaming := by simp [openAnswered] }
  | fail => exact inv_raise { h with } (by decide)

theorem inv_csrWrite {s : State} (h : Inv s) (n : BitVec 3) (v : Half) : Inv (csrWrite s n v) := by
  unfold csrWrite
  split_ifs <;> exact { h with }

theorem inv_imgWrite {s : State} (h : Inv s) (a : BitVec 15) (v : Byte) : Inv (imgWrite s a v) :=
  { h with imgWf := Memory.write_wf v a.isLt h.imgWf }

/-- A reset puts every part the invariant speaks of at its reset value, but the tables and the device, which it leaves (R44). -/
theorem inv_resetEvent {s : State} (h : Inv s) : Inv (resetEvent s) :=
  { h with
    fbWf := Memory.wf_nil, imgWf := Memory.wf_nil, errLogBits := inv_reset.errLogBits
    chunkNonzero := inv_reset.chunkNonzero, notStreaming := inv_reset.notStreaming, seqStart := rfl }

/-! ### The invariant under instructions and steps -/

/-- A sending of transactions keeps the invariant when its two ways to end do. -/
theorem inv_sendRun {okEnd failEnd : State → State} {bs : List (List Byte)} {s t : State} (h : Inv s)
    (hok : ∀ {u}, Inv u → Inv (okEnd u)) (hfail : ∀ {u}, Inv u → Inv (failEnd u))
    (hrun : sendRun okEnd failEnd bs s = .next t) : Inv t := by
  rcases sendRun_cases hrun with ⟨-, rfl⟩ | ⟨k, hk, -, rfl⟩
  · exact hok (inv_acknowledged h bs)
  · exact hfail (inv_busWritten_fail (inv_acknowledged h _) _)

theorem inv_exec {i : Instr} {s t : State} (h : Inv s) (hex : exec i s = .next t) : Inv t := by
  rcases exec_cases hex with ⟨-, -, rfl⟩ | ⟨-, rfl⟩ | ⟨r, hr, rfl⟩ | ⟨a, ans, -, -, -, rfl⟩ | ⟨-, -, hinit⟩ |
    ⟨-, -, -, hblit⟩ | ⟨-, rfl⟩ | ⟨n, -, hn, rfl⟩ | ⟨-, rfl⟩
  · exact inv_drawOk h _
  · exact inv_cleared h
  · exact inv_raise h (refusedEarly_ne hr)
  · exact inv_openAnswered h a ans
  · exact inv_sendRun h (fun hu => inv_endOk (inv_commandEnd hu (by decide)))
      (fun hu => inv_raise (inv_commandEnd (inv_busClosed hu) (by decide)) (by decide)) hinit
  · exact inv_sendRun h (fun hu => inv_endOk (inv_commandEnd hu (by decide)))
      (fun hu => inv_raise (inv_commandEnd hu (by decide)) (by decide)) hblit
  · have hreleased : Inv (if s.ts = .closed then s else busClosed s) := by
      split
      · exact h
      · exact inv_busClosed h
    exact { hreleased with notStreaming := by simp }
  · exact inv_endOk (inv_setChunkLimit h hn)
  · exact inv_busDelivered h _

theorem inv_step {s t : State} (h : Inv s) (hstep : step s = .next t) : Inv t := by
  rcases step_cases hstep with ⟨-, rfl⟩ | ⟨m, rest, -, ⟨i, -, hex⟩ | ⟨w, e, -, -, rfl⟩ | ⟨n, v, -, rfl⟩ | ⟨a, v, -, rfl⟩ |
    ⟨-, rfl⟩⟩
  · exact h
  · exact inv_exec (inv_setInputs h rest) hex
  · exact inv_raise (inv_setInputs h rest) (by decide)
  · exact inv_csrWrite (inv_setInputs h rest) n v
  · exact inv_imgWrite (inv_setInputs h rest) a v
  · exact inv_resetEvent (inv_setInputs h rest)

/-! ### The error registers after an instruction -/

/-- How a host command ends: with Ok and the record as it was, or with an error whose bit is set in it (R262, R264). -/
def RecordsResult (s t : State) : Prop :=
  (t.lastErr = .ok ∧ t.errLog = s.errLog) ∨ (t.lastErr ≠ .ok ∧ t.errLog = stickyBit s.errLog t.lastErr)

theorem recordsResult_sendRun {okEnd failEnd : State → State} {bs : List (List Byte)} {s t : State}
    (hok : ∀ u, RecordsResult u (okEnd u)) (hfail : ∀ u, RecordsResult u (failEnd u))
    (hrun : sendRun okEnd failEnd bs s = .next t) : RecordsResult s t := by
  rcases sendRun_cases hrun with ⟨-, rfl⟩ | ⟨k, hk, -, rfl⟩
  · exact hok (s.acknowledged bs)
  · exact hfail (busWritten bs[k] .fail (s.acknowledged (bs.take k)))

theorem exec_recordsResult {i : Instr} {s t : State} (hi : i.isBusSide = false) (hex : exec i s = .next t) :
    RecordsResult s t := by
  rcases exec_cases hex with ⟨-, -, rfl⟩ | ⟨-, rfl⟩ | ⟨r, hr, rfl⟩ | ⟨a, ans, -, -, -, rfl⟩ | ⟨-, -, hinit⟩ |
    ⟨-, -, -, hblit⟩ | ⟨-, rfl⟩ | ⟨n, -, -, rfl⟩ | ⟨hbus, -⟩
  · exact .inl ⟨rfl, rfl⟩
  · exact .inl ⟨rfl, rfl⟩
  · exact .inr ⟨refusedEarly_ne hr, rfl⟩
  · cases ans with
    | ok => exact .inl ⟨rfl, rfl⟩
    | fail => exact .inr ⟨by simp [openAnswered], rfl⟩
  · refine recordsResult_sendRun (fun _ => ?_) (fun _ => ?_) hinit
    · exact .inl ⟨rfl, rfl⟩
    · exact .inr ⟨by simp [initFail], rfl⟩
  · refine recordsResult_sendRun (fun _ => ?_) (fun _ => ?_) hblit
    · exact .inl ⟨rfl, rfl⟩
    · exact .inr ⟨by simp [blitFail], rfl⟩
  · exact .inl ⟨rfl, by split <;> rfl⟩
  · exact .inl ⟨rfl, rfl⟩
  · rw [hi] at hbus; exact absurd hbus Bool.false_ne_true

/-- A row of the bus side reports nothing (log 3). -/
theorem exec_busSide_errors {i : Instr} {s t : State} (hi : i.isBusSide = true) (hex : exec i s = .next t) :
    t.lastErr = s.lastErr ∧ t.errLog = s.errLog := by
  rw [exec_busSide hi] at hex
  injection hex with hex
  subst hex
  exact ⟨rfl, rfl⟩

/-- Which bits of the record are on after a host command (R35). -/
theorem RecordsResult.getLsbD {s t : State} (h : RecordsResult s t) (k : Nat) :
    t.errLog.getLsbD k = (s.errLog.getLsbD k || (decide (1 ≤ k ∧ k < 16) && k == t.lastErr.code)) := by
  rcases h with ⟨hr, hl⟩ | ⟨hr, hl⟩
  · rw [hl, hr]; exact ok_bit _ k
  · rw [hl]; exact sticky_bit _ _ k hr

/-- An error sets its bit and clears none. -/
theorem stickyBit_keeps {l : Half} {k : Nat} (r : Result) (h : l.getLsbD k = true) : (stickyBit l r).getLsbD k = true := by
  rw [stickyBit, BitVec.getLsbD_or, h, Bool.true_or]

theorem exec_keeps_errLog_bit {i : Instr} {s t : State} {k : Nat} (hex : exec i s = .next t)
    (hk : s.errLog.getLsbD k = true) : t.errLog.getLsbD k = true := by
  cases hi : i.isBusSide with
  | true => rw [(exec_busSide_errors hi hex).2, hk]
  | false => rw [(exec_recordsResult hi hex).getLsbD, hk, Bool.true_or]

/-- ERRLOG is sticky: a step that is not a reset clears no bit of it (R35). -/
theorem step_keeps_errLog_bit {s t : State} {k : Nat} (hstep : step s = .next t)
    (hreset : ∀ rest, s.inputs ≠ .reset :: rest) (hk : s.errLog.getLsbD k = true) : t.errLog.getLsbD k = true := by
  rcases step_cases hstep with ⟨-, rfl⟩ | ⟨m, rest, hin, ⟨i, -, hex⟩ | ⟨w, e, -, -, rfl⟩ | ⟨n, v, -, rfl⟩ |
    ⟨a, v, -, rfl⟩ | ⟨rfl, -⟩⟩
  · exact hk
  · exact exec_keeps_errLog_bit hex hk
  · exact stickyBit_keeps _ hk
  · rw [csrWrite_errLog]; exact hk
  · exact hk
  · exact absurd hin (hreset rest)

/-! ### What an instruction changes -/

/-- Stated of one state, it serves any two that differ only in the other fields. -/
theorem keeps_refl (s : State) : SameSources s s ∧ s.initSeq = s.initSeq ∧ s.inputs = s.inputs :=
  ⟨⟨rfl, rfl, rfl, rfl, rfl, rfl, rfl⟩, rfl, rfl⟩

/-- The image buffer, the image registers, the reset count, the tables and the queue of moves are no instruction's to write
(R38, R63, R79). -/
theorem exec_keeps {i : Instr} {s t : State} (hex : exec i s = .next t) :
    SameSources s t ∧ t.initSeq = s.initSeq ∧ t.inputs = s.inputs := by
  rcases exec_cases hex with ⟨-, -, rfl⟩ | ⟨-, rfl⟩ | ⟨r, -, rfl⟩ | ⟨a, ans, -, -, -, rfl⟩ | ⟨-, -, hinit⟩ |
    ⟨-, -, -, hblit⟩ | ⟨-, rfl⟩ | ⟨n, -, -, rfl⟩ | ⟨-, rfl⟩
  · exact keeps_refl s
  · exact keeps_refl s
  · exact keeps_refl s
  · cases ans <;> exact keeps_refl s
  · rw [init_sent hinit]; exact keeps_refl s
  · rw [blit_sent hblit]; exact keeps_refl s
  · split <;> exact keeps_refl s
  · exact keeps_refl s
  · exact keeps_refl s

/-- OPEN, with its operand or without. -/
def isOpen (i : Instr) : Prop := (∃ a, i = .openBus a) ∨ i = .openDefault

/-- Who writes the framebuffer, CHUNK_LIMIT, ADDR, TS and the device: each is as before or the instruction is one of its
writers (R33, R60, R110, R201). -/
theorem exec_writers {i : Instr} {s t : State} (hex : exec i s = .next t) :
    (t.fb = s.fb ∨ isDrawing i = true ∨ i = .clear ∨ i = .frame) ∧
    (t.chunkLimit = s.chunkLimit ∨ ∃ n, i = .setChunk n) ∧
    (t.addr = s.addr ∨ isOpen i) ∧
    (t.ts = s.ts ∨ isOpen i ∨ i = .init ∨ i = .blit ∨ i = .close) ∧
    (t.dev = s.dev ∨ i = .init ∨ i = .blit ∨ i.isBusSide = true) := by
  rcases exec_cases hex with ⟨hi, -, rfl⟩ | ⟨hi, rfl⟩ | ⟨r, -, rfl⟩ | ⟨a, ans, hi, -, -, rfl⟩ | ⟨rfl, -, hinit⟩ |
    ⟨rfl, -, -, hblit⟩ | ⟨rfl, rfl⟩ | ⟨n, rfl, -, rfl⟩ | ⟨hi, rfl⟩
  · exact ⟨.inr (.inl hi), .inl rfl, .inl rfl, .inl rfl, .inl rfl⟩
  · exact ⟨.inr (.inr hi), .inl rfl, .inl rfl, .inl rfl, .inl rfl⟩
  · exact ⟨.inl rfl, .inl rfl, .inl rfl, .inl rfl, .inl rfl⟩
  · have hopen : isOpen i := hi.imp (fun ⟨b, hb, _⟩ => ⟨b, hb⟩) And.left
    cases ans <;> exact ⟨.inl rfl, .inl rfl, .inr hopen, .inr (.inl hopen), .inl rfl⟩
  · rw [init_sent hinit]
    exact ⟨.inl rfl, .inl rfl, .inl rfl, .inr (.inr (.inl rfl)), .inr (.inl rfl)⟩
  · rw [blit_sent hblit]
    exact ⟨.inl rfl, .inl rfl, .inl rfl, .inr (.inr (.inr (.inl rfl))), .inr (.inr (.inl rfl))⟩
  · split <;> exact ⟨.inl rfl, .inl rfl, .inl rfl, .inr (.inr (.inr (.inr rfl))), .inl rfl⟩
  · exact ⟨.inl rfl, .inr ⟨n, rfl⟩, .inl rfl, .inl rfl, .inl rfl⟩
  · exact ⟨.inl rfl, .inl rfl, .inl rfl, .inl rfl, .inr (.inr (.inr hi))⟩

theorem not_isOpen {i : Instr} (ha : ∀ a, i ≠ .openBus a) (hd : i ≠ .openDefault) : ¬ isOpen i
  | .inl ⟨a, h⟩ => ha a h
  | .inr h => hd h

end Sys2Proof.Machine

/-! SETTLED. The obligations of 10_state.md, by tier. -/

namespace Sys2Proof.Proofs

open Sys2Proof.Machine

/-- Settles O6: `step_command` and `step_abstract`, one for each way the host names an instruction. -/
theorem stepRunsDecoded : Obligations.StepRunsDecoded :=
  fun _ _ _ => ⟨fun _ hin hdec => step_command hin hdec, step_abstract⟩

/-- Settles O7: the word goes into the queue as a command word where it is one, and else as the instruction of the bus side
that it names. -/
theorem tableWordRuns : Obligations.TableWordRuns := by
  intro s nbits w i hword hfit
  unfold decodeTableWord at hword
  split at hword
  next j hdec =>
    injection hword with hji
    have hin : (s.withFetchWord nbits w).inputs = .command (tableCommandWord nbits w) :: s.inputs := by
      simp only [State.withFetchWord, tableInput, hdec]
    rw [← hji]
    exact step_command hin hdec
  next e hdec =>
    have hin : (s.withFetchWord nbits w).inputs = .abstract i :: s.inputs := by
      simp only [State.withFetchWord, tableInput, hdec, hword]
    exact step_abstract hin hfit

/-- Settles O10: the reads by the lemma of each space, the registers' bounds from the invariant. -/
theorem hostReads : Obligations.HostReads := by
  intro s hinv
  refine ⟨⟨hostRead_csr s, fun _ => hostRead_csr_outside s⟩, ⟨fun _ => hostRead_fb s, fun _ => hostRead_fb_outside s⟩,
    ⟨fun _ => hostRead_img s, fun _ => hostRead_img_outside s⟩, fun _ => ⟨rfl, rfl, rfl⟩, ?_⟩
  have hunused : csrRead s 4 &&& 0xFF81 = 0 := hinv.errLogBits
  exact ⟨csrRead_ts_lt hinv.notStreaming, rfl, rfl, hinv.chunkNonzero, rfl, hunused, rfl, rfl, rfl,
    csrRead_ts s .closed, csrRead_ts s .uninitialized, csrRead_ts s .initialized,
    csrRead_lastErr s .ok, csrRead_lastErr s .deviceUnavailable, csrRead_lastErr s .initFailed,
    csrRead_lastErr s .transferFailed, csrRead_lastErr s .dimensionMismatch, csrRead_lastErr s .invalidState,
    csrRead_lastErr s .illegalCommand, csrRead_lastErr_le s⟩

/-- Settles O11: the reset state is a literal. -/
theorem resetValues : Obligations.ResetValues := ⟨rfl, rfl, rfl, rfl, rfl, rfl, rfl⟩

/-- Settles O12: the bus log by `resetEvent_busLog`, every other field as `resetEvent` sets it. -/
theorem resetEvent : Obligations.ResetEvent := by
  intro s rest hin
  refine ⟨_, step_reset hin, ?_, fun a => ⟨rfl, rfl⟩⟩
  rw [← resetEvent_busLog { s with inputs := rest }]
  rfl

/-- Settles O53: the reset state is a literal, and each clause of the invariant computes on it. -/
theorem invAtReset : Obligations.InvAtReset := inv_reset

/-- Settles O9: the register a write names is the only one that reads otherwise, and so is the byte of the image buffer. -/
theorem hostWrites : Obligations.HostWrites := by
  refine fun s rest => ⟨fun n v hin => ?_, fun a v hin => ?_⟩
  · exact ⟨_, step_writeCsr hin, csrWrite_frame _ n v, csrRead_csrWrite { s with inputs := rest } n v⟩
  · exact ⟨_, step_writeImg hin, rfl, fun b => Memory.read_write _ s.img a.toNat b v⟩

/-- Settles O55: `RecordsResult` is what every host command leaves, and no move but a reset clears a bit. -/
theorem errLogRecordsTheResult : Obligations.ErrLogRecordsTheResult := by
  refine ⟨fun i s t hi hex k => (exec_recordsResult hi hex).getLsbD k, fun s t k hstep hon hoff => ?_⟩
  by_contra hreset
  rw [step_keeps_errLog_bit hstep (fun rest hin => hreset ⟨rest, hin⟩) hon] at hoff
  exact Bool.noConfusion hoff

/-- Settles O57: `exec_keeps` for what no instruction changes, `exec_writers` and the error registers for the rest. -/
theorem whoWritesWhat : Obligations.WhoWritesWhat := by
  intro i s t hex
  obtain ⟨⟨hfont, himg, himgW, himgH, himgFmt, hbayer, hresets⟩, hinitSeq, hinputs⟩ := exec_keeps hex
  obtain ⟨hfb, hchunk, haddr, hts, hdev⟩ := exec_writers hex
  refine ⟨fun hdraw hclear hfr => ?_, himg, himgW, himgH, himgFmt, hresets, fun hn => ?_, fun ha hd => ?_, hfont, hbayer,
    hinitSeq, hinputs, fun ha hd hin hbl hcl => ?_, fun hbus => exec_busSide_errors hbus hex, fun hbus hok => ?_,
    fun hin hbl hbus => ?_⟩
  · exact hfb.resolve_right (by simp [hdraw, hclear, hfr])
  · exact hchunk.resolve_right fun ⟨n, h⟩ => hn n h
  · exact haddr.resolve_right (not_isOpen ha hd)
  · exact hts.resolve_right (by simp [not_isOpen ha hd, hin, hbl, hcl])
  · rcases exec_recordsResult hbus hex with ⟨-, hlog⟩ | ⟨herr, -⟩
    · exact hlog
    · exact absurd hok herr
  · exact hdev.resolve_right (by simp [hin, hbl, hbus])

/-- Settles O54: each update of the state keeps the invariant, and `step_cases` lists the updates. -/
theorem invKept : Obligations.InvKept := fun _ _ hinv hstep => inv_step hinv hstep

end Sys2Proof.Proofs

/-! SUPPORT. Two drawing commands in a row, and what a host command adds to the bus log. -/

namespace Sys2Proof.Machine

open Sys2Proof

/-! ### Two drawing commands -/

/-- The second of two drawing commands plots what it would have plotted from the start, for drawing does not change what
drawing reads (R187): after both, the points of both lists are plotted. -/
theorem exec_drawing_twice {i j : Instr} (hi : isDrawing i = true) (hj : isDrawing j = true) (s : State) :
    ∃ t u, exec i s = .next t ∧ exec j t = .next u ∧ (∀ a, t.fbByte a = (s.drawn (drawPoints i s)).fbByte a) ∧
      ∀ a, u.fbByte a = (s.drawn (drawPoints i s ++ drawPoints j s)).fbByte a := by
  obtain ⟨t, ht, htfb, hsame⟩ := exec_drawing hi s
  obtain ⟨u, hu, hufb, -, -, -, -, -, -, huresets⟩ := exec_drawing hj t
  have hfirst : ∀ a, t.fbByte a = (s.drawn (drawPoints i s)).fbByte a := by
    obtain ⟨-, -, -, -, -, -, htresets⟩ := hsame
    exact fbByte_of_fb htfb htresets
  refine ⟨t, u, ht, hu, hfirst, fun a => ?_⟩
  calc u.fbByte a = (t.drawn (drawPoints j t)).fbByte a := fbByte_of_fb hufb huresets a
    _ = (t.drawn (drawPoints j s)).fbByte a := by rw [drawPoints_congr hsame]
    _ = ((s.drawn (drawPoints i s)).drawn (drawPoints j s)).fbByte a := fbByte_drawn_congr hfirst (fun _ _ => Iff.rfl) a
    _ = (s.drawn (drawPoints i s ++ drawPoints j s)).fbByte a := by rw [drawn_append]

/-! ### Events of one command -/

/-- Every event before a transaction is a transaction answered ok, and no transaction follows one answered fail (R76). -/
def StopsAtFail (new : List BusEvent) : Prop :=
  ∀ (pre post : List BusEvent) (b : List Byte) (ans : BusAnswer), new = pre ++ BusEvent.wrote b ans :: post →
    (∀ e, e ∈ pre → ∃ c, e = .wrote c .ok) ∧
    (ans = .fail → ∀ (c : List Byte) (a : BusAnswer), BusEvent.wrote c a ∉ post)

/-- No event of the list is a transaction. -/
def NoTransaction (new : List BusEvent) : Prop := ∀ (b : List Byte) (ans : BusAnswer), BusEvent.wrote b ans ∉ new

theorem noTransaction_nil : NoTransaction [] := by simp [NoTransaction]

theorem noTransaction_closed : NoTransaction [.closed] := by simp [NoTransaction]

theorem noTransaction_opened (a : BitVec 7) (ans : BusAnswer) : NoTransaction [.opened a ans] := by simp [NoTransaction]

theorem NoTransaction.stopsAtFail {new : List BusEvent} (h : NoTransaction new) : StopsAtFail new := by
  rintro pre post b ans rfl
  exact (h b ans (by simp)).elim

/-- A transaction answered ok may stand before any list that stops at a fail. -/
theorem StopsAtFail.cons_ok {new : List BusEvent} (h : StopsAtFail new) (b : List Byte) : StopsAtFail (.wrote b .ok :: new) := by
  intro pre post c ans heq
  cases pre with
  | nil =>
    obtain ⟨hhead, -⟩ := List.cons.inj heq
    obtain ⟨-, rfl⟩ := BusEvent.wrote.inj hhead
    exact ⟨by simp, by simp⟩
  | cons e pre =>
    obtain ⟨rfl, hnew⟩ := List.cons.inj heq
    obtain ⟨hpre, hpost⟩ := h pre post c ans hnew
    exact ⟨by simpa using hpre, hpost⟩

theorem StopsAtFail.append_ok {new : List BusEvent} (h : StopsAtFail new) (bs : List (List Byte)) :
    StopsAtFail (bs.map (fun b => BusEvent.wrote b .ok) ++ new) := by
  induction bs with
  | nil => exact h
  | cons b bs ih => exact ih.cons_ok b

/-- After a transaction answered fail only events that are no transactions may come. -/
theorem stopsAtFail_cons_fail {post : List BusEvent} (h : NoTransaction post) (b : List Byte) :
    StopsAtFail (.wrote b .fail :: post) := by
  intro pre post' c ans heq
  cases pre with
  | nil =>
    obtain ⟨-, rfl⟩ := List.cons.inj heq
    exact ⟨by simp, fun _ => h⟩
  | cons e pre =>
    obtain ⟨-, rfl⟩ := List.cons.inj heq
    exact (h c ans (by simp)).elim

/-! ### What a host command adds to the bus log -/

/-- From `s` to `t` the bus log is only extended, by events that stop at a fail. -/
def SendsInOrder (s t : State) : Prop := ∃ new, t.busLog = s.busLog ++ new ∧ StopsAtFail new

theorem sendsInOrder_of_noTransaction {s t : State} {new : List BusEvent} (hlog : t.busLog = s.busLog ++ new)
    (h : NoTransaction new) : SendsInOrder s t := ⟨new, hlog, h.stopsAtFail⟩

theorem sendsInOrder_of_busLog_eq {s t : State} (hlog : t.busLog = s.busLog) : SendsInOrder s t :=
  sendsInOrder_of_noTransaction (by rw [hlog, List.append_nil]) noTransaction_nil

/-- A sending of transactions stops at the first fail, where its two ways to end send none of their own. -/
theorem sendsInOrder_sendRun {okEnd failEnd : State → State} {bs : List (List Byte)} {after : List BusEvent} {s t : State}
    (hrun : sendRun okEnd failEnd bs s = .next t) (hok : ∀ u, (okEnd u).busLog = u.busLog)
    (hfail : ∀ u, (failEnd u).busLog = u.busLog ++ after) (hafter : NoTransaction after) : SendsInOrder s t := by
  rcases sendRun_cases hrun with ⟨-, rfl⟩ | ⟨k, hk, -, rfl⟩
  · refine ⟨_, ?_, noTransaction_nil.stopsAtFail.append_ok bs⟩
    rw [hok, List.append_nil]
    rfl
  · refine ⟨_, ?_, (stopsAtFail_cons_fail hafter bs[k]).append_ok (bs.take k)⟩
    rw [hfail]
    simp [busWritten, State.acknowledged]

theorem exec_sendsInOrder {i : Instr} {s t : State} (hi : i.isBusSide = false) (hex : exec i s = .next t) :
    SendsInOrder s t := by
  rcases exec_cases hex with ⟨-, -, rfl⟩ | ⟨-, rfl⟩ | ⟨r, -, rfl⟩ | ⟨a, ans, -, -, -, rfl⟩ | ⟨-, -, hinit⟩ |
    ⟨-, -, -, hblit⟩ | ⟨-, rfl⟩ | ⟨n, -, -, rfl⟩ | ⟨hbus, -⟩
  · exact sendsInOrder_of_busLog_eq rfl
  · exact sendsInOrder_of_busLog_eq rfl
  · exact sendsInOrder_of_busLog_eq rfl
  · have hlog : (openAnswered a ans s).busLog = s.busLog ++ [.opened a ans] := by cases ans <;> rfl
    exact sendsInOrder_of_noTransaction hlog (noTransaction_opened a ans)
  · exact sendsInOrder_sendRun hinit (fun _ => rfl) (fun _ => rfl) noTransaction_closed
  · exact sendsInOrder_sendRun hblit (fun _ => rfl) (fun u => (List.append_nil u.busLog).symm) noTransaction_nil
  · split
    · exact sendsInOrder_of_busLog_eq rfl
    · exact sendsInOrder_of_noTransaction rfl noTransaction_closed
  · exact sendsInOrder_of_busLog_eq rfl
  · rw [hi] at hbus; exact absurd hbus Bool.false_ne_true

end Sys2Proof.Machine

/-! SETTLED. The obligations of 20_memory.md. -/

namespace Sys2Proof.Proofs

open Sys2Proof.Machine

/-- Settles O26: the second execution plots the same list again, and a list plotted twice has the points it has once. -/
theorem drawingIdempotent : Obligations.DrawingIdempotent := by
  intro i s hi
  obtain ⟨t, u, ht, hu, hfirst, hboth⟩ := exec_drawing_twice hi hi s
  refine ⟨t, u, ht, hu, fun a => ?_⟩
  rw [hfirst, hboth]
  exact fbByte_drawn_congr (fun _ => rfl) (by simp) a

/-- Settles O27: in either order the points of both lists are plotted. -/
theorem drawingCommutes : Obligations.DrawingCommutes := by
  intro i j s hi hj
  obtain ⟨t, u, ht, hu, -, hij⟩ := exec_drawing_twice hi hj s
  obtain ⟨t', u', ht', hu', -, hji⟩ := exec_drawing_twice hj hi s
  refine ⟨t, u, t', u', ht, hu, ht', hu', fun a _ => ?_⟩
  rw [hij, hji]
  exact fbByte_drawn_congr (fun _ => rfl) (fun q _ => by simp [or_comm]) a

/-- Settles O44: INIT and BLIT are sendings that stop at the first fail, and no other host command sends a transaction. -/
theorem transactionsStopAtFail : Obligations.TransactionsStopAtFail := fun _ _ _ hi hex => exec_sendsInOrder hi hex

end Sys2Proof.Proofs

/-! SUPPORT. Command words and bus transactions as whole strings (30_encoding.md): what more bytes after a word can mend, what the
assembler's expansion keeps, and when a byte string is a transaction. -/

namespace Sys2Proof

open Sys2Proof.Machine

/-! ### Operands -/

theorem u16_toNat (lo hi : Byte) : (u16 lo hi).toNat = lo.toNat + 256 * hi.toNat := raw16_toNat lo hi

/-- An s16 operand is the raw value read in two's complement (R104). -/
theorem s16_eq (lo hi : Byte) :
    s16 lo hi = if lo.toNat + 256 * hi.toNat < 32768 then ((lo.toNat + 256 * hi.toNat : Nat) : Int)
      else ((lo.toNat + 256 * hi.toNat : Nat) : Int) - 65536 := by
  rw [s16, BitVec.toInt_eq_toNat_cond, raw16_toNat]
  split_ifs <;> omega

/-! ### Whole command words -/

theorem encode_length (i : Instr) : i.encode.length = i.length := by
  cases i
  case text x y str => exact Laws.WordLength.text x y str
  case drawText x y str => exact Laws.WordLength.drawText x y str
  case busData payload => exact Laws.WordLength.busData payload
  all_goals rfl

theorem decode_encode {i : Instr} (hc : i.isCommand = true) (hw : i.wellFormed = true) : decode i.encode = .ok i := by
  rw [decode_ok_iff, ← decodeFront_encode i hc hw [], List.append_nil]

/-- The assembler turns a pseudo form into a command with the same word, well-formed when the pseudo form is (R108). -/
theorem expand_pseudo {i : Instr} (hp : i.isPseudo = true) :
    i.expand.isCommand = true ∧ i.expand.encode = i.encode ∧ (i.wellFormed = true → i.expand.wellFormed = true) := by
  cases i
  case openDefault =>
    exact ⟨rfl, rfl, fun _ => wf_of_fits rfl (by simp [Instr.expand, Instr.operandsLegal, addrBit7_setWidth])⟩
  case frame | drawGlyph | drawText => exact ⟨rfl, rfl, id⟩
  all_goals exact absurd hp Bool.false_ne_true

/-- Bytes after a command read off the front are left as they are. -/
theorem decodeFront_append {w r : List Byte} {i : Instr} (h : decodeFront w = .ok (i, r)) (x : List Byte) :
    decodeFront (w ++ x) = .ok (i, r ++ x) := by
  obtain ⟨hc, hw, rfl⟩ := decodeFront_inv h
  rw [List.append_assoc, decodeFront_encode i hc hw]

/-! ### What more bytes can mend: only a word cut short (R106) -/

/-- A decoder that reports the same error on every longer string, unless the string was cut short. -/
def OnlyCutsMend (f : List Byte → Decoded) : Prop :=
  ∀ b r e, f b = .error e → e ≠ .truncated → f (b ++ r) = .error e

theorem OnlyCutsMend.ite {c : Prop} [Decidable c] {f g : List Byte → Decoded} (hf : OnlyCutsMend f) (hg : OnlyCutsMend g) :
    OnlyCutsMend fun b => if c then f b else g b := by
  by_cases h : c
  · simpa only [h, if_true] using hf
  · simpa only [h, if_false] using hg

theorem onlyCutsMend_of_ok (i : Instr) : OnlyCutsMend fun b => .ok (i, b) :=
  fun _ _ _ h _ => absurd h (by simp)

theorem onlyCutsMend_of_truncated {f : List Byte → Decoded} (h : ∀ b e, f b = .error e → e = .truncated) : OnlyCutsMend f :=
  fun b _ e hb he => absurd (h b e hb) he

theorem onlyCutsMend_unassigned (op : Byte) : OnlyCutsMend fun _ => .error (.unassignedOpcode op) := fun _ _ _ h _ => h

theorem onlyCutsMend_decodeF2 (mk : Int → Int → Instr) : OnlyCutsMend (decodeF2 mk) :=
  onlyCutsMend_of_truncated fun b e h => by
    unfold decodeF2 at h
    split at h <;> cases h
    rfl

theorem onlyCutsMend_decodeF4 (mk : Int → Int → Int → Int → Instr) : OnlyCutsMend (decodeF4 mk) :=
  onlyCutsMend_of_truncated fun b e h => by
    unfold decodeF4 at h
    split at h <;> cases h
    rfl

theorem onlyCutsMend_decodeFG (mk : Int → Int → Byte → Instr) : OnlyCutsMend (decodeFG mk) :=
  onlyCutsMend_of_truncated fun b e h => by
    unfold decodeFG at h
    split at h <;> cases h
    rfl

theorem onlyCutsMend_decodeFT (mk : Int → Int → List Byte → Instr) : OnlyCutsMend (decodeFT mk) :=
  onlyCutsMend_of_truncated fun b e h => by
    unfold decodeFT at h
    split at h
    · split at h <;> cases h
      rfl
    · cases h; rfl

/-- The bit 7 of an address that makes it illegal is in its one byte, which stands at the front of every longer string. -/
theorem onlyCutsMend_decodeFA (mk : Byte → Instr) : OnlyCutsMend (decodeFA mk) := by
  intro b r e h he
  cases b with
  | nil => cases h; exact absurd rfl he
  | cons a b =>
    by_cases h7 : addrBit7 a = true
    · simpa only [decodeFA, List.cons_append, h7, if_true] using h
    · rw [decodeFA, if_neg h7] at h
      cases h

/-- The length that makes SETCHUNK illegal is in its two bytes, which stand at the front of every longer string. -/
theorem onlyCutsMend_decodeFN (mk : Half → Instr) : OnlyCutsMend (decodeFN mk) := by
  intro b r e h he
  match b, h with
  | [], h => cases h; exact absurd rfl he
  | [_], h => cases h; exact absurd rfl he
  | n0 :: n1 :: b, h =>
    by_cases h0 : u16 n0 n1 = 0
    · simpa only [decodeFN, List.cons_append, h0, if_true] using h
    · rw [decodeFN, if_neg h0] at h
      cases h

theorem onlyCutsMend_decodeFront : OnlyCutsMend decodeFront := by
  intro b r e h he
  cases b with
  | nil => cases h; exact absurd rfl he
  | cons op b =>
    have hdispatch : OnlyCutsMend fun b => decodeFront (op :: b) :=
      .ite (onlyCutsMend_of_ok .clear) <| .ite (onlyCutsMend_decodeF2 .setPixel) <| .ite (onlyCutsMend_decodeF4 .line) <|
      .ite (onlyCutsMend_decodeF4 .rect) <| .ite (onlyCutsMend_decodeFG .glyph) <| .ite (onlyCutsMend_decodeFT .text) <|
      .ite (onlyCutsMend_of_ok .dither) <| .ite (onlyCutsMend_decodeFA .openBus) <| .ite (onlyCutsMend_of_ok .init) <|
      .ite (onlyCutsMend_of_ok .blit) <| .ite (onlyCutsMend_of_ok .close) <| .ite (onlyCutsMend_decodeFN .setChunk) <|
      onlyCutsMend_unassigned op
    exact hdispatch b r e h he

/-- A command cut short is illegal for that reason: any other answer would stand on the whole word too (R106 d). -/
theorem decode_take_encode {i : Instr} (hc : i.isCommand = true) (hw : i.wellFormed = true) {k : Nat} (hk : k < i.length) :
    decode (i.encode.take k) = .error .truncated := by
  have hwhole : decodeFront (i.encode.take k ++ i.encode.drop k) = .ok (i, []) := by
    rw [List.take_append_drop, ← decode_ok_iff, decode_encode hc hw]
  cases hcut : decodeFront (i.encode.take k) with
  | ok p =>
    obtain ⟨j, r⟩ := p
    rw [decodeFront_append hcut] at hwhole
    obtain ⟨-, -, hdrop⟩ : j = i ∧ r = [] ∧ i.encode.length ≤ k := by simpa using hwhole
    rw [encode_length] at hdrop
    omega
  | error e =>
    by_cases he : e = .truncated
    · exact decode_error (he ▸ hcut)
    · rw [onlyCutsMend_decodeFront _ _ _ hcut he] at hwhole
      cases hwhole

theorem decode_open_bit7 {a : Byte} (ha : 128 ≤ a.toNat) (r : List Byte) : decode (0x20 :: a :: r) = .error .addressBit7 := by
  have h7 : addrBit7 a = true := by rw [addrBit7_eq]; exact decide_eq_true ha
  have hfa : decodeFA .openBus (a :: r) = .error .addressBit7 := by rw [decodeFA, if_pos h7]
  exact decode_error hfa

theorem decode_setChunk_zero (r : List Byte) : decode (0x24 :: 0x00 :: 0x00 :: r) = .error .chunkZero :=
  decode_error rfl

/-! ### Bus transactions -/

/-- The two formats of a transaction, each read back (R120, R121, R122). -/
theorem decodeBus_iff {b : List Byte} {i : Instr} :
    decodeBus b = some i ↔
      (∃ c, i = .busCmd c ∧ b = [0x00, c]) ∨ ∃ p, i = .busData p ∧ 1 ≤ p.length ∧ p.length ≤ 128 ∧ b = 0x40 :: p := by
  constructor
  · intro h
    unfold decodeBus at h
    split at h
    · cases h
    · split_ifs at h with hcmd hdata hlen
      · split at h
        · cases h; exact .inl ⟨_, rfl, by rw [hcmd]⟩
        · cases h
      · cases h; exact .inr ⟨_, rfl, hlen.1, hlen.2, by rw [hdata]⟩
  · rintro (⟨c, rfl, rfl⟩ | ⟨p, rfl, h1, h128, rfl⟩)
    · rfl
    · have hlen : 1 ≤ p.length ∧ p.length ≤ 128 := ⟨h1, h128⟩
      simp [decodeBus, hlen]

theorem pageAddrByte_eq (p : BitVec 3) : pageAddrByte p = 0xB0 + BitVec.ofNat 8 p.toNat := by
  revert p; decide

/-- The page-address byte of a page names the row of that page (R123). -/
theorem decodeDeviceByte_page (p : BitVec 3) : decodeDeviceByte (pageAddrByte p) = some (.devPageAddr p) := by
  revert p; decide

end Sys2Proof

/-! SUPPORT. What an instruction does in each case in which it completes, said forwards; what it does from a state with other error
registers; which transactions it adds to the bus log; and the rows of the bus side. -/

namespace Sys2Proof.Machine

open Sys2Proof

/-! ### Instructions, forwards: each case of `exec_cases` answers the state it names -/

theorem exec_draws {i : Instr} {s : State} (hi : isDrawing i = true) (hm : i = .dither → s.sizeMismatch = false) :
    exec i s = .next (drawOk (drawPoints i s) s) := by
  cases i
  case dither =>
    change execDither s = _
    simp only [execDither, drawPoints, hm rfl, Bool.false_eq_true, if_false]
  case setPixel | line | rect | glyph | text | drawGlyph | drawText => rw [drawPoints]; rfl
  all_goals exact absurd hi Bool.false_ne_true

theorem exec_clears {i : Instr} (hi : i = .clear ∨ i = .frame) (s : State) : exec i s = .next (cleared s) := by
  rcases hi with rfl | rfl <;> rfl

theorem exec_refusedEarly {i : Instr} {s : State} {r : Result} (h : refusedEarly i s r) : exec i s = .next (raise r s) := by
  rcases h with ⟨rfl, hm, rfl⟩ | ⟨⟨a, rfl, h7⟩, rfl⟩ | ⟨rfl, rfl⟩ | ⟨⟨⟨a, rfl, h7⟩ | rfl, hts⟩, rfl⟩ | ⟨rfl, hts, rfl⟩ |
    ⟨rfl, hts, rfl⟩
  · change execDither s = _; rw [execDither, if_pos hm]
  · change execOpen a s = _; rw [execOpen, if_pos h7]
  · rfl
  · change execOpen a s = _; rw [execOpen, h7, if_neg Bool.false_ne_true, openAddr, if_pos hts]
  · change openAddr _ s = _; rw [openAddr, if_pos hts]
  · change execInit s = _; rw [execInit, if_pos hts]
  · change execBlit s = _; rw [execBlit, if_pos hts]

theorem openAddr_closed {s : State} {ans : BusAnswer} (a : BitVec 7) (hts : s.ts = .closed) (ha : s.answerAt 0 = some ans) :
    openAddr a s = .next (openAnswered a ans s) := by
  simp only [openAddr, hts, ne_eq, not_true, if_false, ha]

theorem exec_openBus {b : Byte} {s : State} (h7 : addrBit7 b = false) : exec (.openBus b) s = openAddr (addr7 b) s := by
  change execOpen b s = _
  rw [execOpen, h7, if_neg Bool.false_ne_true]

theorem exec_setChunk {n : Half} {s : State} (hn : n ≠ 0) : exec (.setChunk n) s = .next (endOk { s with chunkLimit := n }) := by
  change execSetChunk n s = _
  rw [execSetChunk, if_neg hn]

/-! ### Other error registers (R109) -/

/-- The state with other contents of LASTERR and ERRLOG. -/
def State.withErrors (s : State) (e : Result) (l : Half) : State := { s with lastErr := e, errLog := l }

/-- From `s` with other error registers, the instruction ends in `t` with other error registers, and a host command with the
result it has in `t`. -/
def EndsLike (i : Instr) (s t : State) (e : Result) (l : Half) : Prop :=
  ∃ e' l', exec i (s.withErrors e l) = .next (t.withErrors e' l') ∧ (i.isBusSide = false → e' = t.lastErr)

/-- A sending that ends in `t` ends so from other error registers, where its two ways to end do. -/
theorem sendRun_withErrors {okEnd failEnd : State → State} {bs : List (List Byte)} {s t : State} (e : Result) (l : Half)
    (hok : ∀ u : State, ∃ l', okEnd (u.withErrors e l) = (okEnd u).withErrors (okEnd u).lastErr l')
    (hfail : ∀ u : State, ∃ l', failEnd (u.withErrors e l) = (failEnd u).withErrors (failEnd u).lastErr l')
    (hrun : sendRun okEnd failEnd bs s = .next t) :
    ∃ l', sendRun okEnd failEnd bs (s.withErrors e l) = .next (t.withErrors t.lastErr l') := by
  rcases sendRun_cases hrun with ⟨hall, rfl⟩ | ⟨k, hk, hf, rfl⟩
  · obtain ⟨l', hl⟩ := hok (s.acknowledged bs)
    exact ⟨l', (sendRun_ok bs (s.withErrors e l) hall).trans (congrArg _ hl)⟩
  · obtain ⟨l', hl⟩ := hfail (busWritten bs[k] .fail (s.acknowledged (bs.take k)))
    exact ⟨l', (sendRun_fail bs (s.withErrors e l) k hk hf).trans (congrArg _ hl)⟩

theorem exec_endsLike {i : Instr} {s t : State} (hex : exec i s = .next t) (e : Result) (l : Half) : EndsLike i s t e l := by
  rcases exec_cases hex with ⟨hi, hm, rfl⟩ | ⟨hi, rfl⟩ | ⟨r, hr, rfl⟩ | ⟨a, ans, hi, hts, ha, rfl⟩ | ⟨rfl, hts, hs⟩ |
    ⟨rfl, hts, hc, hs⟩ | ⟨rfl, rfl⟩ | ⟨n, rfl, hn, rfl⟩ | ⟨hi, rfl⟩
  · have hpoints : drawPoints i (s.withErrors e l) = drawPoints i s :=
      drawPoints_congr (s := s) (t := s.withErrors e l) ⟨rfl, rfl, rfl, rfl, rfl, rfl, rfl⟩ i
    refine ⟨.ok, l, ?_, fun _ => rfl⟩
    rw [exec_draws (s := s.withErrors e l) hi hm, hpoints]
    rfl
  · have hcleared : cleared (s.withErrors e l) = (cleared s).withErrors .ok l := by
      simp only [cleared, endOk, State.withErrors]
    exact ⟨.ok, l, (exec_clears hi _).trans (congrArg _ hcleared), fun _ => rfl⟩
  · exact ⟨r, stickyBit l r, exec_refusedEarly (s := s.withErrors e l) hr, fun _ => rfl⟩
  · have hopen : exec i (s.withErrors e l) = .next (openAnswered a ans (s.withErrors e l)) := by
      rcases hi with ⟨b, rfl, h7, rfl⟩ | ⟨rfl, rfl⟩
      · rw [exec_openBus h7]; exact openAddr_closed _ hts ha
      · exact openAddr_closed _ hts ha
    cases ans with
    | ok => exact ⟨.ok, l, hopen, fun _ => rfl⟩
    | fail => exact ⟨.deviceUnavailable, stickyBit l .deviceUnavailable, hopen, fun _ => rfl⟩
  · obtain ⟨l', hrun⟩ := sendRun_withErrors e l (fun _ => ⟨l, rfl⟩) (fun _ => ⟨stickyBit l .initFailed, rfl⟩) hs
    exact ⟨t.lastErr, l', (execInit_eq_sendRun (s.withErrors e l) hts).trans hrun, fun _ => rfl⟩
  · obtain ⟨l', hrun⟩ := sendRun_withErrors e l (fun _ => ⟨l, rfl⟩) (fun _ => ⟨stickyBit l .transferFailed, rfl⟩) hs
    exact ⟨t.lastErr, l', (execBlit_eq_sendRun (s.withErrors e l) hts hc).trans hrun, fun _ => rfl⟩
  · refine ⟨.ok, l, ?_, fun _ => rfl⟩
    change execClose _ = _
    by_cases hts : s.ts = .closed <;> simp [execClose, State.withErrors, hts, endOk, busClosed]
  · exact ⟨.ok, l, exec_setChunk hn, fun _ => rfl⟩
  · refine ⟨e, l, ?_, fun hbus => absurd hi (by simp [hbus])⟩
    have hbytes : busBytes i (s.withErrors e l) = busBytes i s := by cases i <;> rfl
    rw [exec_busSide hi, hbytes]
    rfl

/-! ### Which transactions a host command adds to the bus log -/

/-- From `s` to `t` the bus log is only extended, and each transaction added has bytes of the form `P`. -/
def AddsOnly (P : List Byte → Prop) (s t : State) : Prop :=
  ∃ new, t.busLog = s.busLog ++ new ∧ ∀ (b : List Byte) (ans : BusAnswer), BusEvent.wrote b ans ∈ new → P b

theorem addsOnly_of_noTransaction {P : List Byte → Prop} {s t : State} {new : List BusEvent}
    (hlog : t.busLog = s.busLog ++ new) (h : NoTransaction new) : AddsOnly P s t :=
  ⟨new, hlog, fun b ans hb => absurd hb (h b ans)⟩

theorem addsOnly_of_busLog_eq {P : List Byte → Prop} {s t : State} (hlog : t.busLog = s.busLog) : AddsOnly P s t :=
  addsOnly_of_noTransaction (by rw [hlog, List.append_nil]) noTransaction_nil

/-- A sending adds transactions of its list only, where its two ways to end send none of their own. -/
theorem addsOnly_sendRun {P : List Byte → Prop} {okEnd failEnd : State → State} {bs : List (List Byte)}
    {after : List BusEvent} {s t : State} (hrun : sendRun okEnd failEnd bs s = .next t)
    (hok : ∀ u, (okEnd u).busLog = u.busLog) (hfail : ∀ u, (failEnd u).busLog = u.busLog ++ after)
    (hafter : NoTransaction after) (hbs : ∀ b ∈ bs, P b) : AddsOnly P s t := by
  rcases sendRun_cases hrun with ⟨-, rfl⟩ | ⟨k, hk, -, rfl⟩
  · refine ⟨bs.map fun b => .wrote b .ok, hok _, fun b ans hb => ?_⟩
    simp only [List.mem_map, BusEvent.wrote.injEq] at hb
    obtain ⟨c, hc, rfl, -⟩ := hb
    exact hbs c hc
  · refine ⟨(bs.take k).map (fun b => .wrote b .ok) ++ .wrote bs[k] .fail :: after, ?_, fun b ans hb => ?_⟩
    · rw [hfail]
      simp [busWritten, State.acknowledged]
    · simp only [List.mem_append, List.mem_map, List.mem_cons, BusEvent.wrote.injEq] at hb
      rcases hb with ⟨c, hc, rfl, -⟩ | ⟨rfl, -⟩ | hb
      · exact hbs c (List.mem_of_mem_take hc)
      · exact hbs _ (List.getElem_mem hk)
      · exact absurd hb (hafter b ans)

/-- The two formats of a transaction of the block, with the payload that a chunk limit allows (R120, R121). -/
def IsTransaction (limit : Half) (b : List Byte) : Prop :=
  (∃ c, b = [0x00, c]) ∨ ∃ p, b = 0x40 :: p ∧ 1 ≤ p.length ∧ p.length ≤ min limit.toNat 128

theorem exec_addsOnly {i : Instr} {s t : State} (hi : i.isBusSide = false) (hex : exec i s = .next t) :
    AddsOnly (fun b => (i = .init ∨ i = .blit) ∧ IsTransaction s.chunkLimit b) s t := by
  rcases exec_cases hex with ⟨-, -, rfl⟩ | ⟨-, rfl⟩ | ⟨r, -, rfl⟩ | ⟨a, ans, -, -, -, rfl⟩ | ⟨rfl, -, hinit⟩ |
    ⟨rfl, -, hc, hblit⟩ | ⟨-, rfl⟩ | ⟨n, -, -, rfl⟩ | ⟨hbus, -⟩
  · exact addsOnly_of_busLog_eq rfl
  · exact addsOnly_of_busLog_eq rfl
  · exact addsOnly_of_busLog_eq rfl
  · have hlog : (openAnswered a ans s).busLog = s.busLog ++ [.opened a ans] := by cases ans <;> rfl
    exact addsOnly_of_noTransaction hlog (noTransaction_opened a ans)
  · exact addsOnly_sendRun hinit (fun _ => rfl) (fun _ => rfl) noTransaction_closed
      fun _ hb => ⟨.inl rfl, .inl (mem_initTransactions hb)⟩
  · exact addsOnly_sendRun hblit (fun _ => rfl) (fun u => (List.append_nil u.busLog).symm) noTransaction_nil
      fun _ hb => ⟨.inr rfl, mem_blitSeq hc hb⟩
  · split
    · exact addsOnly_of_busLog_eq rfl
    · exact addsOnly_of_noTransaction rfl noTransaction_closed
  · exact addsOnly_of_busLog_eq rfl
  · rw [hi] at hbus; exact absurd hbus Bool.false_ne_true

/-! ### Rows of the bus side -/

/-- What a command byte does to each pointer of the device (R232). -/
theorem command_eq (d : Device) (c : Byte) :
    d.command c = { d with
      page := if 0xB0 ≤ c.toNat ∧ c.toNat ≤ 0xB7 then BitVec.ofNat 3 (c.toNat - 0xB0) else d.page
      col := if c = 0x00 then d.col &&& 0b1110000 else if c = 0x10 then d.col &&& 0b0001111 else d.col } := by
  unfold Device.command
  by_cases hpage : 0xB0 ≤ c.toNat ∧ c.toNat ≤ 0xB7
  · have hlow : c ≠ 0x00 := by rintro rfl; exact absurd hpage (by decide)
    have hhigh : c ≠ 0x10 := by rintro rfl; exact absurd hpage (by decide)
    simp only [hpage, hlow, hhigh, and_self, if_true, if_false]
  · simp only [hpage, if_false]
    split_ifs <;> rfl

/-- The page-address byte of a page selects it (R123, R232). -/
theorem command_pageAddrByte (d : Device) (p : BitVec 3) : d.command (pageAddrByte p) = { d with page := p } := by
  have hpage := command_page d p.isLt
  rwa [pageCommand, ← pageAddrByte_eq, BitVec.ofNat_toNat, BitVec.setWidth_eq] at hpage

end Sys2Proof.Machine

/-! SETTLED. The obligations of 30_encoding.md. -/

namespace Sys2Proof.Proofs

open Sys2Proof.Machine

/-- Settles O3: a word that decodes is the encoding of what it decodes to (`decodeFront_inv`), an encoding decodes to what it
encodes, and a pseudo form has the word of its expansion. -/
theorem decodeIffEncode : Obligations.DecodeIffEncode := by
  refine ⟨fun w i => ⟨fun h => ?_, ?_⟩, fun i hp hw => ?_⟩
  · obtain ⟨hc, hw, rfl⟩ := decodeFront_inv (decode_ok_iff.1 h)
    exact ⟨hc, hw, (List.append_nil _).symm⟩
  · rintro ⟨hc, hw, rfl⟩
    exact decode_encode hc hw
  · obtain ⟨hc, hword, hexpand⟩ := expand_pseudo hp
    rw [← hword]
    exact decode_encode hc (hexpand hw)

/-- Settles O43: INIT and BLIT send lists of transactions of the two formats, and no other host command sends one. -/
theorem onlyTwoControlBytes : Obligations.OnlyTwoControlBytes := fun _ _ _ hi hex => exec_addsOnly hi hex

/-- Settles O58: each case of `exec_cases` holds of the state with other error registers, and ends as before. -/
theorem errorsDoNotSteer : Obligations.ErrorsDoNotSteer := fun _ _ _ e l hex => exec_endsLike hex e l

/-- Settles O4: three errors stand in the first bytes; a word cut short is no other error, for that would stay on the whole. -/
theorem illegalWords : Obligations.IllegalWords :=
  ⟨fun _ _ hop => decode_error (decodeFront_opcode hop), fun _ r ha => decode_open_bit7 ha r, decode_setChunk_zero,
    fun _ _ hc hw hk => decode_take_encode hc hw hk⟩

/-- Settles O5: `decodeBus_iff`, and the select bytes by their own decoder. -/
theorem busDecodeIffEncode : Obligations.BusDecodeIffEncode := by
  refine ⟨fun b i => decodeBus_iff, fun p => ?_, rfl, rfl, rfl, rfl⟩
  rw [← pageAddrByte_eq]
  exact ⟨rfl, decodeDeviceByte_page p⟩

/-- Settles O50: the device receives the payload byte by byte (`byte_putBytes`, `putBytes_pointers`). -/
theorem busDataRow : Obligations.BusDataRow := by
  intro payload s
  refine ⟨busDelivered (dataTransaction payload) s, rfl, rfl, fun hfit => ?_, fun hfit => ?_⟩
  · rw [busDelivered_dev, receive_data]
    exact byte_putBytes payload s.dev hfit
  · rw [busDelivered_dev, receive_data]
    exact putBytes_pointers payload s.dev hfit

/-- Settles O1: both operands are the raw value, which is assembled low byte first. -/
theorem operandAssembly : Obligations.OperandAssembly := fun lo hi => ⟨u16_toNat lo hi, s16_eq lo hi⟩

/-- Settles O2: each word computes. -/
theorem decodeWords : Obligations.DecodeWords := by
  unfold Obligations.DecodeWords
  decide

/-- Settles O8: `step_illegal`; the bit of IllegalCommand is bit 6. -/
theorem illegalWordStep : Obligations.IllegalWordStep := fun _ _ _ _ hin hdec => step_illegal hin hdec

/-- Settles O34: the one bus call of the default address, answered ok or fail. -/
theorem openDefaultBinds : Obligations.OpenDefaultBinds :=
  fun _ hts => ⟨openAddr_closed Config.addrDefault hts, openAddr_closed Config.addrDefault hts⟩

/-- Settles O49: the transaction is recorded, and its byte moves the pointers as `command_eq` says. -/
theorem busCommandRow : Obligations.BusCommandRow := by
  intro c s
  rw [← command_eq, ← busDelivered_cmd]
  rfl

/-- Settles O51: each row delivers its command byte, and the two column bytes together reset the column. -/
theorem deviceSelectRows : Obligations.DeviceSelectRows := by
  intro s
  refine ⟨fun p => ?_, ?_, ?_, _, _, rfl, rfl, ?_, ?_⟩
  · have hbyte : 0xB0 + p.setWidth 8 = pageAddrByte p := by revert p; decide
    rw [hbyte, ← command_pageAddrByte, ← busDelivered_cmd]
    rfl
  · rw [← command_columnLow, ← busDelivered_cmd]
    rfl
  · rw [← command_columnHigh, ← busDelivered_cmd]
    rfl
  · simp only [busDelivered_dev, receive_cmd, command_columns]
  · simp only [busDelivered_dev, receive_cmd, command_columns]

end Sys2Proof.Proofs

/-! SUPPORT. The points of the framebuffer commands (40_framebuffer.md) in the terms of their rules: LINE's loop in closed form, the
outline of RECT, the on bits of GLYPH, and where TEXT places each glyph; and what a list of points does to the framebuffer. -/

namespace Sys2Proof.Machine

open Sys2Proof

/-! ### What drawing leaves in the framebuffer -/

/-- Drawing answers the same framebuffer from every state that has the same one, over the same power-on contents. -/
theorem drawOk_fb_congr {s s' : State} (hfb : s'.fb = s.fb) (hresets : s'.resets = s.resets) (ps : List Point) :
    (drawOk ps s').fb = (drawOk ps s).fb := by
  simp only [drawOk, endOk_fb, drawn_fb, hfb, hresets]

/-- Two drawings in a row are the drawing of both lists. -/
theorem drawOk_drawOk (s : State) (ps qs : List Point) : drawOk qs (drawOk ps s) = drawOk (ps ++ qs) s := by
  simp only [drawOk, ← drawn_append]
  rfl

/-- One point on the display, drawn: its bit of its byte is set, every other byte is left (R142, R145). -/
theorem fbByte_drawOk_singleton (s : State) {q : Point} (hq : onDisplay q = true) (a : Nat) :
    (drawOk [q] s).fbByte a = if a = pixelAddr q then s.fbByte a ||| (1 : Byte) <<< pixelBit q else s.fbByte a := by
  have hread := Memory.read_plot (Config.powerOnFb s.resets) s.fb q a
  rw [hq] at hread
  simp only [true_and] at hread
  exact hread

/-- Plotting turns no pixel off: only CLEAR and FRAME do (R141). -/
theorem exec_keeps_pixel {i : Instr} {s t : State} {q : Point} (hex : exec i s = .next t) (hclear : i ≠ .clear)
    (hframe : i ≠ .frame) (hq : onDisplay q = true) (hon : s.getPixel q = true) : t.getPixel q = true := by
  obtain ⟨⟨-, -, -, -, -, -, hresets⟩, -, -⟩ := exec_keeps hex
  obtain ⟨hfb | hdraw | hc | hf, -⟩ := exec_writers hex
  · rw [State.getPixel, fbByte_of_fb hfb hresets]
    exact hon
  · obtain ⟨u, hu, hufb, -⟩ := exec_drawing hdraw s
    obtain rfl : u = t := by rw [hex] at hu; injection hu with h; exact h.symm
    have hdrawn : u.getPixel q = (s.drawn (drawPoints i s)).getPixel q := by
      rw [State.getPixel, State.getPixel, fbByte_of_fb hufb hresets]
    rw [hdrawn, getPixel_drawn s _ hq, hon, Bool.true_or]
  · exact absurd hc hclear
  · exact absurd hf hframe

/-! ### LINE in closed form (R150, R152) -/

/-- The way from `a` to `b`, as a unit step; the loop's choice where they are equal. -/
def direction (a b : Int) : Int := if a < b then 1 else -1

theorem direction_cases (a b : Int) : direction a b = 1 ∨ direction a b = -1 := by
  unfold direction
  split <;> simp

/-- `k` steps from `a` toward `b`. -/
def toward (a b : Int) (k : Nat) : Int := a + direction a b * (k : Int)

/-- The nearest integer to `minor * k / major`, halves up. -/
def nearest (minor major k : Nat) : Nat := (2 * minor * k + major) / (2 * major)

@[simp] theorem toward_zero (a b : Int) : toward a b 0 = a := by simp [toward]

@[simp] theorem toward_natAbs (a b : Int) : toward a b (b - a).natAbs = b := by
  unfold toward direction
  split <;> omega

/-- The values stepped through on the way from `a` to `b` are those between them. -/
theorem exists_toward_iff {a b v : Int} : (∃ k, k ≤ (b - a).natAbs ∧ v = toward a b k) ↔ min a b ≤ v ∧ v ≤ max a b := by
  unfold toward direction
  constructor
  · rintro ⟨k, hk, rfl⟩
    split <;> omega
  · rintro ⟨hlo, hhi⟩
    refine ⟨(v - a).natAbs, ?_, ?_⟩
    · omega
    · split <;> omega

@[simp] theorem nearest_start (minor major : Nat) : nearest minor major 0 = 0 := by
  rw [nearest, Nat.div_eq_zero_iff]
  omega

@[simp] theorem nearest_flat (major k : Nat) : nearest 0 major k = 0 := by
  rw [nearest, Nat.div_eq_zero_iff]
  omega

/-- At the end of the major axis the minor axis has reached its end too. -/
theorem nearest_end {minor major : Nat} (h : minor ≤ major) : nearest minor major major = minor := by
  rcases Nat.eq_zero_or_pos major with rfl | hpos
  · rw [nearest_start]; omega
  · refine Nat.div_eq_of_lt_le ?_ ?_ <;> nlinarith

/-- On a diagonal both axes move each time. -/
theorem nearest_diagonal {d k : Nat} (h : k ≤ d) : nearest d d k = k := by
  rcases Nat.eq_zero_or_pos d with rfl | hpos
  · rw [nearest_flat]; omega
  · refine Nat.div_eq_of_lt_le ?_ ?_ <;> nlinarith

/-- The closed form of a line at least as wide as it is high. -/
def widePoints (x0 y0 x1 y1 : Int) : List Point :=
  (List.range ((x1 - x0).natAbs + 1)).map fun (k : Nat) =>
    (toward x0 x1 k, toward y0 y1 (nearest (y1 - y0).natAbs (x1 - x0).natAbs k))

/-- The closed form of a line at least as high as it is wide. -/
def tallPoints (x0 y0 x1 y1 : Int) : List Point :=
  (List.range ((y1 - y0).natAbs + 1)).map fun (k : Nat) =>
    (toward x0 x1 (nearest (x1 - x0).natAbs (y1 - y0).natAbs k), toward y0 y1 k)

theorem mem_widePoints {x0 y0 x1 y1 : Int} {q : Point} :
    q ∈ widePoints x0 y0 x1 y1 ↔ ∃ k, k ≤ (x1 - x0).natAbs ∧
      q = (toward x0 x1 k, toward y0 y1 (nearest (y1 - y0).natAbs (x1 - x0).natAbs k)) := by
  simp only [widePoints, List.mem_map, List.mem_range, Nat.lt_succ_iff, eq_comm]

theorem mem_tallPoints {x0 y0 x1 y1 : Int} {q : Point} :
    q ∈ tallPoints x0 y0 x1 y1 ↔ ∃ k, k ≤ (y1 - y0).natAbs ∧
      q = (toward x0 x1 (nearest (x1 - x0).natAbs (y1 - y0).natAbs k), toward y0 y1 k) := by
  simp only [tallPoints, List.mem_map, List.mem_range, Nat.lt_succ_iff, eq_comm]

/-- On a diagonal the two closed forms are one. -/
theorem widePoints_eq_tallPoints {x0 y0 x1 y1 : Int} (h : (y1 - y0).natAbs = (x1 - x0).natAbs) :
    widePoints x0 y0 x1 y1 = tallPoints x0 y0 x1 y1 := by
  rw [widePoints, tallPoints, h]
  refine List.map_congr_left fun k hk => ?_
  rw [nearest_diagonal (by simpa [Nat.lt_succ_iff] using hk)]

/-- LINE is its loop from the start, toward the end point. -/
theorem linePoints_eq_from (x0 y0 x1 y1 : Int) :
    linePoints x0 y0 x1 y1 =
      linePointsFrom (x1 - x0).natAbs (-((y1 - y0).natAbs : Int)) (direction x0 x1) (direction y0 y1)
        (toward x0 x1 (x1 - x0).natAbs) (toward y0 y1 (y1 - y0).natAbs) 65536 x0 y0
        ((x1 - x0).natAbs - ((y1 - y0).natAbs : Int)) := by
  rw [toward_natAbs, toward_natAbs]
  rfl

theorem linePoints_wide {x0 y0 x1 y1 : Int} (hfit : (x1 - x0).natAbs ≤ 65535)
    (h : (y1 - y0).natAbs ≤ (x1 - x0).natAbs) : linePoints x0 y0 x1 y1 = widePoints x0 y0 x1 y1 := by
  rcases Nat.eq_zero_or_pos (x1 - x0).natAbs with hzero | hpos
  · obtain rfl : x1 = x0 := by omega
    obtain rfl : y1 = y0 := by omega
    simp [linePoints, linePointsFrom, widePoints]
  · have hstart : (2 * (y1 - y0).natAbs * 0 + (x1 - x0).natAbs) / (2 * (x1 - x0).natAbs) = 0 := nearest_start _ _
    rw [linePoints_eq_from, widePoints, List.range_eq_range']
    refine Eq.trans ?_ (linePointsFrom_wide hpos h (direction_cases x0 x1) _ 0 65536 (Nat.zero_add _) (by omega))
    rw [hstart]
    simp only [Nat.cast_zero, mul_zero, add_zero, sub_zero]
    rfl

theorem linePoints_tall {x0 y0 x1 y1 : Int} (hfit : (y1 - y0).natAbs ≤ 65535)
    (h : (x1 - x0).natAbs ≤ (y1 - y0).natAbs) : linePoints x0 y0 x1 y1 = tallPoints x0 y0 x1 y1 := by
  rcases Nat.eq_or_lt_of_le h with heq | hlt
  · rw [linePoints_wide (by omega) (by omega), widePoints_eq_tallPoints heq.symm]
  · have hstart : (2 * (x1 - x0).natAbs * 0 + (y1 - y0).natAbs) / (2 * (y1 - y0).natAbs) = 0 := nearest_start _ _
    rw [linePoints_eq_from, tallPoints, List.range_eq_range']
    refine Eq.trans ?_ (linePointsFrom_tall hlt (direction_cases y0 y1) _ 0 65536 (Nat.zero_add _) (by omega))
    rw [hstart]
    simp only [Nat.cast_zero, mul_zero, add_zero, sub_zero]
    rfl

/-- Two s16 coordinates are at most 65535 apart. -/
theorem natAbs_sub_le_of_fitsS16 {a b : Int} (ha : fitsS16 a = true) (hb : fitsS16 b = true) : (b - a).natAbs ≤ 65535 := by
  simp only [fitsS16, Bool.and_eq_true, decide_eq_true_eq] at ha hb
  omega

/-! ### RECT (R155, R156) -/

/-- The points of RECT are the edge points of its rectangle. -/
theorem mem_rectPoints {x y w h : Int} {q : Point} :
    q ∈ rectPoints x y w h ↔ 0 < w ∧ 0 < h ∧ x ≤ q.1 ∧ q.1 ≤ x + w - 1 ∧ y ≤ q.2 ∧ q.2 ≤ y + h - 1 ∧
      (q.1 = x ∨ q.1 = x + w - 1 ∨ q.2 = y ∨ q.2 = y + h - 1) := by
  unfold rectPoints
  split
  · simp only [List.not_mem_nil, false_iff]
    omega
  · simp only [List.mem_append, mem_rowSpan, mem_colSpan]
    omega

/-- The outline is the rectangle without the rectangle one pixel smaller on each side. -/
theorem rectPoints_toFinset {x y w h : Int} (hw : 2 ≤ w) (hh : 2 ≤ h) :
    (rectPoints x y w h).toFinset =
      (Finset.Ico x (x + w) ×ˢ Finset.Ico y (y + h)) \
        (Finset.Ico (x + 1) (x + w - 1) ×ˢ Finset.Ico (y + 1) (y + h - 1)) := by
  ext q
  simp only [List.mem_toFinset, mem_rectPoints, Finset.mem_sdiff, Finset.mem_product, Finset.mem_Ico]
  omega

/-! ### GLYPH (R160, R161) -/

/-- The points of a glyph, in the terms of its on bits. -/
theorem mem_glyphPoints_iff_glyphOn {s : State} {x y : Int} {ch : Byte} {q : Point} :
    q ∈ glyphPoints s x y ch ↔ ∃ c r : Nat, glyphOn s ch c r ∧ q = (x + (c : Int), y + (r : Int)) := by
  rw [mem_glyphPoints]
  constructor
  · rintro ⟨⟨hlo, hhi⟩, c, r, hc, hr, hbit, rfl⟩
    exact ⟨c, r, ⟨hlo, hhi, hc, hr, hbit⟩, rfl⟩
  · rintro ⟨c, r, ⟨hlo, hhi, hc, hr, hbit⟩, rfl⟩
    exact ⟨⟨hlo, hhi⟩, c, r, hc, hr, hbit, rfl⟩

/-- The low seven bits of a byte. -/
theorem getLsbD_and_7F (v : Byte) (r : Nat) : (v &&& 0x7F).getLsbD r = (v.getLsbD r && decide (r < 7)) := by
  have hmask : (0x7F : Byte).getLsbD r = decide (r < 7) := by
    by_cases hr : r < 8
    · interval_cases r <;> rfl
    · rw [BitVec.getLsbD_of_ge _ _ (by omega), decide_eq_false (by omega)]
  rw [BitVec.getLsbD_and, hmask]

/-- A bit of a byte under a glyph column: it was on, or it is at a row of the glyph whose bit is on. -/
theorem getLsbD_fbByte_glyph {x y : Int} {ch : Byte} {c page b : Nat} (s : State) (hlo : 32 ≤ ch.toNat)
    (hhi : ch.toNat ≤ 127) (hc : c < 5) (hx0 : 0 ≤ x + c) (hx1 : x + c < 128) (hy : 0 ≤ y) (hpage : page < 8) (hb : b < 8) :
    ((drawOk (glyphPoints s x y ch) s).fbByte (page * 128 + (x + c).toNat)).getLsbD b =
      ((s.fbByte (page * 128 + (x + c).toNat)).getLsbD b ||
        (decide (y.toNat ≤ page * 8 + b) &&
          (s.fontByte (ch.toNat - 32) c &&& 0x7F).getLsbD (page * 8 + b - y.toNat))) := by
  have haddr : page * 128 + (x + c).toNat < 1024 := by omega
  have hpixel : pixelOf (page * 128 + (x + c).toNat) b = (x + c, ((page * 8 + b : Nat) : Int)) := by
    ext <;> simp only [pixelOf] <;> omega
  have hmem : (x + (c : Int), ((page * 8 + b : Nat) : Int)) ∈ glyphPoints s x y ch ↔
      y.toNat ≤ page * 8 + b ∧ (s.fontByte (ch.toNat - 32) c &&& 0x7F).getLsbD (page * 8 + b - y.toNat) = true := by
    rw [mem_glyphPoints_iff_glyphOn, getLsbD_and_7F, Bool.and_eq_true, decide_eq_true_eq]
    constructor
    · rintro ⟨c', r, ⟨-, -, -, hr, hbit⟩, hq⟩
      obtain ⟨hcol, hrow⟩ := Prod.mk.inj hq
      obtain rfl : c' = c := by omega
      obtain rfl : r = page * 8 + b - y.toNat := by omega
      exact ⟨by omega, hbit, hr⟩
    · rintro ⟨hrow, hbit, hr⟩
      exact ⟨c, _, ⟨hlo, hhi, hc, hr, hbit⟩, Prod.ext rfl (by simp only; omega)⟩
  rw [getLsbD_fbByte _ _ hb, getLsbD_fbByte s _ hb, drawOk, getPixel_endOk,
    getPixel_drawn s _ (pixelOf_onDisplay haddr hb), hpixel]
  simp only [hmem, Bool.decide_and, Bool.decide_eq_true]

/-! ### TEXT (R165, R166) -/

/-- Where each glyph of a string stands, from any cursor: up to the first newline columns count from the cursor, after it from
the column the newline returns to. -/
theorem mem_textPoints {s : State} {x cx cy : Int} {str : List Byte} {q : Point} :
    q ∈ textPoints s x cx cy str ↔ ∃ k c r : Nat, k < str.length ∧ glyphOn s (str.getD k 0) c r ∧
      q = ((if 10 ∈ str.take k then x else cx) + 6 * (charColumn str k : Int) + (c : Int),
        cy + 8 * (charLine str k : Int) + (r : Int)) := by
  induction str generalizing cx cy with
  | nil => simp
  | cons ch str ih =>
    rw [← Nat.or_exists_add_one]
    by_cases hch : ch = newline
    · subst hch
      have hmem (k : Nat) : (10 : Byte) ∈ (newline :: str).take (k + 1) := List.mem_cons_self
      have hline (k : Nat) : cy + 8 * (charLine (newline :: str) (k + 1) : Int) = cy + 8 + 8 * (charLine str k : Int) := by
        rw [show charLine (newline :: str) (k + 1) = charLine str k + 1 from charLine_newline str k]
        push_cast
        ring
      have hcol (k : Nat) : charColumn (newline :: str) (k + 1) = charColumn str k := charColumn_newline str k
      have hfirst (c r : Nat) : ¬ glyphOn s ((newline :: str).getD 0 0) c r := not_glyphOn_newline s c r
      rw [textPoints_newline, ih]
      simp only [hfirst, false_and, and_false, exists_false, false_or, hmem, if_true, ite_self, hline, hcol,
        List.length_cons, Nat.add_lt_add_iff_right, List.getD_cons_succ]
    · have hne : (10 : Byte) ≠ ch := Ne.symm hch
      have hmem (k : Nat) : (10 : Byte) ∈ (ch :: str).take (k + 1) ↔ 10 ∈ str.take k := by
        rw [List.take_succ_cons, List.mem_cons, or_iff_right hne]
      have hcol (k : Nat) : (if 10 ∈ str.take k then x else cx) + 6 * (charColumn (ch :: str) (k + 1) : Int) =
          (if 10 ∈ str.take k then x else cx + 6) + 6 * (charColumn str k : Int) := by
        rw [charColumn_char hch]
        split <;> push_cast <;> ring
      rw [textPoints_char s x cx cy hch, List.mem_append, mem_glyphPoints_iff_glyphOn, ih]
      refine or_congr ?_ ?_
      · simp [charColumn, charLine]
      · simp only [hmem, hcol, charLine_char hch, List.length_cons, Nat.add_lt_add_iff_right, List.getD_cons_succ]

/-- A text with a newline is the text before it and, one line down from the operand column, the text after it (R166 a). -/
theorem textPoints_append_newline (s : State) (x cx cy : Int) (s1 s2 : List Byte) (h : newline ∉ s1) :
    textPoints s x cx cy (s1 ++ [newline] ++ s2) = textPoints s x cx cy s1 ++ textPoints s x x (cy + 8) s2 := by
  rw [List.append_assoc, List.singleton_append, textPoints_append s x cx cy s1 _ h, textPoints_newline]

/-- A text drawn after other points looks as it would have looked before them: drawing leaves the font. -/
theorem exec_text_drawOk (x y : Int) (str : List Byte) (s : State) (ps : List Point) :
    exec (.text x y str) (drawOk ps s) = .next (drawOk (ps ++ textPoints s x x y str) s) := by
  have hpoints : textPoints (drawOk ps s) = textPoints s := by rw [drawOk, textPoints_endOk, textPoints_drawn]
  rw [← drawOk_drawOk, ← hpoints]
  rfl

end Sys2Proof.Machine

/-! SETTLED. The obligations of 40_framebuffer.md. -/

namespace Sys2Proof.Proofs

open Sys2Proof.Machine

/-- Settles O13: CLEAR leaves a constant framebuffer, and each drawing command plots a list of points that depends on its
operands and, for a glyph or a text, on the font. -/
theorem framebufferCommandsNeverFail : Obligations.FramebufferCommandsNeverFail := by
  rintro i s (rfl | ⟨x, y, rfl⟩ | ⟨x0, y0, x1, y1, rfl⟩ | ⟨x, y, w, h, rfl⟩ | ⟨x, y, ch, rfl⟩ | ⟨x, y, str, rfl⟩)
  · exact ⟨_, rfl, onlyDrew_cleared s, fun s' _ _ _ => ⟨cleared s', rfl, rfl⟩⟩
  · exact ⟨_, rfl, rfl, fun s' hfb hresets _ => ⟨_, rfl, drawOk_fb_congr hfb hresets _⟩⟩
  · exact ⟨_, rfl, rfl, fun s' hfb hresets _ => ⟨_, rfl, drawOk_fb_congr hfb hresets _⟩⟩
  · exact ⟨_, rfl, rfl, fun s' hfb hresets _ => ⟨_, rfl, drawOk_fb_congr hfb hresets _⟩⟩
  · refine ⟨_, rfl, rfl, fun s' hfb hresets hfont => ⟨_, rfl, ?_⟩⟩
    rw [glyphPoints_congr (hfont (.inl ⟨x, y, ch, rfl⟩))]
    exact drawOk_fb_congr hfb hresets _
  · refine ⟨_, rfl, rfl, fun s' hfb hresets hfont => ⟨_, rfl, ?_⟩⟩
    rw [textPoints_congr (hfont (.inr ⟨x, y, str, rfl⟩))]
    exact drawOk_fb_congr hfb hresets _

/-- Settles O15: the word by `decode_encode`, the bytes by what one plot does to each of them. -/
theorem setPixelSetsOneBit : Obligations.SetPixelSetsOneBit := by
  refine fun x y s => ⟨fun hx hy => ?_, drawOk [(x, y)] s, rfl, onlyDrew_drawOk _ s, fun hon => ?_, fun hoff a => ?_⟩
  · have hwf : (Instr.setPixel x y).wellFormed = true := by
      simp only [Instr.wellFormed, Instr.operandsFit, Instr.operandsLegal, hx, hy, Bool.and_self]
    exact decode_encode rfl hwf
  · have hq : onDisplay (x, y) = true := (onDisplay_iff _).2 hon
    refine ⟨?_, rfl, fbByte_drawOk_singleton s hq⟩
    rw [drawOk, getPixel_endOk, getPixel_drawn s _ hq]
    simp
  · refine fbByte_drawn_other s _ fun p hp hd => ?_
    obtain rfl := List.mem_singleton.1 hp
    exact absurd ((onDisplay_iff _).1 hd) hoff

/-- Settles O16: LINE plots the points of its loop. -/
theorem linePlots : Obligations.LinePlots :=
  fun x0 y0 x1 y1 s => ⟨drawOk (linePoints x0 y0 x1 y1) s, rfl, onlyDrew_drawOk _ s, turnsOn_drawOk fun _ => Iff.rfl⟩

/-- Settles O17: the loop along the wide axis or the tall one, which `linePointsFrom_wide` and `linePointsFrom_tall` follow
point by point. -/
theorem lineIsNearest : Obligations.LineIsNearest := by
  intro x0 y0 x1 y1 hx0 hy0 hx1 hy1 dx dy sx sy
  split
  next hwide => exact linePoints_wide (natAbs_sub_le_of_fitsS16 hx0 hx1) hwide
  next htall => exact linePoints_tall (natAbs_sub_le_of_fitsS16 hy0 hy1) (Nat.le_of_not_le htall)

/-- Settles O18: read off the closed form, whose minor coordinate ends with its major one. -/
theorem lineEndsAndLength : Obligations.LineEndsAndLength := by
  intro x0 y0 x1 y1 hx0 hy0 hx1 hy1
  rcases Nat.le_total (y1 - y0).natAbs (x1 - x0).natAbs with hwide | htall
  · rw [linePoints_wide (natAbs_sub_le_of_fitsS16 hx0 hx1) hwide]
    simp [widePoints, List.head?_range, List.getLast?_range, nearest_end hwide, hwide]
  · rw [linePoints_tall (natAbs_sub_le_of_fitsS16 hy0 hy1) htall]
    simp [tallPoints, List.head?_range, List.getLast?_range, nearest_end htall, htall]

/-- Settles O19: the closed form with a minor difference of 0, or one equal to the major. -/
theorem lineStraight : Obligations.LineStraight := by
  intro x0 y0 x1 y1 s hx0 hy0 hx1 hy1
  have hdx := natAbs_sub_le_of_fitsS16 hx0 hx1
  have hdy := natAbs_sub_le_of_fitsS16 hy0 hy1
  refine ⟨drawOk (linePoints x0 y0 x1 y1) s, rfl, ?_, ?_, ?_, ?_⟩
  · rintro rfl rfl
    refine turnsOn_drawOk fun q => ?_
    rw [linePoints_wide hdx (by omega), mem_widePoints]
    simp
  · rintro rfl
    refine turnsOn_drawOk fun q => ?_
    rw [linePoints_wide hdx (by omega), mem_widePoints, ← exists_toward_iff]
    simp [Prod.ext_iff, and_left_comm, and_comm]
  · rintro rfl
    refine turnsOn_drawOk fun q => ?_
    rw [linePoints_tall hdy (by omega), mem_tallPoints, ← exists_toward_iff]
    simp [Prod.ext_iff, and_left_comm]
  · intro heq
    refine turnsOn_drawOk fun q => ?_
    rw [linePoints_wide hdx (by omega), mem_widePoints, heq]
    refine exists_congr fun k => and_congr_right fun hk => ?_
    rw [nearest_diagonal hk]
    rfl

/-- Settles O20: RECT plots its outline, `mem_rectPoints`. -/
theorem rectOutline : Obligations.RectOutline :=
  fun x y w h s => ⟨drawOk (rectPoints x y w h) s, rfl, onlyDrew_drawOk _ s, turnsOn_drawOk fun _ => mem_rectPoints⟩

/-- Settles O21: `w h` pixels of the rectangle without the `(w - 2) (h - 2)` inside. -/
theorem rectPixelCount : Obligations.RectPixelCount := by
  intro x y w h hw hh
  have hinside : Finset.Ico (x + 1) (x + w - 1) ×ˢ Finset.Ico (y + 1) (y + h - 1) ⊆
      Finset.Ico x (x + w) ×ˢ Finset.Ico y (y + h) :=
    Finset.product_subset_product (Finset.Ico_subset_Ico (by omega) (by omega)) (Finset.Ico_subset_Ico (by omega) (by omega))
  rw [rectPoints_toFinset hw hh, Finset.cast_card_sdiff hinside]
  simp only [Finset.card_product, Int.card_Ico]
  push_cast
  simp (disch := omega) only [Int.toNat_of_nonneg]
  ring

/-- Settles O22: GLYPH plots the on bits of its glyph, and so does its synonym. -/
theorem glyphPlots : Obligations.GlyphPlots := by
  rintro x y ch i s (rfl | rfl)
  all_goals
    exact ⟨drawOk (glyphPoints s x y ch) s, rfl, onlyDrew_drawOk _ s, turnsOn_drawOk fun _ => mem_glyphPoints_iff_glyphOn⟩

/-- Settles O23: bit by bit, `getLsbD_fbByte_glyph` for page `p` and for the page below it. -/
theorem glyphBytes : Obligations.GlyphBytes := by
  intro x y ch c s hlo hhi hc hx0 hx1 hy0 hy1
  refine ⟨drawOk (glyphPoints s x y ch) s, rfl, ?_, fun hsh => ?_, fun hsh hp => ?_⟩
  all_goals
    refine BitVec.eq_of_getLsbD_eq fun b hb => ?_
    rw [getLsbD_fbByte_glyph s hlo hhi hc hx0 hx1 hy0 (by omega) hb]
  · have hrow : y.toNat / 8 * 8 + b - y.toNat = b - y.toNat % 8 := by omega
    have hfrom : decide (y.toNat ≤ y.toNat / 8 * 8 + b) = !decide (b < y.toNat % 8) := by
      rw [← decide_not, decide_eq_decide]; omega
    rw [BitVec.getLsbD_or, BitVec.getLsbD_shiftLeft, hrow, hfrom, decide_eq_true hb, Bool.true_and]
  · have hrow : (y.toNat / 8 + 1) * 8 + b - y.toNat = 8 - y.toNat % 8 + b := by omega
    rw [BitVec.getLsbD_or, BitVec.getLsbD_ushiftRight, hrow, decide_eq_true (by omega), Bool.true_and]
  · have hbelow : ¬ (y.toNat / 8 + 1) * 8 + b - y.toNat < 7 := by omega
    rw [getLsbD_and_7F, decide_eq_false hbelow, Bool.and_false, Bool.and_false, Bool.or_false]

/-- Settles O24: TEXT plots the on bits of each character's glyph where the cursor stands, and so does its synonym. -/
theorem textPlots : Obligations.TextPlots := by
  rintro x y str i s (rfl | rfl)
  all_goals
    refine ⟨drawOk (textPoints s x x y str) s, rfl, onlyDrew_drawOk _ s, turnsOn_drawOk fun q => ?_⟩
    rw [mem_textPoints]
    simp only [ite_self]

/-- Settles O25: the points of the joined text are those of its two parts, and drawing both lists is drawing one after the
other. -/
theorem textSplits : Obligations.TextSplits := by
  refine fun x y s => ⟨fun s1 s2 h1 => ?_, fun s1 s2 h1 h2 => ?_, ?_⟩
  · refine ⟨drawOk (textPoints s x x y s1) s, _, rfl, exec_text_drawOk x (y + 8) s2 s _, ?_⟩
    rw [← textPoints_append_newline s x x y s1 s2 h1]
    rfl
  · refine ⟨drawOk (textPoints s x x y s1) s, _, rfl, exec_text_drawOk (x + 6 * (s1.length : Int)) y s2 s _, ?_⟩
    rw [textPoints_no_newline s _ x _ y s2 h2, ← textPoints_append s x x y s1 s2 h1]
    rfl
  · change Host.Outcome.next (drawOk (textPoints s x x y []) s) = _
    rw [textPoints_nil, drawOk, drawn_nil]
    rfl

/-- Settles O14: CLEAR fills the framebuffer with 0, and every other instruction but FRAME keeps an on pixel on. -/
theorem clearZeroes : Obligations.ClearZeroes := by
  refine ⟨decode_encode (i := .clear) rfl rfl, fun s => ⟨cleared s, rfl, onlyDrew_cleared s, fun a => fbByte_cleared s⟩,
    fun i s t q hex hq hon hoff => ?_⟩
  by_contra hother
  obtain ⟨hclear, hframe⟩ := not_or.1 hother
  rw [exec_keeps_pixel hex hclear hframe hq hon] at hoff
  exact Bool.noConfusion hoff

end Sys2Proof.Proofs

/-! SUPPORT. The dither rule (41_ditherer.md) in terms of bytes and cells: the bounds and corners of its arithmetic, the points DITHER
plots, and how many pixels a rule of 4 by 4 tiles turns on. -/

namespace Sys2Proof.Machine

open Sys2Proof

/-! ### Luma, alpha and the threshold (R184, R185, R186) -/

/-- The three weights add up to 1000, so a gray is its own luma. -/
theorem luma_gray {p : Sample} (hrg : p.r = p.g) (hgb : p.g = p.b) : luma p = p.r.toNat := by
  rw [luma, ← hgb, ← hrg]
  omega

theorem shade_opaque {p : Sample} (ha : p.a = 255) : shade p = luma p := by
  rw [shade, ha]
  exact Nat.mul_div_cancel _ (by decide)

theorem shade_transparent {p : Sample} (ha : p.a = 0) : shade p = 0 := by
  simp [shade, ha]

theorem shade_le (p : Sample) : shade p ≤ 255 := (shade_le_luma p).trans (luma_le p)

theorem ditherOn_iff {cell : Nat} {p : Sample} : ditherOn cell p = true ↔ cell * 16 < shade p := decide_eq_true_iff

theorem ditherOn_eq_false_iff {cell : Nat} {p : Sample} : ditherOn cell p = false ↔ shade p ≤ cell * 16 := by
  rw [ditherOn, decide_eq_false_iff_not, gt_iff_lt, Nat.not_lt]

/-! ### What DITHER reads of the image and of the matrix (R62, R63) -/

theorem sample_rgba {s : State} (hfmt : s.imgFmt = 0) (x y : Nat) :
    s.sample x y = ⟨s.imgByte ((y * 128 + x) * 4), s.imgByte ((y * 128 + x) * 4 + 1), s.imgByte ((y * 128 + x) * 4 + 2),
      s.imgByte ((y * 128 + x) * 4 + 3)⟩ := if_pos hfmt

theorem sample_rgb {s : State} (hfmt : s.imgFmt ≠ 0) (x y : Nat) :
    s.sample x y = ⟨s.imgByte ((y * 128 + x) * 3), s.imgByte ((y * 128 + x) * 3 + 1), s.imgByte ((y * 128 + x) * 3 + 2), 255⟩ :=
  if_neg hfmt

/-- The cell of a row and a column, in the matrix as a list. -/
theorem bayerCell_eq_getD (s : State) (r c : Nat) : s.bayerCell r c = (s.bayer.toList.getD (r % 4 * 4 + c % 4) 0).toNat := by
  have hlt : r % 4 * 4 + c % 4 < s.bayer.toList.length := by rw [Vector.length_toList]; omega
  rw [State.bayerCell, List.getD_eq_getElem _ _ hlt, Vector.getElem_toList]

/-- The points DITHER plots: those whose cell, times 16, is below their shade (R181, R186). -/
theorem mem_ditherPoints_iff_shade {s : State} {q : Point} :
    q ∈ ditherPoints s ↔ ∃ x y : Nat, q = ((x : Int), (y : Int)) ∧ x < 128 ∧ y < 64 ∧
      (s.bayer.toList.getD (y % 4 * 4 + x % 4) 0).toNat * 16 < shade (s.sample x y) := by
  simp only [mem_ditherPoints, State.dithersOn, ditherOn_iff, bayerCell_eq_getD]
  refine exists_congr fun x => exists_congr fun y => ?_
  exact ⟨fun ⟨hx, hy, hon, hq⟩ => ⟨hq, hx, hy, hon⟩, fun ⟨hq, hx, hy, hon⟩ => ⟨hx, hy, hon, hq⟩⟩

theorem exec_dither {s : State} (hw : s.imgW = 128) (hh : s.imgH = 64) :
    exec .dither s = .next (drawOk (ditherPoints s) s) := by
  have hsize : s.sizeMismatch ≠ true := by simp [sizeMismatch_iff, hw, hh]
  change execDither s = _
  rw [execDither, if_neg hsize]

/-! ### Counting pixels (R189) -/

theorem mem_displayPixels {q : Point} : q ∈ displayPixels ↔ ∃ x y : Nat, x < 128 ∧ y < 64 ∧ q = ((x : Int), (y : Int)) := by
  simp only [displayPixels, List.mem_flatMap, List.mem_map, List.mem_range]
  constructor
  · rintro ⟨y, hy, x, hx, rfl⟩; exact ⟨x, y, hx, hy, rfl⟩
  · rintro ⟨x, y, hx, hy, rfl⟩; exact ⟨y, hy, x, hx, rfl⟩

/-- A rule that depends on the cell of a pixel alone holds for 512 pixels a cell: the display is 32 by 16 tiles of 4 by 4. -/
theorem countP_displayPixels_tiled (p : Nat → Bool) :
    displayPixels.countP (fun q => p (q.2.toNat % 4 * 4 + q.1.toNat % 4)) = 512 * (List.range 16).countP p := by
  have hrow (y : Nat) : (List.range 128).countP (fun x => p (y % 4 * 4 + x % 4)) =
      32 * (List.range 4).countP (fun x => p (y % 4 * 4 + x % 4)) :=
    countP_range_periodic _ 4 32 fun x => by rw [Nat.add_mod_right]
  have hcells : List.range 16 = (List.range 4).flatMap fun y => (List.range 4).map fun x => y % 4 * 4 + x % 4 := by decide
  have hrows := sum_range_periodic (fun y => 32 * (List.range 4).countP fun x => p (y % 4 * 4 + x % 4)) 4 16
    fun y => by simp only [Nat.add_mod_right]
  calc displayPixels.countP (fun q => p (q.2.toNat % 4 * 4 + q.1.toNat % 4))
      = ((List.range 64).map fun y => (List.range 128).countP fun x => p (y % 4 * 4 + x % 4)).sum := by
        simp only [displayPixels, List.countP_flatMap, List.countP_map, Function.comp_def, Int.toNat_natCast]
    _ = 16 * ((List.range 4).map fun y => 32 * (List.range 4).countP fun x => p (y % 4 * 4 + x % 4)).sum := by
        simp only [hrow]
        exact hrows
    _ = 512 * (List.range 16).countP p := by
        rw [hcells, List.sum_map_mul_left, List.countP_flatMap]
        simp only [List.countP_map, Function.comp_def]
        omega

/-- Counting a list by its places is counting the list. -/
theorem countP_range_getD {α : Type} (p : α → Bool) (l : List α) (d : α) :
    (List.range l.length).countP (fun i => p (l.getD i d)) = l.countP p := by
  have hl : (List.range l.length).map (fun i => l.getD i d) = l :=
    List.ext_getElem (by simp) fun i _ hi => by simp [hi]
  conv_rhs => rw [← hl, List.countP_map]
  rfl

/-- Drawing on an all-off display leaves the points on, and no other pixel. -/
theorem getPixel_drawOk_of_blank {s : State} (hblank : ∀ a, a < 1024 → s.fbByte a = 0) (ps : List Point) {q : Point}
    (hq : onDisplay q = true) : (drawOk ps s).getPixel q = decide (q ∈ ps) := by
  rw [drawOk, getPixel_endOk, getPixel_drawn s ps hq, State.getPixel, hblank _ (pixelAddr_lt hq)]
  simp

/-- On an all-off display, dithering an image of one shade leaves 512 pixels on for each cell below it. -/
theorem pixelsOn_dither_uniform {s : State} {v : Nat} (hv : ∀ x y : Nat, x < 128 → y < 64 → shade (s.sample x y) = v)
    (hblank : ∀ a, a < 1024 → s.fbByte a = 0) :
    (drawOk (ditherPoints s) s).pixelsOn = 512 * s.bayer.toList.countP (fun c => decide (c.toNat * 16 < v)) := by
  have hpixel : ∀ q ∈ displayPixels, (drawOk (ditherPoints s) s).getPixel q =
      decide ((s.bayer.toList.getD (q.2.toNat % 4 * 4 + q.1.toNat % 4) 0).toNat * 16 < v) := by
    intro q hq
    obtain ⟨x, y, hx, hy, rfl⟩ := mem_displayPixels.1 hq
    have hon : onDisplay ((x : Int), (y : Int)) = true := by rw [onDisplay_iff]; omega
    have hmem : ((x : Int), (y : Int)) ∈ ditherPoints s ↔
        (s.bayer.toList.getD (y % 4 * 4 + x % 4) 0).toNat * 16 < v := by
      rw [mem_ditherPoints_iff_shade, ← hv x y hx hy]
      simp only [Prod.mk.injEq, Nat.cast_inj, and_assoc, exists_and_left, exists_eq_left', hx, hy, true_and]
    rw [getPixel_drawOk_of_blank hblank _ hon, decide_eq_decide]
    exact hmem
  have hcells := countP_range_getD (fun c => decide (c.toNat * 16 < v)) s.bayer.toList 0
  rw [Vector.length_toList] at hcells
  rw [State.pixelsOn, List.countP_congr fun q hq => by rw [hpixel q hq],
    countP_displayPixels_tiled (fun i => decide ((s.bayer.toList.getD i 0).toNat * 16 < v)), hcells]

/-- A matrix that holds each value once has `⌈v / 16⌉` cells below the shade `v`, which is at most 255. -/
theorem countP_cells_of_count_one {l : List (BitVec 4)} (hl : ∀ c, l.count c = 1) {v : Nat} (hv : v ≤ 255) :
    l.countP (fun c => decide (c.toNat * 16 < v)) = (v + 15) / 16 := by
  have hcount : ∀ c : BitVec 4, ((List.range 16).map (BitVec.ofNat 4)).count c = 1 := by decide
  have hperm : l.Perm ((List.range 16).map (BitVec.ofNat 4)) := List.perm_iff_count.2 fun c => by rw [hl, hcount]
  have hbelow : ∀ k : Fin 17, ((List.range 16).map (BitVec.ofNat 4)).countP (fun c => decide (c.toNat < k.val)) = k := by decide
  have hquot : (fun c : BitVec 4 => decide (c.toNat * 16 < v)) = fun c => decide (c.toNat < (v + 15) / 16) := by
    funext c
    rw [decide_eq_decide]
    omega
  rw [hperm.countP_eq, hquot]
  exact hbelow ⟨(v + 15) / 16, by omega⟩

end Sys2Proof.Machine

/-! SETTLED. The obligations of 41_ditherer.md. -/

namespace Sys2Proof.Proofs

open Sys2Proof.Machine

/-- Settles O29: DITHER plots the points of `mem_ditherPoints_iff_shade`, whose samples each format reads from its own bytes. -/
theorem ditherThreshold : Obligations.DitherThreshold := by
  intro s hw hh
  refine ⟨drawOk (ditherPoints s) s, exec_dither hw hh, onlyDrew_drawOk _ s, turnsOn_drawOk fun q => ?_⟩
  rw [mem_ditherPoints_iff_shade]
  refine exists_congr fun x => exists_congr fun y =>
    and_congr_right fun _ => and_congr_right fun _ => and_congr_right fun _ => ?_
  by_cases hfmt : s.imgFmt = 0
  · rw [sample_rgba hfmt]
    simp only [hfmt, if_true]
    exact Iff.rfl
  · rw [sample_rgb hfmt]
    simp only [hfmt, if_false]
    exact Iff.rfl

/-- Settles O32: `pixelsOn_dither_uniform` counts by cells, and the two kinds of matrix say how many cells are below the shade. -/
theorem uniformImageCount : Obligations.UniformImageCount := by
  intro s v hw hh hv hblank
  have hcount := pixelsOn_dither_uniform hv hblank
  refine ⟨drawOk (ditherPoints s) s, exec_dither hw hh, hcount, ?_, fun honce => ?_⟩
  · rintro rfl hbalanced
    have hhalf : (fun c : BitVec 4 => decide (c.toNat * 16 < 128)) = fun c => decide (c.toNat < 8) := by
      funext c
      rw [decide_eq_decide]
      omega
    rw [hcount, hhalf, eq_of_beq hbalanced]
  · have hv255 : v ≤ 255 := hv 0 0 (by decide) (by decide) ▸ shade_le _
    rw [hcount, countP_cells_of_count_one honce hv255]

/-- Settles O31: the bounds one by one; each corner is a comparison of the shade with 16 times a cell of at most 15. -/
theorem shadeAndThresholdCorners : Obligations.ShadeAndThresholdCorners := by
  refine ⟨fun p => ⟨shade_le_luma p, luma_le p, luma_gray, shade_opaque, shade_transparent⟩, fun cell p q => ?_, by decide⟩
  have hcell : cell.toNat ≤ 15 := Nat.le_of_lt_succ cell.isLt
  simp only [ditherOn_iff, ditherOn_eq_false_iff]
  refine ⟨fun ha => by rw [shade_transparent ha]; omega, fun h => by omega, ?_, ?_, fun h => by omega, ?_, ?_,
    fun hle hon => hon.trans_le hle⟩
  all_goals rintro rfl
  · exact Nat.lt_iff_add_one_le
  · exact Nat.lt_iff_add_one_le
  · exact fun h => h.le
  · exact fun h => h ▸ (by decide)

end Sys2Proof.Proofs

/-! SUPPORT. The commands of the display transport (42_transport.md), forwards: INIT and BLIT under fixed answers, what a complete
BLIT sends in numbers, where each command leaves the transport state, and the rows of the initialization list. -/

namespace Sys2Proof.Machine

open Sys2Proof

/-! ### INIT and BLIT under fixed answers (R210, R220, R223) -/

theorem exec_init_allOk {s : State} (hts : s.ts = .uninitialized) (hok : allOk s 28) :
    exec .init s = .next (initOk (s.acknowledged s.initTransactions)) := by
  change execInit s = _
  rw [execInit_eq_sendRun s hts]
  exact sendRun_ok _ s (by rwa [initTransactions_length])

theorem exec_init_failsAt {s : State} {k : Nat} (hk : k < 28) (hts : s.ts = .uninitialized) (hf : failsAt s k) :
    exec .init s =
      .next (initFail (busWritten [0x00, s.initSeq[k]] .fail (s.acknowledged (s.initTransactions.take k)))) := by
  have hlen : k < s.initTransactions.length := by rwa [initTransactions_length]
  have hget : s.initTransactions[k] = [0x00, s.initSeq[k]] :=
    (List.getElem_eq_iff hlen).2 (initTransactions_get s k hk)
  change execInit s = _
  rw [execInit_eq_sendRun s hts, sendRun_fail _ s k hlen hf, hget]

theorem acknowledged_dev (s : State) (bs : List (List Byte)) :
    (s.acknowledged bs).dev = bs.foldl Device.receive s.dev := rfl

theorem blitOk_eq (s : State) : blitOk s = { s with ts := .initialized, seq := .start, lastErr := .ok } := rfl

theorem exec_blit_allOk {s : State} (hts : s.ts = .initialized) (hc : s.chunkLimit ≠ 0)
    (hok : allOk s s.blitSeq.length) : exec .blit s = .next (blitOk (s.acknowledged s.blitSeq)) := by
  change execBlit s = _
  rw [execBlit_eq_sendRun s hts hc, sendRun_ok _ s hok]

theorem exec_blit_failsAt {s : State} {k : Nat} (hk : k < s.blitSeq.length) (hts : s.ts = .initialized)
    (hc : s.chunkLimit ≠ 0) (hf : failsAt s k) :
    exec .blit s = .next (blitFail (busWritten s.blitSeq[k] .fail (s.acknowledged (s.blitSeq.take k)))) := by
  change execBlit s = _
  rw [execBlit_eq_sendRun s hts hc, sendRun_fail _ s k hk hf]

/-! ### What a complete BLIT sends, in numbers (R221, R222) -/

/-- Of the transactions of a page the control byte 0x40 picks out the data transactions (R122). -/
theorem filter_data_pageSeq (s : State) (p : Nat) :
    ((s.pageSeq p).filter fun b => b.head? == some 0x40) = s.dataFrom p 0 := by
  have hdata : (s.dataFrom p 0).filter (fun b => b.head? == some 0x40) = s.dataFrom p 0 := by
    rw [List.filter_eq_self]
    intro b hb
    obtain ⟨j, -, rfl⟩ := List.mem_map.1 hb
    rfl
  rw [pageSeq_eq]
  exact hdata

theorem pageSeq_bytes (s : State) (hc : s.chunkLimit ≠ 0) (p : Nat) :
    ((s.pageSeq p).map List.length).sum = 6 + 128 + chunkCount s.chunkLimit := by
  have hdata := dataFrom_lengths s hc p (chunkCount s.chunkLimit) 0 (Nat.zero_add _)
  simp only [pageSeq_eq, List.map_cons, List.sum_cons, hdata, cmdTransaction, List.length_cons, List.length_nil]
  omega

/-- The transactions and the bytes of a complete BLIT, by the number of data transactions a page has (R222). -/
theorem blitSeq_size {s : State} (hc : s.chunkLimit ≠ 0) {n : Nat} (hn : chunkCount s.chunkLimit = n) :
    s.blitSeq.length = 8 * (3 + n) ∧ (s.blitSeq.map List.length).sum = 8 * (6 + 128 + n) := by
  subst hn
  refine ⟨blitSeq_length s, ?_⟩
  have hpage : (List.sum ∘ List.map List.length) ∘ s.pageSeq = fun _ => 6 + 128 + chunkCount s.chunkLimit :=
    funext (pageSeq_bytes s hc)
  rw [State.blitSeq, List.flatMap_def, List.map_flatten, List.sum_flatten, List.map_map, List.map_map, hpage,
    List.map_const', List.sum_replicate, List.length_range, smul_eq_mul]

/-- From 128 on the limit leaves a page in one data transaction. -/
theorem chunkCount_of_page_le {limit : Half} (h : 128 ≤ limit.toNat) : chunkCount limit = 1 := by
  have hchunk : chunk limit = 128 := Nat.min_eq_right h
  rw [chunkCount, hchunk]

/-! ### OPEN and CLOSE (R205, R235) -/

theorem addrBit7_of_lt {a : Byte} (ha : a.toNat < 128) : addrBit7 a = false := by
  rw [addrBit7_eq]
  exact decide_eq_false (Nat.not_le.2 ha)

theorem exec_openBus_of_lt {a : Byte} (ha : a.toNat < 128) (s : State) :
    exec (.openBus a) s = openAddr (BitVec.ofNat 7 a.toNat) s := by
  rw [exec_openBus (addrBit7_of_lt ha), addr7_eq]

theorem exec_openBus_bit7 {a : Byte} (ha : 128 ≤ a.toNat) (s : State) :
    exec (.openBus a) s = .next (raise .illegalCommand s) := by
  have h7 : addrBit7 a = true := by rw [addrBit7_eq]; exact decide_eq_true ha
  exact exec_refusedEarly (.inr (.inl ⟨⟨a, rfl, h7⟩, rfl⟩))

theorem exec_close (s : State) : exec .close s =
    .next { s with ts := .closed, lastErr := .ok, busLog := s.busLog ++ (if s.ts = .closed then [] else [.closed]) } := by
  change execClose s = _
  unfold execClose
  split_ifs with hts
  · rw [List.append_nil]
    rfl
  · rfl

/-! ### Commands in the wrong state (R202) -/

section
variable {s : State}

theorem refusedEarly_openBus {a : Byte} (ha : a.toNat < 128) (hts : s.ts ≠ .closed) :
    refusedEarly (.openBus a) s .invalidState :=
  .inr (.inr (.inr (.inl ⟨⟨.inl ⟨a, rfl, addrBit7_of_lt ha⟩, hts⟩, rfl⟩)))

theorem refusedEarly_openDefault (hts : s.ts ≠ .closed) : refusedEarly .openDefault s .invalidState :=
  .inr (.inr (.inr (.inl ⟨⟨.inr rfl, hts⟩, rfl⟩)))

theorem refusedEarly_init (hts : s.ts ≠ .uninitialized) : refusedEarly .init s .invalidState :=
  .inr (.inr (.inr (.inr (.inl ⟨rfl, hts, rfl⟩))))

theorem refusedEarly_blit (hts : s.ts ≠ .initialized) : refusedEarly .blit s .invalidState :=
  .inr (.inr (.inr (.inr (.inr ⟨rfl, hts, rfl⟩))))

end

/-! ### Where a command leaves the transport state (R201) -/

theorem eq_raise_of_refusedEarly {i : Instr} {s t : State} {r : Result} (hr : refusedEarly i s r)
    (hex : exec i s = .next t) : t = raise r s := by
  rw [exec_refusedEarly hr] at hex
  injection hex with hex
  exact hex.symm

theorem openAddr_transition {a : BitVec 7} {s t : State} (h : openAddr a s = .next t) :
    if s.ts = .closed then (t.ts = .uninitialized ∧ t.lastErr = .ok) ∨ (t.ts = .closed ∧ t.lastErr = .deviceUnavailable)
    else t.ts = s.ts ∧ t.lastErr = .invalidState := by
  rcases openAddr_cases h with ⟨hts, rfl⟩ | ⟨hts, ans, -, rfl⟩
  · rw [if_neg hts]
    exact ⟨rfl, rfl⟩
  · rw [if_pos hts]
    cases ans with
    | ok => exact .inl ⟨rfl, rfl⟩
    | fail => exact .inr ⟨hts, rfl⟩

theorem exec_init_transition {s t : State} (hex : exec .init s = .next t) :
    if s.ts = .uninitialized then (t.ts = .initialized ∧ t.lastErr = .ok) ∨ (t.ts = .closed ∧ t.lastErr = .initFailed)
    else t.ts = s.ts ∧ t.lastErr = .invalidState := by
  split_ifs with hts
  · have hrun := (execInit_eq_sendRun s hts).symm.trans hex
    rcases sendRun_cases hrun with ⟨-, rfl⟩ | ⟨k, hk, -, rfl⟩
    · exact .inl ⟨rfl, rfl⟩
    · exact .inr ⟨rfl, rfl⟩
  · rw [eq_raise_of_refusedEarly (refusedEarly_init hts) hex]
    exact ⟨rfl, rfl⟩

/-- A limit of 0 is no case of it: BLIT then faults (log 14). -/
theorem exec_blit_transition {s t : State} (hex : exec .blit s = .next t) :
    if s.ts = .initialized then t.ts = .initialized ∧ (t.lastErr = .ok ∨ t.lastErr = .transferFailed)
    else t.ts = s.ts ∧ t.lastErr = .invalidState := by
  split_ifs with hts
  · have hc : s.chunkLimit ≠ 0 := by
      intro hc
      change execBlit s = _ at hex
      rw [execBlit, if_neg (not_not_intro hts), if_pos hc] at hex
      exact absurd hex (by simp)
    have hrun := (execBlit_eq_sendRun s hts hc).symm.trans hex
    rcases sendRun_cases hrun with ⟨-, rfl⟩ | ⟨k, hk, -, rfl⟩
    · exact ⟨rfl, .inl rfl⟩
    · exact ⟨rfl, .inr rfl⟩
  · rw [eq_raise_of_refusedEarly (refusedEarly_blit hts) hex]
    exact ⟨rfl, rfl⟩

/-- An instruction that is none of the five groups of R201's table leaves the transport state alone. -/
theorem exec_ts_of_other {i : Instr} {s t : State} (hex : exec i s = .next t)
    (hopen : ∀ a : Byte, a.toNat < 128 → i ≠ .openBus a) (hdefault : i ≠ .openDefault) (hinit : i ≠ .init)
    (hblit : i ≠ .blit) (hclose : i ≠ .close) : t.ts = s.ts := by
  obtain ⟨-, -, -, hts, -⟩ := exec_writers hex
  rcases hts with hts | (⟨a, rfl⟩ | h) | h | h | h
  · exact hts
  · have ha : 128 ≤ a.toNat := Nat.not_lt.1 fun hlt => hopen a hlt rfl
    rw [exec_openBus_bit7 ha] at hex
    injection hex with hex
    exact hex ▸ rfl
  · exact absurd h hdefault
  · exact absurd h hinit
  · exact absurd h hblit
  · exact absurd h hclose

/-! ### Rows of the initialization list (R212) -/

theorem initByte_eq (s : State) (k : Fin 28) : s.initByte k = s.initSeq[k] := by
  have hlen : (k : Nat) < s.initSeq.toList.length := by simp
  rw [State.initByte, List.getD_eq_getElem _ _ hlen]
  simp

theorem exec_initEntry (k : Fin 28) (s : State) : exec (Instr.initEntry k) s = exec (.busCmd s.initSeq[k]) s := by
  rw [initEntry_exec, initEntryDelivered, initByte_eq]
  rfl

theorem exec_initEntry_known {s : State} {k : Fin 28} {c : Byte} (hc : s.initSeq[k] = c) :
    exec (Instr.initEntry k) s = .next (busDelivered (cmdTransaction c) s) := by
  rw [exec_initEntry, hc]
  rfl

/-- What the row of an entry makes of the device, for an entry that is known. -/
theorem exec_initEntry_dev {s : State} {k : Fin 28} {c : Byte} {d : Device} (hc : s.initSeq[k] = c)
    (hd : s.dev.command c = d) : ∃ t, exec (Instr.initEntry k) s = .next t ∧ t.dev = d :=
  ⟨_, exec_initEntry_known hc, by rw [busDelivered_dev, receive_cmd, hd]⟩

end Sys2Proof.Machine

/-! SETTLED. The obligations of 42_transport.md. -/

namespace Sys2Proof.Proofs

open Sys2Proof.Machine

/-- Settles O36: the list as `initTransactions` gives it, sent whole (`exec_init_allOk`). -/
theorem initSendsTheList : Obligations.InitSendsTheList :=
  fun s hts hok => ⟨initTransactions_length s, initTransactions_get s, exec_init_allOk hts hok⟩

/-- Settles O37: `exec_init_failsAt`; the failing transaction and the release are the last two events. -/
theorem initStopsAtFailure : Obligations.InitStopsAtFailure := by
  intro s k hk hts hf
  rw [exec_init_failsAt hk hts hf]
  simp only [initFail, raise, busClosed, busWritten, List.append_assoc]
  rfl

/-- Settles O39: BLIT is the sending of `blitSeq`, here to its end. -/
theorem blitSendsTheFrame : Obligations.BlitSendsTheFrame := by
  intro s hts hc hok
  rw [exec_blit_allOk hts hc hok, blitOk_eq]

/-- Settles O40: BLIT is the sending of `blitSeq`, here as far as transaction `k`. -/
theorem blitStopsAtFailure : Obligations.BlitStopsAtFailure := by
  intro s k hk hts hc hf
  rw [exec_blit_failsAt hk hts hc hf]
  simp only [blitFail, raise, busWritten]
  rfl

/-- Settles O41: the payloads join to the page (`payloads_from`), and the counts follow from the number of data transactions of
a page (`blitSeq_size`). -/
theorem chunkingTransparent : Obligations.ChunkingTransparent := by
  intro s hc
  refine ⟨fun p _ => ?_, blitSeq_size hc rfl, fun h => blitSeq_size (n := 128) hc ?_,
    fun h => blitSeq_size (n := 8) hc ?_, fun h => blitSeq_size (n := 3) hc ?_,
    fun h => blitSeq_size (n := 1) hc (chunkCount_of_page_le h)⟩
  · have hjoin := payloads_from s hc p (chunkCount s.chunkLimit) 0 (Nat.zero_add _)
    rw [filter_data_pageSeq, hjoin]
    simp [State.pageBytes]
  all_goals
    rw [h]
    rfl

/-- Settles O42: the device receives `blitSeq`, after which each of its bytes is the framebuffer's (`byte_blitSeq`). -/
theorem blitCopiesFramebuffer : Obligations.BlitCopiesFramebuffer := by
  intro s hts hc hok
  refine ⟨_, blitSendsTheFrame s hts hc hok, rfl, fun p x hp hx => ⟨?_, rfl⟩⟩
  rw [acknowledged_dev]
  exact byte_blitSeq s hc s.dev _ (by omega)

/-- Settles O48: the transitions of OPEN, INIT, BLIT and CLOSE one by one, and `exec_ts_of_other` for the rest. -/
theorem transportTransitions : Obligations.TransportTransitions := by
  intro i s t hex
  refine ⟨?_, ?_, ?_, ?_, exec_ts_of_other hex⟩
  · rintro (⟨a, ha, rfl⟩ | rfl)
    · rw [exec_openBus_of_lt ha] at hex
      exact openAddr_transition hex
    · exact openAddr_transition hex
  · rintro rfl
    exact exec_init_transition hex
  · rintro rfl
    exact exec_blit_transition hex
  · rintro rfl
    rw [exec_close] at hex
    injection hex with hex
    subst hex
    exact ⟨rfl, rfl⟩

/-- Settles O52: a row is BUS.CMD of its entry (`exec_initEntry`), whose effect `busCommandRow` states; the known entries select
page 0, clear the column or are bytes that the device ignores. -/
theorem initEntryRows : Obligations.InitEntryRows := by
  refine ⟨by decide, fun s => ⟨fun k => ⟨exec_initEntry k s, ?_⟩, fun hfixed => ?_⟩⟩
  · rw [exec_initEntry]
    exact busCommandRow _ s
  · simp only [initSeqFixed, Bool.and_eq_true, beq_iff_eq] at hfixed
    obtain ⟨⟨⟨⟨⟨⟨⟨⟨⟨h3, h5⟩, h6⟩, h13⟩, h16⟩, h18⟩, h20⟩, h22⟩, h24⟩, h26⟩ := hfixed
    refine ⟨exec_initEntry_dev (k := 3) h3 rfl,
      ⟨_, _, exec_initEntry_known (k := 5) h5, exec_initEntry_known (k := 6) h6, ?_⟩,
      exec_initEntry_dev (k := 16) h16 (command_columnLow s.dev), ?_⟩
    · simp only [busDelivered_dev, receive_cmd, command_columns]
    · simp only [List.mem_cons, List.not_mem_nil, or_false]
      rintro i (rfl | rfl | rfl | rfl | rfl | rfl)
      · exact exec_initEntry_dev (k := 13) h13 rfl
      · exact exec_initEntry_dev (k := 18) h18 rfl
      · exact exec_initEntry_dev (k := 20) h20 rfl
      · exact exec_initEntry_dev (k := 22) h22 rfl
      · exact exec_initEntry_dev (k := 24) h24 rfl
      · exact exec_initEntry_dev (k := 26) h26 rfl

/-- Settles O33: the two refusals that come before the bus call, and the call answered ok or fail. -/
theorem openEveryCase : Obligations.OpenEveryCase := by
  intro a s
  refine ⟨fun ha => exec_openBus_bit7 ha s, fun ha hts => exec_refusedEarly (refusedEarly_openBus ha hts),
    fun ha hts hok => ?_, fun ha hts hfail => ?_⟩
  · rw [exec_openBus_of_lt ha]
    exact openAddr_closed _ hts hok
  · rw [exec_openBus_of_lt ha]
    exact openAddr_closed _ hts hfail

/-- Settles O35: each of the wrong states is a case of `refusedEarly`; the bit of InvalidState is bit 5. -/
theorem wrongStateRefused : Obligations.WrongStateRefused := by
  rintro i s (⟨hts, ⟨a, ha, rfl⟩ | rfl⟩ | ⟨hts, rfl⟩ | ⟨hts, rfl⟩)
  · exact exec_refusedEarly (refusedEarly_openBus ha hts)
  · exact exec_refusedEarly (refusedEarly_openDefault hts)
  · exact exec_refusedEarly (refusedEarly_init hts)
  · exact exec_refusedEarly (refusedEarly_blit hts)

/-- Settles O38: the offsets of a page are the multiples of the chunk size. -/
theorem blitSequence : Obligations.BlitSequence := by
  intro s _
  refine congrArg (fun seq => (List.range 8).flatMap seq) (funext fun p => ?_)
  simp only [State.pageSeq, chunkOffsets, List.map_map]
  rfl

/-- Settles O46: `exec_close`, which splits on whether a handle is bound. -/
theorem closeReleases : Obligations.CloseReleases := exec_close

/-- Settles O47: SETCHUNK of 0 is one of the early refusals. -/
theorem setChunkStores : Obligations.SetChunkStores :=
  fun _ _ => ⟨exec_setChunk, exec_refusedEarly (.inr (.inr (.inl ⟨rfl, rfl⟩)))⟩

end Sys2Proof.Proofs

/-! SUPPORT. The result of a command (60_exceptions.md R250): which command can end with which error, said once for each result. -/

namespace Sys2Proof.Machine

open Sys2Proof

/-- The host commands that can end with each result: R250's raised-by column. A word that decodes to no command raises IllegalCommand
before there is an instruction, and is no case here (R106). -/
def MayEndWith (i : Instr) : Result → Prop
  | .ok => True
  | .deviceUnavailable => isOpen i
  | .initFailed => i = .init
  | .transferFailed => i = .blit
  | .dimensionMismatch => i = .dither
  | .invalidState => isOpen i ∨ i = .init ∨ i = .blit
  | .illegalCommand => i.operandsLegal = false

theorem operandsLegal_openBus {a : Byte} (h7 : addrBit7 a = true) : (Instr.openBus a).operandsLegal = false := by
  rw [Instr.operandsLegal, h7, Bool.not_true]

theorem mayEndWith_of_refusedEarly {i : Instr} {s : State} {r : Result} (hr : refusedEarly i s r) : MayEndWith i r := by
  rcases hr with ⟨hdither, -, rfl⟩ | ⟨⟨a, rfl, h7⟩, rfl⟩ | ⟨rfl, rfl⟩ | ⟨⟨hopen, -⟩, rfl⟩ | ⟨hinit, -, rfl⟩ |
    ⟨hblit, -, rfl⟩
  · exact hdither
  · exact operandsLegal_openBus h7
  · exact rfl
  · exact .inl (hopen.imp_left fun ⟨a, ha, _⟩ => ⟨a, ha⟩)
  · exact .inr (.inl hinit)
  · exact .inr (.inr hblit)

/-- A host command ends with a result that R250 gives it. -/
theorem exec_mayEndWith {i : Instr} {s t : State} (hi : i.isBusSide = false) (hex : exec i s = .next t) :
    MayEndWith i t.lastErr := by
  rcases exec_cases hex with ⟨-, -, rfl⟩ | ⟨-, rfl⟩ | ⟨r, hr, rfl⟩ | ⟨a, ans, hopen, -, -, rfl⟩ | ⟨rfl, -, hinit⟩ |
    ⟨rfl, -, -, hblit⟩ | ⟨-, rfl⟩ | ⟨n, -, -, rfl⟩ | ⟨hbus, -⟩
  · exact trivial
  · exact trivial
  · exact mayEndWith_of_refusedEarly hr
  · cases ans with
    | ok => exact trivial
    | fail => exact hopen.imp (fun ⟨b, hb, _⟩ => ⟨b, hb⟩) And.left
  · rcases sendRun_cases hinit with ⟨-, rfl⟩ | ⟨k, hk, -, rfl⟩
    · exact trivial
    · exact rfl
  · rcases sendRun_cases hblit with ⟨-, rfl⟩ | ⟨k, hk, -, rfl⟩
    · exact trivial
    · exact rfl
  · exact trivial
  · exact trivial
  · exact absurd hbus (by simp [hi])

end Sys2Proof.Machine

/-! SETTLED. The obligations of 60_exceptions.md. -/

namespace Sys2Proof.Proofs

open Sys2Proof.Machine

/-- Settles O56: each clause is `exec_mayEndWith` read at one result. -/
theorem resultsOfCommands : Obligations.ResultsOfCommands := by
  intro i s t hi hex
  have hresult : ∀ r, t.lastErr = r → MayEndWith i r := fun r hr => hr ▸ exec_mayEndWith hi hex
  exact ⟨hresult .deviceUnavailable, hresult .initFailed, hresult .transferFailed, hresult .dimensionMismatch,
    fun h => or_assoc.1 (hresult .invalidState h), hresult .illegalCommand⟩

/-- Settles O30: a declared size other than the display's is one of the early refusals; its bit is bit 4. -/
theorem ditherSizeMismatch : Obligations.DitherSizeMismatch :=
  fun s hsize => exec_refusedEarly (.inl ⟨rfl, (sizeMismatch_iff s).2 hsize, rfl⟩)

end Sys2Proof.Proofs

/-! SUPPORT. Runs of the whole machine (70_reset_and_hazards.md): when an instruction and a step answer a next state, what a step
takes from the two queues, which moves of the host can turn a pixel off, and the start-up order with every call acknowledged. -/

namespace Sys2Proof.Machine

open Sys2Proof

/-! ### When an instruction answers a next state (R305, R311) -/

theorem openAddr_next {s : State} (hans : none ∉ s.replies) (a : BitVec 7) : ∃ t, openAddr a s = .next t := by
  by_cases hts : s.ts = .closed
  · obtain ⟨ans, ha⟩ := answerAt_some hans 0
    exact ⟨_, openAddr_closed a hts ha⟩
  · exact ⟨_, if_pos hts⟩

theorem exec_init_next {s : State} (hans : none ∉ s.replies) : ∃ t, exec .init s = .next t := by
  by_cases hts : s.ts = .uninitialized
  · obtain ⟨t, ht⟩ := sendRun_next hans
    exact ⟨t, (execInit_eq_sendRun s hts).trans ht⟩
  · exact ⟨_, exec_refusedEarly (refusedEarly_init hts)⟩

theorem exec_blit_next {s : State} (hc : s.chunkLimit ≠ 0) (hans : none ∉ s.replies) : ∃ t, exec .blit s = .next t := by
  by_cases hts : s.ts = .initialized
  · obtain ⟨t, ht⟩ := sendRun_next hans
    exact ⟨t, (execBlit_eq_sendRun s hts hc).trans ht⟩
  · exact ⟨_, exec_refusedEarly (refusedEarly_blit hts)⟩

/-- Only OPEN, INIT and BLIT wait for the bus, and BLIT needs a chunk limit; every other instruction always completes. -/
theorem exec_next {s : State} (hc : s.chunkLimit ≠ 0) (hans : none ∉ s.replies) (i : Instr) : ∃ t, exec i s = .next t := by
  cases i
  case openBus a =>
    cases h7 : addrBit7 a with
    | true => exact ⟨_, exec_refusedEarly (.inr (.inl ⟨⟨a, rfl, h7⟩, rfl⟩))⟩
    | false => rw [exec_openBus h7]; exact openAddr_next hans _
  case openDefault => exact openAddr_next hans _
  case init => exact exec_init_next hans
  case blit => exact exec_blit_next hc hans
  case dither =>
    cases hm : s.sizeMismatch with
    | true => exact ⟨_, exec_refusedEarly (.inl ⟨rfl, hm, rfl⟩)⟩
    | false => exact ⟨_, exec_draws rfl fun _ => hm⟩
  case clear | frame => exact ⟨_, exec_clears (by simp) s⟩
  case setPixel | line | rect | glyph | text | drawGlyph | drawText => exact ⟨_, exec_draws rfl (by simp)⟩
  case close => exact ⟨_, exec_close s⟩
  case setChunk => exact ⟨_, rfl⟩
  all_goals exact ⟨_, exec_busSide rfl s⟩

/-! ### When a step answers a next state -/

/-- The environment holds nothing that stops the machine: every answer it has fixed is given, and every instruction the host names
has operands that a word can carry (R72, U16). -/
def Unblocked (s : State) : Prop :=
  none ∉ s.replies ∧ ∀ i, HostInput.abstract i ∈ s.inputs → i.operandsFit = true

theorem step_next {s : State} (hc : s.chunkLimit ≠ 0) (h : Unblocked s) : ∃ t, step s = .next t := by
  obtain ⟨hans, hfit⟩ := h
  cases hin : s.inputs with
  | nil => exact ⟨s, by simp only [step, fetch, hin]⟩
  | cons m rest =>
    have hexec := exec_next (s := { s with inputs := rest }) hc hans
    cases m with
    | command w =>
      cases hdec : decode w with
      | ok i => rw [step_command hin hdec]; exact hexec i
      | error e => exact ⟨_, step_illegal hin hdec⟩
    | abstract i =>
      rw [step_abstract hin (hfit i (by simp [hin]))]
      exact hexec i
    | writeCsr n v => exact ⟨_, step_writeCsr hin⟩
    | writeImg a v => exact ⟨_, step_writeImg hin⟩
    | reset => exact ⟨_, step_reset hin⟩

/-- A step takes at most the first of the host's moves, and bus answers from the front only. -/
theorem step_queues {s t : State} (hstep : step s = .next t) :
    t.inputs = s.inputs.tail ∧ ∃ n, t.replies = s.replies.drop n := by
  rcases step_cases hstep with ⟨hin, rfl⟩ | ⟨m, rest, hin, hmove⟩
  · exact ⟨by rw [hin, List.tail_nil], 0, rfl⟩
  rw [hin, List.tail_cons]
  rcases hmove with ⟨i, -, hex⟩ | ⟨w, e, -, -, rfl⟩ | ⟨n, v, -, rfl⟩ | ⟨a, v, -, rfl⟩ | ⟨-, rfl⟩
  · obtain ⟨-, -, hinputs⟩ := exec_keeps hex
    obtain ⟨n, hreplies⟩ := replies_exec hex
    exact ⟨hinputs, n, hreplies⟩
  · exact ⟨rfl, 0, rfl⟩
  · exact ⟨csrWrite_inputs _ n v, 0, csrWrite_replies _ n v⟩
  · exact ⟨rfl, 0, rfl⟩
  · exact ⟨rfl, 0, rfl⟩

theorem Unblocked.of_step {s t : State} (h : Unblocked s) (hstep : step s = .next t) : Unblocked t := by
  obtain ⟨hans, hfit⟩ := h
  obtain ⟨hinputs, n, hreplies⟩ := step_queues hstep
  refine ⟨fun hnone => hans ?_, fun i hi => hfit i ?_⟩
  · exact List.mem_of_mem_drop (hreplies ▸ hnone)
  · exact List.mem_of_mem_tail (hinputs ▸ hi)

theorem safeFor_succ {n : Nat} {s t : State} (hstep : step s = .next t) (h : safeFor n t) : safeFor (n + 1) s := by
  obtain ⟨u, hu⟩ := h
  have hcore : Sys2Proof.core.step s = .next t := hstep
  exact ⟨u, by simp only [Host.Core.run, hcore, hu]⟩

/-- The invariant and what the environment grants hold of every state of the run, so no step of it stops. -/
theorem safeFor_of_unblocked {s : State} (hinv : Inv s) (h : Unblocked s) (n : Nat) : safeFor n s := by
  induction n generalizing s with
  | zero => exact ⟨s, rfl⟩
  | succ n ih =>
    obtain ⟨t, hstep⟩ := step_next hinv.chunkNonzero h
    exact safeFor_succ hstep (ih (inv_step hinv hstep) (h.of_step hstep))

/-! ### A bus call that is never answered (R305, U9) -/

theorem openAddr_never {s : State} (a : BitVec 7) (hts : s.ts = .closed) (hnever : s.answerAt 0 = none) :
    openAddr a s = .fault .busNeverAnswers := by
  simp only [openAddr, hts, ne_eq, not_true, if_false, hnever]

/-! ### Which moves turn a pixel off (R300, R142) -/

theorem encode_of_decode {w : List Byte} {i : Instr} (h : decode w = .ok i) : i.isCommand = true ∧ w = i.encode := by
  obtain ⟨hcommand, -, rfl⟩ := decodeFront_inv (decode_ok_iff.1 h)
  exact ⟨hcommand, List.append_nil _⟩

/-- CLEAR comes as its word or by name, FRAME by name only (R108). -/
theorem clearing_move {m : HostInput} {i : Instr} (hm : m = .abstract i ∨ ∃ w, m = .command w ∧ decode w = .ok i)
    (hi : i = .clear ∨ i = .frame) : m = .abstract .clear ∨ m = .abstract .frame ∨ m = .command [0x01] := by
  rcases hm with rfl | ⟨w, rfl, hdec⟩
  · exact hi.imp (congrArg _) fun h => .inl (congrArg _ h)
  · obtain ⟨hcommand, rfl⟩ := encode_of_decode hdec
    rcases hi with rfl | rfl
    · exact .inr (.inr rfl)
    · exact absurd hcommand Bool.false_ne_true

/-- A step keeps a pixel on, or its move was a reset or an instruction that clears. -/
theorem step_keeps_pixel {s t : State} {q : Point} (hstep : step s = .next t) (hq : onDisplay q = true)
    (hon : s.getPixel q = true) : t.getPixel q = true ∨ ∃ m rest, s.inputs = m :: rest ∧ (m = .reset ∨
      ∃ i, (m = .abstract i ∨ ∃ w, m = .command w ∧ decode w = .ok i) ∧ (i = .clear ∨ i = .frame)) := by
  rcases step_cases hstep with ⟨-, rfl⟩ | ⟨m, rest, hin, ⟨i, hm, hex⟩ | ⟨w, e, -, -, rfl⟩ | ⟨n, v, -, rfl⟩ |
    ⟨a, v, -, rfl⟩ | ⟨hm, -⟩⟩
  · exact .inl hon
  · by_cases hi : i = .clear ∨ i = .frame
    · exact .inr ⟨m, rest, hin, .inr ⟨i, hm, hi⟩⟩
    · obtain ⟨hclear, hframe⟩ := not_or.1 hi
      exact .inl (exec_keeps_pixel hex hclear hframe hq hon)
  · exact .inl hon
  · left
    rw [State.getPixel, fbByte_of_fb (csrWrite_fb _ n v) (csrWrite_resets _ n v)]
    exact hon
  · exact .inl hon
  · exact .inr ⟨m, rest, hin, .inl hm⟩

/-! ### The start-up order, all acknowledged (R201, R291) -/

theorem allOk.mono {s : State} {m n : Nat} (h : allOk s n) (hmn : m ≤ n) : allOk s m :=
  fun k hk => h k (Nat.lt_of_lt_of_le hk hmn)

/-- Once the next `m` answers are taken, the `n` after them are the next. -/
theorem allOk.of_taken {s t : State} {m n : Nat} (h : allOk s (m + n)) (ht : ∀ k, t.answerAt k = s.answerAt (k + m)) :
    allOk t n :=
  fun k hk => (ht k).trans (h (k + m) (by omega))

/-- What an OPEN of `a` from Closed leaves when its call is acknowledged. -/
def State.afterOpen (s : State) (a : Byte) : State := openAnswered (BitVec.ofNat 7 a.toNat) .ok s

/-- What an INIT from Uninitialized leaves when every transaction is acknowledged. -/
def State.afterInit (s : State) : State := initOk (s.acknowledged s.initTransactions)

theorem exec_openBus_ok {a : Byte} {s : State} (ha : a.toNat < 128) (hts : s.ts = .closed) (hok : s.answerAt 0 = some .ok) :
    exec (.openBus a) s = .next (s.afterOpen a) := by
  rw [exec_openBus_of_lt ha]
  exact openAddr_closed _ hts hok

theorem answerAt_afterOpen (s : State) (a : Byte) (k : Nat) : (s.afterOpen a).answerAt k = s.answerAt (k + 1) :=
  answerAt_answerTaken s k

theorem answerAt_afterInit (s : State) (k : Nat) : s.afterInit.answerAt k = s.answerAt (k + 28) := by
  rw [← initTransactions_length s]
  exact answerAt_acknowledged s.initTransactions s k

/-- What a BLIT sends depends on the framebuffer and the chunk limit only (R221). -/
theorem blitSeq_congr {s t : State} (hfb : ∀ a, t.fbByte a = s.fbByte a) (hchunk : t.chunkLimit = s.chunkLimit) :
    t.blitSeq = s.blitSeq := by
  have hdata : t.chunkTransaction = s.chunkTransaction := funext₂ fun p off => by
    simp only [State.chunkTransaction, State.pageBytes, hfb, hchunk]
  have hpage : t.pageSeq = s.pageSeq := funext fun p => by simp only [State.pageSeq, hdata, hchunk]
  rw [State.blitSeq, hpage, State.blitSeq]

theorem blitSeq_startUp (s : State) (a : Byte) : (s.afterOpen a).afterInit.blitSeq = s.blitSeq :=
  blitSeq_congr (fun _ => rfl) rfl

theorem blitOk_dev (s : State) : (blitOk s).dev = s.dev := rfl

/-- After a complete BLIT a byte of the device is the framebuffer's (R233). -/
theorem byte_afterBlit {s : State} (hc : s.chunkLimit ≠ 0) {k : Nat} (hk : k < 1024) :
    (blitOk (s.acknowledged s.blitSeq)).dev.byte k = s.fbByte k := by
  rw [blitOk_dev, acknowledged_dev]
  exact byte_blitSeq s hc s.dev k hk

end Sys2Proof.Machine

/-! SETTLED. The obligations of 70_reset_and_hazards.md. -/

namespace Sys2Proof.Proofs

open Sys2Proof.Machine

/-- Settles O59: the invariant rules out a chunk limit of 0, a step keeps what the environment grants (`Unblocked.of_step`), and
under both a step answers a next state (`step_next`). -/
theorem runsGoOn : Obligations.RunsGoOn := fun n _ hinv hans hfit => safeFor_of_unblocked hinv ⟨hans, hfit⟩ n

/-- Settles O28: a move that does not keep the pixel is a reset or gives CLEAR or FRAME, which have one word between them. -/
theorem onlyClearTurnsOff : Obligations.OnlyClearTurnsOff := by
  refine ⟨fun s t q hstep hq hon hoff => ?_,
    fun s => ⟨cleared s, rfl, rfl, onlyDrew_cleared s, fun a => fbByte_cleared s⟩⟩
  rcases step_keeps_pixel hstep hq hon with hkept | ⟨m, rest, hin, hm⟩
  · rw [hkept] at hoff
    exact Bool.noConfusion hoff
  · exact ⟨m, rest, hin, hm.imp_right fun ⟨i, hgiven, hi⟩ => clearing_move hgiven hi⟩

/-- Settles O45: OPEN waits for its one call, and INIT and BLIT are sendings, which a missing answer stops (`sendRun_never`). -/
theorem neverAnsweredNeverEnds : Obligations.NeverAnsweredNeverEnds := by
  refine fun s k hok hnever => ⟨fun a ha hts hk => ?_, fun hts hk => ?_, fun hts hk => ?_, fun hts hc hk => ?_⟩
  · rw [exec_openBus_of_lt ha]
    exact openAddr_never _ hts (hk ▸ hnever)
  · exact openAddr_never _ hts (hk ▸ hnever)
  · have hlen : k < s.initTransactions.length := by rwa [initTransactions_length]
    exact (execInit_eq_sendRun s hts).trans (sendRun_never _ s k hlen hok hnever)
  · exact (execBlit_eq_sendRun s hts hc).trans (sendRun_never _ s k hk hok hnever)

/-- Settles O60: OPEN takes one answer and INIT 28, neither changes what BLIT sends (`blitSeq_startUp`), and BLIT brings the
framebuffer to the device whatever INIT left there (`byte_afterBlit`). -/
theorem startUpShowsTheFrame : Obligations.StartUpShowsTheFrame := by
  intro s a hts hc ha hok
  have hopened : allOk (s.afterOpen a) (28 + s.blitSeq.length) :=
    allOk.of_taken (m := 1) (by rwa [← Nat.add_assoc]) (answerAt_afterOpen s a)
  have hinited : allOk (s.afterOpen a).afterInit (s.afterOpen a).afterInit.blitSeq.length := by
    rw [blitSeq_startUp]
    exact hopened.of_taken (answerAt_afterInit _)
  refine ⟨_, _, _, exec_openBus_ok ha hts (hok 0 (by omega)), exec_init_allOk rfl (hopened.mono (by omega)),
    exec_blit_allOk rfl hc hinited, rfl, rfl, Nat.mod_eq_of_lt ha, fun k hk => ?_⟩
  exact byte_afterBlit (s := (s.afterOpen a).afterInit) hc hk

end Sys2Proof.Proofs
